-- ==== Sys2Proof/Word.lean ====
section
/-!
DEFINITION. The word types of gbemu CORE.

Registers and memory cells are 8 bits wide, the two pointers and every address are 16 bits wide
(`00_scope.md` R6, `10_state.md` R20).  Arithmetic on both wraps (R14, R22).
-/

namespace Sys2Proof

/-- An 8-bit register or one byte of memory (R20, R60). -/
abbrev Byte := BitVec 8

/-- A 16-bit pointer, register pair or address (R20, R21, R60). -/
abbrev Word := BitVec 16

end Sys2Proof
end

