-- ==== Sys2Proof/Machine/Bits.lean ====
section
/-!
DEFINITION. Bit fields, sign extension and byte order (`00_scope.md` R10, R14).
-/

namespace Sys2Proof.Machine

/-- `v[i]` of a byte (R10). -/
def bitOf (v : Byte) (i : Nat) : Bool := v.getLsbD i

/-- `v[lo+len-1:lo]` of a byte as an unsigned number (R10). -/
def fieldOf (v : Byte) (lo len : Nat) : Nat := v.toNat / 2 ^ lo % 2 ^ len

/-- `v` with bit `i` made `b`. -/
def withBit (v : Byte) (i : Nat) (b : Bool) : Byte :=
  if b then v ||| ((1 : Byte) <<< i) else v &&& ~~~((1 : Byte) <<< i)

/-- The byte displacement as the signed value it stands for, taken to 16 bits (`sext_8`, R10, R129). -/
def sext8 (e : Byte) : Word := e.signExtend 16

/-- The signed value of a byte as an integer (`sext_8`, R10). -/
def sextInt (v : Byte) : Int := v.toInt

/-- `hi:lo` (R10): `hi*256 + lo`. -/
def wordOf (hi lo : Byte) : Word := hi ++ lo

/-- `v[15:8]`. -/
def hiByte (v : Word) : Byte := v.extractLsb' 8 8

/-- `v[7:0]`. -/
def loByte (v : Word) : Byte := v.extractLsb' 0 8

end Sys2Proof.Machine
end

