-- ==== Sys2Proof/Machine/Flags.lean ====
section
/-!
DEFINITION. Every result and flag computation, as functions of bytes (`42_add_sub.md` to
`45_bit_test.md`, `47_ext_alu.md`, `49_ext_cb.md`).

Sums and differences are taken exactly, on natural numbers or integers, and narrowed at the end
(`00_scope.md` R10).
-/

namespace Sys2Proof.Machine

/-- `SetFlags(z, n, h, c)` on the byte F; `none` is the `-` of the rules.  F[3:0] is unchanged
(`00_scope.md` R15). -/
def setFlags (f : Byte) (z n h c : Option Bool) : Byte :=
  let old (i : Nat) (new : Option Bool) (g : Byte) : Byte :=
    match new with
    | none => g
    | some b => withBit g i b
  old 7 z (old 6 n (old 5 h (old 4 c f)))

/-- A byte and the flags that come with it. -/
structure AluResult where
  value : Byte
  z : Bool
  n : Bool
  h : Bool
  c : Bool
  deriving DecidableEq, Repr

/-- F after an operation that writes all four flags. -/
def AluResult.flags (r : AluResult) (f : Byte) : Byte :=
  setFlags f (some r.z) (some r.n) (some r.h) (some r.c)

/-- `Add8` (R190, R191): the carry-in is added to the operand first, unreduced, and the folded
operand is the one the H and C tests see. -/
def add8 (before operand : Byte) (cin : Bool) : AluResult :=
  let operand' := operand.toNat + cin.toNat
  let sum := before.toNat + operand'
  { value := BitVec.ofNat 8 sum
    z := BitVec.ofNat 8 sum == 0
    n := false
    h := decide (before.toNat % 16 + operand' % 16 > 15)
    c := decide (sum > 255) }

/-- `Sub8` (R192, R193): the borrow-in is folded into the operand in the same way. -/
def sub8 (before operand : Byte) (cin : Bool) : AluResult :=
  let operand' := operand.toNat + cin.toNat
  let value := BitVec.ofInt 8 ((before.toNat : Int) - operand')
  { value := value
    z := value == 0
    n := true
    h := decide (before.toNat % 16 < operand' % 16)
    c := decide (before.toNat < operand') }

/-- `Xor8` (R210). -/
def xor8 (before operand : Byte) : AluResult :=
  { value := before ^^^ operand, z := before ^^^ operand == 0, n := false, h := false, c := false }

/-- AND (R251). -/
def and8 (before operand : Byte) : AluResult :=
  { value := before &&& operand, z := before &&& operand == 0, n := false, h := true, c := false }

/-- OR (R254). -/
def or8 (before operand : Byte) : AluResult :=
  { value := before ||| operand, z := before ||| operand == 0, n := false, h := false, c := false }

/-- CP (R257): the flags of `Sub8` without borrow-in; the value is not stored. -/
def cp8 (before operand : Byte) : AluResult := sub8 before operand false

/-- F after `INC` of a byte `v` to `v + 1` (R260): C unchanged. -/
def incFlags (v f : Byte) : Byte :=
  setFlags f (some (v + 1 == 0)) (some false) (some (decide (v.toNat % 16 = 15))) none

/-- F after `DEC` of a byte `v` to `v - 1` (R262): C unchanged. -/
def decFlags (v f : Byte) : Byte :=
  setFlags f (some (v - 1 == 0)) (some true) (some (decide (v.toNat % 16 = 0))) none

/-- F after `ADD HL,rr` (R266): Z unchanged, H the carry out of bit 11, C the carry out of bit 15. -/
def addHlFlags (hl v : Word) (f : Byte) : Byte :=
  setFlags f none (some false) (some (decide (hl.toNat % 4096 + v.toNat % 4096 > 4095)))
    (some (decide (hl.toNat + v.toNat > 65535)))

/-- F after `ADD SP,e` and `LD HL,SP+e` (R267, R239): H and C come from the unsigned addition of the
low bytes, Z and N are cleared. -/
def spOffsetFlags (sp : Word) (e f : Byte) : Byte :=
  setFlags f (some false) (some false) (some (decide (sp.toNat % 16 + e.toNat % 16 > 15)))
    (some (decide (sp.toNat % 256 + e.toNat > 255)))

/-- `DAA` (R268): the adjusted accumulator and F. -/
def daa8 (a f : Byte) : Byte × Byte :=
  let n := bitOf f 6
  let h := bitOf f 5
  let c := bitOf f 4
  let before : Int := a.toNat
  let high := c || (!n && decide (before > 0x99))
  let low := h || (!n && decide (a.toNat % 16 > 9))
  let step : Int := (if high then 0x60 else 0) + (if low then 0x06 else 0)
  let value := BitVec.ofInt 8 (if n then before - step else before + step)
  (value, setFlags f (some (value == 0)) none (some false) (some high))

/-- A shifted or rotated byte and the bit that left it. -/
structure ShiftResult where
  value : Byte
  carry : Bool
  deriving DecidableEq, Repr

/-- F after a prefixed shift or rotate (`49_ext_cb.md` R300, R217): Z from the result. -/
def ShiftResult.flags (r : ShiftResult) (f : Byte) : Byte :=
  setFlags f (some (r.value == 0)) (some false) (some false) (some r.carry)

/-- F after a one-byte accumulator rotate (R216, R272 to R274): Z is cleared. -/
def ShiftResult.flagsA (r : ShiftResult) (f : Byte) : Byte :=
  setFlags f (some false) (some false) (some false) (some r.carry)

/-- `RotR` (R215): the carry enters at bit 7, bit 0 leaves. -/
def rotR (v : Byte) (carry : Bool) : ShiftResult :=
  { value := withBit (v >>> 1) 7 carry, carry := bitOf v 0 }

/-- RL (R305): the carry enters at bit 0, bit 7 leaves. -/
def rotL (v : Byte) (carry : Bool) : ShiftResult :=
  { value := withBit (v <<< 1) 0 carry, carry := bitOf v 7 }

/-- RLC (R301): bit 7 goes to bit 0 and to the carry. -/
def rotLC (v : Byte) : ShiftResult :=
  { value := withBit (v <<< 1) 0 (bitOf v 7), carry := bitOf v 7 }

/-- RRC (R303): bit 0 goes to bit 7 and to the carry. -/
def rotRC (v : Byte) : ShiftResult :=
  { value := withBit (v >>> 1) 7 (bitOf v 0), carry := bitOf v 0 }

/-- SLA (R307). -/
def shiftLA (v : Byte) : ShiftResult := { value := v <<< 1, carry := bitOf v 7 }

/-- SRA (R309): bit 7 is kept. -/
def shiftRA (v : Byte) : ShiftResult :=
  { value := withBit (v >>> 1) 7 (bitOf v 7), carry := bitOf v 0 }

/-- SWAP (R311): the nibbles change places, the carry is cleared. -/
def swap8 (v : Byte) : ShiftResult := { value := (v <<< 4) ||| (v >>> 4), carry := false }

/-- SRL (R313). -/
def shiftRL (v : Byte) : ShiftResult := { value := v >>> 1, carry := bitOf v 0 }

/-- F after `BitTest(b, v)` (R223): Z is the complement of the bit, C is unchanged. -/
def bitTestFlags (v : Byte) (bit : Nat) (f : Byte) : Byte :=
  setFlags f (some (!bitOf v bit)) (some false) (some true) none

end Sys2Proof.Machine
end

