-- ==== Sys2Proof/Config.lean ====
section
/-!
DEFINITION. What is fixed when the machine is constructed, and the one value the spec leaves free.

`00_scope.md` R7 lists ten parameters.  `cartridgeRom` and `bootImage` are the arguments of
`State.construct` (Machine/Boot.lean); `JOYP_CORNER` is the free value `joypCorner` below; the other seven
are the fields of `Params`, with the spec's defaults (that of `CYCLES` is `defaultCycles`,
Machine/Timing.lean).
-/

namespace Sys2Proof.Config

/-- Which opcodes have a handler (R8).  In `base` an opcode of the `ext` families is unsupported. -/
inductive Profile where
  | base
  | ext
  deriving DecidableEq, Repr

/-- One colour of the framebuffer (R373). -/
structure Rgb where
  red   : Byte
  green : Byte
  blue  : Byte
  deriving DecidableEq, Repr

/-- The parameter `RGB`: the colour of each of the four shades (R7, R418). -/
structure Palette where
  shade0 : Rgb := ⟨0xFF, 0xFF, 0xFF⟩
  shade1 : Rgb := ⟨0xCC, 0xCC, 0xCC⟩
  shade2 : Rgb := ⟨0x77, 0x77, 0x77⟩
  shade3 : Rgb := ⟨0x00, 0x00, 0x00⟩
  deriving DecidableEq, Repr

/-- A cost that a handler returns: positive, a multiple of 4 between 4 and 24 (`40_step_and_nop.md` R153). -/
inductive Cost where
  | four
  | eight
  | twelve
  | sixteen
  | twenty
  | twentyFour
  deriving DecidableEq, Repr

/-- The cost in cycles. -/
def Cost.toNat : Cost → Nat
  | .four => 4
  | .eight => 8
  | .twelve => 12
  | .sixteen => 16
  | .twenty => 20
  | .twentyFour => 24

/-- The cost of a register load of the block `0x40` to `0x7F`, whose double is a cost too (R153, R460). -/
inductive BlockCost where
  | four
  | eight
  | twelve
  deriving DecidableEq, Repr

/-- The cost of `LD r,r'` in cycles. -/
def BlockCost.toNat : BlockCost → Nat
  | .four => 4
  | .eight => 8
  | .twelve => 12

/-- The parameter `CYCLES` (R7, D13): the cost of each instruction but the ones the document fixes, which are
`NOP` and the doubling of the (HL) slot in the load block (`70_reset_and_hazards.md` R460, U11).  A field is
named after the constructor of `Instr` whose cost it holds. -/
structure CycleTable where
  /-- `LD r,r'`; a form of the block with the (HL) slot costs double. -/
  loadBlock : BlockCost
  -- NOP and the loads of BASE; the block `0x40` to `0x7F` has one cost (`41_loads.md`)
  (ldRN ldHlN ldABc ldADe ldBcA ldDeA ldANn ldNnA ldRrNn ldNnSp ldSpHl : Cost)
  -- 8-bit add and subtract (`42_add_sub.md`)
  (addR addHl addN adcR adcHl adcN subR subHl subN sbcR sbcHl sbcN : Cost)
  -- Exclusive-or, rotates and the bit test of BASE (`43_xor.md` to `45_bit_test.md`)
  (xorR xorHl xorN rra rrR rrHl bitR bitHl : Cost)
  -- Further loads and the stack (`46_ext_loads_stack.md`)
  (ldHliA ldAHli ldHldA ldAHld ldhNA ldhAN ldCA ldAC ldHlSpE push pop : Cost)
  -- Arithmetic and logic of EXT (`47_ext_alu.md`)
  (andR andHl andN orR orHl orN cpR cpHl cpN incR incHl decR decHl incRr decRr addHlRr : Cost)
  (addSpE daa cpl scf ccf rlca rla rrca : Cost)
  -- Control transfer; a conditional form has a cost when taken and one when not (`48_ext_control.md`)
  (jpNn jpCcNn jpCcNnNotTaken jpHl jrE jrCcE jrCcENotTaken callNn callCcNn callCcNnNotTaken : Cost)
  (ret retCc retCcNotTaken rst di ei reti : Cost)
  -- Prefixed operations of EXT (`49_ext_cb.md`)
  (rlcR rlcHl rrcR rrcHl rlR rlHl slaR slaHl sraR sraHl swapR swapHl srlR srlHl resR resHl : Cost)
  (setR setHl : Cost)
  deriving DecidableEq, Repr

/-- A positive number of cycles (R7, `FRAME_BUDGET`). -/
structure Positive where
  val : Nat
  pos : 0 < val
  deriving DecidableEq, Repr

/-- The parameters of R7 that are plain data, each with the spec's default (`defaultParams`,
Machine/Timing.lean, for `CYCLES`). -/
structure Params where
  /-- `CYCLES` (R460, D13; log entry 6). -/
  cycles : CycleTable
  /-- `ISA_PROFILE` (R8, D1). -/
  profile : Profile := .base
  /-- `IME_RESET` (R56, D17). -/
  imeReset : Bool := false
  /-- `MODE_BIT_ROM_VALUE`, the value of `val & 1` that selects ROM-banking mode (R89, D20). -/
  modeBitRomValue : Bool := false
  /-- `FRAME_BUDGET` (R372, D37). -/
  frameBudget : Positive := ⟨69905, by decide⟩
  /-- `RGB` (R418, D36). -/
  rgb : Palette := {}
  /-- `RENDER_LINE0_ON_WRAP` (R402, D34). -/
  renderLine0OnWrap : Bool := false
  deriving DecidableEq, Repr

/-- `JOYP_CORNER` (R7, R365, U4): what a read of 0xFF00 gives when both or neither key group is
selected, as a function of the stored select byte and of `joypadState`, which is its type in R7.  A free
value: it has no body, so nothing can be proved that depends on it (log entry 3). -/
opaque joypCorner (sel joypadState : Byte) : Byte

end Sys2Proof.Config
end

