-- ==== Sys2Proof/Syntax.lean ====
section
/-!
DEFINITION. The instructions of gbemu CORE: one constructor per row of `opcode_table.json`
(36 rows of profile BASE, 66 of profile EXT; `30_encoding.md` R130 to R133).

An operand that is a register, a pair or a condition is a constructor, so slot 6 of a register field,
the memory byte at HL, is never a register operand: every `(HL)` form is a constructor of its own,
as it is a row of its own in the table.
-/

namespace Sys2Proof

/-- The seven registers a 3-bit register field selects (R123); F is not encodable. -/
inductive Reg8 where
  | b | c | d | e | h | l | a
  deriving DecidableEq, Repr

/-- The 16-bit registers of a 2-bit pair field in loads and 16-bit arithmetic (R124). -/
inductive RegPair where
  | bc | de | hl | sp
  deriving DecidableEq, Repr

/-- The pairs of a 2-bit pair field in `PUSH` and `POP` (R124). -/
inductive StackPair where
  | bc | de | hl | af
  deriving DecidableEq, Repr

/-- The conditions of a 2-bit condition field (R125). -/
inductive Cond where
  | nz | z | nc | c
  deriving DecidableEq, Repr

/-- Every instruction.  `dst` and `src` are registers, `n` an 8-bit immediate,
`nn` a 16-bit immediate, `e` a displacement byte (signed when it is used, R129), `bit` a bit number
and `t` a restart number (both 0 to 7, R126; checked by `WellFormed`). -/
inductive Instr where
  -- NOP and loads, BASE (`40_step_and_nop.md`, `41_loads.md`)
  | nop
  | ldRR (dst src : Reg8)
  | ldRHl (dst : Reg8)
  | ldHlR (src : Reg8)
  | ldHlHl
  | ldRN (dst : Reg8) (n : Byte)
  | ldHlN (n : Byte)
  | ldABc
  | ldADe
  | ldBcA
  | ldDeA
  | ldANn (nn : Word)
  | ldNnA (nn : Word)
  | ldRrNn (p : RegPair) (nn : Word)
  | ldNnSp (nn : Word)
  | ldSpHl
  -- 8-bit add and subtract, BASE (`42_add_sub.md`)
  | addR (src : Reg8)
  | addHl
  | addN (n : Byte)
  | adcR (src : Reg8)
  | adcHl
  | adcN (n : Byte)
  | subR (src : Reg8)
  | subHl
  | subN (n : Byte)
  | sbcR (src : Reg8)
  | sbcHl
  | sbcN (n : Byte)
  -- exclusive-or, rotate right through carry, bit test, BASE (`43_xor.md` to `45_bit_test.md`)
  | xorR (src : Reg8)
  | xorHl
  | xorN (n : Byte)
  | rra
  | rrR (src : Reg8)
  | rrHl
  | bitR (bit : Nat) (src : Reg8)
  | bitHl (bit : Nat)
  -- further loads and the stack, EXT (`46_ext_loads_stack.md`)
  | ldHliA
  | ldAHli
  | ldHldA
  | ldAHld
  | ldhNA (n : Byte)
  | ldhAN (n : Byte)
  | ldCA
  | ldAC
  | ldHlSpE (e : Byte)
  | push (q : StackPair)
  | pop (q : StackPair)
  -- further arithmetic and logic, EXT (`47_ext_alu.md`)
  | andR (src : Reg8)
  | andHl
  | andN (n : Byte)
  | orR (src : Reg8)
  | orHl
  | orN (n : Byte)
  | cpR (src : Reg8)
  | cpHl
  | cpN (n : Byte)
  | incR (dst : Reg8)
  | incHl
  | decR (dst : Reg8)
  | decHl
  | incRr (p : RegPair)
  | decRr (p : RegPair)
  | addHlRr (p : RegPair)
  | addSpE (e : Byte)
  | daa
  | cpl
  | scf
  | ccf
  | rlca
  | rla
  | rrca
  -- control transfer and interrupt enable, EXT (`48_ext_control.md`)
  | jpNn (nn : Word)
  | jpCcNn (cc : Cond) (nn : Word)
  | jpHl
  | jrE (e : Byte)
  | jrCcE (cc : Cond) (e : Byte)
  | callNn (nn : Word)
  | callCcNn (cc : Cond) (nn : Word)
  | ret
  | retCc (cc : Cond)
  | rst (t : Nat)
  | di
  | ei
  | reti
  -- further prefixed operations, EXT (`49_ext_cb.md`)
  | rlcR (src : Reg8)
  | rlcHl
  | rrcR (src : Reg8)
  | rrcHl
  | rlR (src : Reg8)
  | rlHl
  | slaR (src : Reg8)
  | slaHl
  | sraR (src : Reg8)
  | sraHl
  | swapR (src : Reg8)
  | swapHl
  | srlR (src : Reg8)
  | srlHl
  | resR (bit : Nat) (src : Reg8)
  | resHl (bit : Nat)
  | setR (bit : Nat) (src : Reg8)
  | setHl (bit : Nat)
  deriving DecidableEq, Repr

end Sys2Proof
end

