-- ==== Sys2Proof/Machine/Timing.lean ====
section
/-!
DEFINITION. The parameter `CYCLES`: the cost of each instruction from a table, and the spec's default table
(`70_reset_and_hazards.md` R460; log entry 6).
-/

namespace Sys2Proof.Machine

/-- The default of `CYCLES`: the table of `70_reset_and_hazards.md` R460. -/
def defaultCycles : Config.CycleTable where
  loadBlock := .four
  ldRN := .eight
  ldHlN := .twelve
  ldABc := .eight
  ldADe := .eight
  ldBcA := .eight
  ldDeA := .eight
  ldANn := .sixteen
  ldNnA := .sixteen
  ldRrNn := .twelve
  ldNnSp := .twenty
  ldSpHl := .eight
  addR := .four
  addHl := .eight
  addN := .eight
  adcR := .four
  adcHl := .eight
  adcN := .eight
  subR := .four
  subHl := .eight
  subN := .eight
  sbcR := .four
  sbcHl := .eight
  sbcN := .eight
  xorR := .four
  xorHl := .eight
  xorN := .eight
  rra := .four
  rrR := .eight
  rrHl := .sixteen
  bitR := .eight
  bitHl := .twelve
  ldHliA := .eight
  ldAHli := .eight
  ldHldA := .eight
  ldAHld := .eight
  ldhNA := .twelve
  ldhAN := .twelve
  ldCA := .eight
  ldAC := .eight
  ldHlSpE := .twelve
  push := .sixteen
  pop := .twelve
  andR := .four
  andHl := .eight
  andN := .eight
  orR := .four
  orHl := .eight
  orN := .eight
  cpR := .four
  cpHl := .eight
  cpN := .eight
  incR := .four
  incHl := .twelve
  decR := .four
  decHl := .twelve
  incRr := .eight
  decRr := .eight
  addHlRr := .eight
  addSpE := .sixteen
  daa := .four
  cpl := .four
  scf := .four
  ccf := .four
  rlca := .four
  rla := .four
  rrca := .four
  jpNn := .sixteen
  jpCcNn := .sixteen
  jpCcNnNotTaken := .twelve
  jpHl := .four
  jrE := .twelve
  jrCcE := .twelve
  jrCcENotTaken := .eight
  callNn := .twentyFour
  callCcNn := .twentyFour
  callCcNnNotTaken := .twelve
  ret := .sixteen
  retCc := .twenty
  retCcNotTaken := .eight
  rst := .sixteen
  di := .four
  ei := .four
  reti := .sixteen
  rlcR := .eight
  rlcHl := .sixteen
  rrcR := .eight
  rrcHl := .sixteen
  rlR := .eight
  rlHl := .sixteen
  slaR := .eight
  slaHl := .sixteen
  sraR := .eight
  sraHl := .sixteen
  swapR := .eight
  swapHl := .sixteen
  srlR := .eight
  srlHl := .sixteen
  resR := .eight
  resHl := .sixteen
  setR := .eight
  setHl := .sixteen

/-- The default of every parameter (`00_scope.md` R7). -/
def defaultParams : Config.Params where
  cycles := defaultCycles

/-- `Cycles(instr)` (`00_scope.md` R16); for a conditional instruction the cost when it is taken.  `NOP`
costs 4 and the (HL) slot of the load block double, which the document fixes (R460). -/
def cycles (t : Config.CycleTable) : Instr → Nat
  | .nop => 4
  | .ldRR _ _ => t.loadBlock.toNat
  | .ldRHl _ | .ldHlR _ | .ldHlHl => 2 * t.loadBlock.toNat
  | .ldRN _ _ => t.ldRN.toNat
  | .ldHlN _ => t.ldHlN.toNat
  | .ldABc => t.ldABc.toNat
  | .ldADe => t.ldADe.toNat
  | .ldBcA => t.ldBcA.toNat
  | .ldDeA => t.ldDeA.toNat
  | .ldANn _ => t.ldANn.toNat
  | .ldNnA _ => t.ldNnA.toNat
  | .ldRrNn _ _ => t.ldRrNn.toNat
  | .ldNnSp _ => t.ldNnSp.toNat
  | .ldSpHl => t.ldSpHl.toNat
  | .addR _ => t.addR.toNat
  | .addHl => t.addHl.toNat
  | .addN _ => t.addN.toNat
  | .adcR _ => t.adcR.toNat
  | .adcHl => t.adcHl.toNat
  | .adcN _ => t.adcN.toNat
  | .subR _ => t.subR.toNat
  | .subHl => t.subHl.toNat
  | .subN _ => t.subN.toNat
  | .sbcR _ => t.sbcR.toNat
  | .sbcHl => t.sbcHl.toNat
  | .sbcN _ => t.sbcN.toNat
  | .xorR _ => t.xorR.toNat
  | .xorHl => t.xorHl.toNat
  | .xorN _ => t.xorN.toNat
  | .rra => t.rra.toNat
  | .rrR _ => t.rrR.toNat
  | .rrHl => t.rrHl.toNat
  | .bitR _ _ => t.bitR.toNat
  | .bitHl _ => t.bitHl.toNat
  | .ldHliA => t.ldHliA.toNat
  | .ldAHli => t.ldAHli.toNat
  | .ldHldA => t.ldHldA.toNat
  | .ldAHld => t.ldAHld.toNat
  | .ldhNA _ => t.ldhNA.toNat
  | .ldhAN _ => t.ldhAN.toNat
  | .ldCA => t.ldCA.toNat
  | .ldAC => t.ldAC.toNat
  | .ldHlSpE _ => t.ldHlSpE.toNat
  | .push _ => t.push.toNat
  | .pop _ => t.pop.toNat
  | .andR _ => t.andR.toNat
  | .andHl => t.andHl.toNat
  | .andN _ => t.andN.toNat
  | .orR _ => t.orR.toNat
  | .orHl => t.orHl.toNat
  | .orN _ => t.orN.toNat
  | .cpR _ => t.cpR.toNat
  | .cpHl => t.cpHl.toNat
  | .cpN _ => t.cpN.toNat
  | .incR _ => t.incR.toNat
  | .incHl => t.incHl.toNat
  | .decR _ => t.decR.toNat
  | .decHl => t.decHl.toNat
  | .incRr _ => t.incRr.toNat
  | .decRr _ => t.decRr.toNat
  | .addHlRr _ => t.addHlRr.toNat
  | .addSpE _ => t.addSpE.toNat
  | .daa => t.daa.toNat
  | .cpl => t.cpl.toNat
  | .scf => t.scf.toNat
  | .ccf => t.ccf.toNat
  | .rlca => t.rlca.toNat
  | .rla => t.rla.toNat
  | .rrca => t.rrca.toNat
  | .jpNn _ => t.jpNn.toNat
  | .jpCcNn _ _ => t.jpCcNn.toNat
  | .jpHl => t.jpHl.toNat
  | .jrE _ => t.jrE.toNat
  | .jrCcE _ _ => t.jrCcE.toNat
  | .callNn _ => t.callNn.toNat
  | .callCcNn _ _ => t.callCcNn.toNat
  | .ret => t.ret.toNat
  | .retCc _ => t.retCc.toNat
  | .rst _ => t.rst.toNat
  | .di => t.di.toNat
  | .ei => t.ei.toNat
  | .reti => t.reti.toNat
  | .rlcR _ => t.rlcR.toNat
  | .rlcHl => t.rlcHl.toNat
  | .rrcR _ => t.rrcR.toNat
  | .rrcHl => t.rrcHl.toNat
  | .rlR _ => t.rlR.toNat
  | .rlHl => t.rlHl.toNat
  | .slaR _ => t.slaR.toNat
  | .slaHl => t.slaHl.toNat
  | .sraR _ => t.sraR.toNat
  | .sraHl => t.sraHl.toNat
  | .swapR _ => t.swapR.toNat
  | .swapHl => t.swapHl.toNat
  | .srlR _ => t.srlR.toNat
  | .srlHl => t.srlHl.toNat
  | .resR _ _ => t.resR.toNat
  | .resHl _ => t.resHl.toNat
  | .setR _ _ => t.setR.toNat
  | .setHl _ => t.setHl.toNat

/-- The cost of a conditional instruction whose condition fails (R282, R285, R287, R289); of any
other instruction its cost. -/
def cyclesNotTaken (t : Config.CycleTable) : Instr → Nat
  | .jpCcNn _ _ => t.jpCcNnNotTaken.toNat
  | .jrCcE _ _ => t.jrCcENotTaken.toNat
  | .callCcNn _ _ => t.callCcNnNotTaken.toNat
  | .retCc _ => t.retCcNotTaken.toNat
  | i => cycles t i

end Sys2Proof.Machine
end

