-- ==== Sys2Proof/Machine/State.lean ====
section
/-!
DEFINITION. The state of gbemu CORE: the register file (`10_state.md` R20), the state the
AddressSpace owns (R34), the master enable with its one-instruction delay (R37), the fault latch
(R39), the construction parameters (`00_scope.md` R7), and three fields of the model's own
(`armed`, `lastCost` and `params`; log entries 1, 5 and 13).  All of it is plain data.
-/

namespace Sys2Proof.Machine

/-- Bytes by address, addresses strictly rising, no entry equal to what an unlisted address of that
memory reads as (`Memory.wf` in Machine/Memory.lean). -/
abbrev Memory := List Host.Cell

/-- The register file: eight 8-bit registers and two 16-bit pointers (R20).  AF, BC, DE and HL are
views over it (R21), in Machine/Operands.lean. -/
structure Registers where
  a  : Byte
  f  : Byte
  b  : Byte
  c  : Byte
  d  : Byte
  e  : Byte
  h  : Byte
  l  : Byte
  sp : Word
  pc : Word
  deriving DecidableEq, Repr

/-- The cartridge image: a byte sequence of the given length; an unlisted byte of it is 0x00. -/
structure Image where
  length : Nat
  cells  : Memory
  deriving DecidableEq, Repr

/-- The kind of bank controller (R34, `20_memory.md` R80). -/
inductive BankingMode where
  | none
  | mbc1
  | mbc2
  deriving DecidableEq, Repr

/-- The two fatal conditions (R39, `60_exceptions.md` R330, R332). -/
inductive FaultCause where
  /-- No handler in the active profile: the opcode byte, or `0xCB00 | op2` (R330). -/
  | unsupportedOpcode (code : Word)
  /-- A read of the switchable ROM window beyond the image (R332). -/
  | romIndexOutOfRange (index : Nat)
  deriving DecidableEq, Repr

/-- The machine. -/
structure State where
  /-- The register file (R20). -/
  regs : Registers
  /-- `interruptMasterEnable` (R37). -/
  ime : Bool
  /-- The delayed enable that EXT `EI` sets (R37, `48_ext_control.md` R295). -/
  eiPending : Bool
  /-- The latch `armed` of the running step (`40_step_and_nop.md` R150); false between steps. -/
  armed : Bool
  /-- The 65536-byte array (R34): I/O registers, video RAM, work RAM, OAM, high RAM, the copy of the
  image; an unlisted cell reads as `flatInitial` (Machine/Memory.lean). -/
  flat : Memory
  /-- The cartridge image, immutable (R34). -/
  cartridgeRom : Image
  /-- Kind of bank controller, constant after construction (R35). -/
  bankingMode : BankingMode
  /-- External cartridge RAM, 0x8000 bytes (R34); an unlisted cell reads as 0x00. -/
  ramBanks : Memory
  /-- ROM bank mapped at 0x4000, never 0 in a reachable state (R35). -/
  currentRomBank : Byte
  /-- RAM bank mapped at 0xA000, 0 to 3 in a reachable state (R35). -/
  currentRamBank : Byte
  /-- Gates writes to external RAM (R34). -/
  ramEnabled : Bool
  /-- MBC1 mode bit (R34). -/
  romBankingSelect : Bool
  /-- The framebuffer `screen[x][y][c]` at index `(x*144 + y)*3 + c` (`61_ppu.md` R425). -/
  screen : Memory
  /-- Cycles accumulated toward the next DIV increment (R36). -/
  dividerCounter : Int
  /-- Cycles left to the next TIMA increment (R36). -/
  timerCounter : Int
  /-- Cycles left in the current line (R36). -/
  scanlineCounter : Int
  /-- One bit per key, 0 = pressed (R38). -/
  joypadState : Byte
  /-- The fault latch (R39). -/
  fault : Option FaultCause
  /-- The cycle cost that the last executed instruction returned (R153): what `Step` returns. -/
  lastCost : Nat
  /-- The parameters the machine was constructed with (`00_scope.md` R7); no step changes them. -/
  params : Config.Params
  deriving DecidableEq, Repr

/-- How a step stops.  Both are the spec's own fatal conditions; each carries its information and the
state at the stop with the latch set (R331), so that nothing the step had already done is lost.
Both are safe: the model stops where the spec says that the machine stops. -/
inductive Fault where
  /-- Raised by the decode of a step when no handler exists in the active profile
  (`60_exceptions.md` R330, `40_step_and_nop.md` R154), and again by every later step (R331).  Safe. -/
  | unsupportedOpcode (code : Word) (stopped : State)
  /-- Raised by a fetch, a data read or a DMA source read in 0x4000 to 0x7FFF whose image index is not
  below the image's length (`20_memory.md` R93, R332), and again by every later step.  Safe. -/
  | romIndexOutOfRange (index : Nat) (stopped : State)
  deriving DecidableEq, Repr

/-- What the model gives no result for. -/
inductive Refusal where
  /-- Raised by an arm of `exec` whose instruction has no meaning yet; no arm does.  Safe. -/
  | notModelled (mnemonic : String)
  /-- Raised by the host calls `keyPressed` and `keyReleased` for a key above 7, which is outside the
  interface (`60_exceptions.md` R368, U5).  Safe. -/
  | keyOutOfRange (key : Nat)
  deriving DecidableEq, Repr

/-- The register file at power-on without a bootstrap image (R53). -/
def Registers.powerOn : Registers where
  a := 0x01
  f := 0xB0
  b := 0x00
  c := 0x13
  d := 0x00
  e := 0xD8
  h := 0x01
  l := 0x4D
  sp := 0xFFFE
  pc := 0x0100

/-- The image `State.reset` is constructed with: 32 KiB of 0x00, which holds no program
(`70_reset_and_hazards.md` R444; log entry 2). -/
def Image.blank : Image where
  length := 0x8000
  cells := []

/-- The machine right after power-on (R53 to R57, R59, R440), constructed with the blank image, no
bootstrap image and the default parameters.  `State.construct` (Machine/Boot.lean) gives the same
for any image, bootstrap image and parameters. -/
def State.reset : State where
  regs := Registers.powerOn
  ime := false
  eiPending := false
  armed := false
  flat := []
  cartridgeRom := Image.blank
  bankingMode := .none
  ramBanks := []
  currentRomBank := 1
  currentRamBank := 0
  ramEnabled := false
  romBankingSelect := true
  screen := []
  dividerCounter := 0
  timerCounter := 1024
  scanlineCounter := 456
  joypadState := 0xFF
  fault := Option.none
  lastCost := 0
  params := defaultParams

end Sys2Proof.Machine
end

