-- ==== Sys2Proof/Machine/Memory.lean ====
section
/-!
DEFINITION. Memories as canonical lists of cells, and what an unlisted cell of each reads as.

A memory is read and written with the function `initial` that gives the contents of its unlisted
cells.  A write keeps the list strictly rising and drops a cell that becomes equal to its initial
value, so equal memories are equal lists (`Memory.wf`; Sys2Proof/Laws/Memory.lean).  That a read gives
the last value written holds of any list, canonical or not.
-/

namespace Sys2Proof.Machine

/-- The byte at address `k`. -/
def Memory.read (initial : Nat → Byte) : Memory → Nat → Byte
  | [], k => initial k
  | (a, v) :: rest, k => if k = a then v else Memory.read initial rest k

/-- The memory without a cell at address `k`. -/
def Memory.erase (m : Memory) (k : Nat) : Memory := m.filter fun c => decide (c.1 ≠ k)

/-- The memory with the byte at address `k` made `x`. -/
def Memory.write (initial : Nat → Byte) : Memory → Nat → Byte → Memory
  | [], k, x => if x = initial k then [] else [(k, x)]
  | (a, v) :: rest, k, x =>
    if a < k then (a, v) :: Memory.write initial rest k x
    else
      let others := Memory.erase ((a, v) :: rest) k
      if x = initial k then others else (k, x) :: others

/-- Every cell of the memory lies at `low` or above, addresses strictly rise, and no cell equals its
initial value. -/
def Memory.wfFrom (initial : Nat → Byte) : Nat → Memory → Bool
  | _, [] => true
  | low, (a, v) :: rest => decide (low ≤ a) && decide (v ≠ initial a) && Memory.wfFrom initial (a + 1) rest

/-- The canonical form of a memory. -/
def Memory.wf (initial : Nat → Byte) (m : Memory) : Bool := Memory.wfFrom initial 0 m

/-- Every cell of the memory lies below `size`. -/
def Memory.below (size : Nat) (m : Memory) : Bool := m.all fun c => decide (c.1 < size)

/-- A byte that starts as 0x00: `ramBanks`, `screen` and the cartridge image (`10_state.md` R57). -/
def zeroInitial (_ : Nat) : Byte := 0x00

/-- A byte of `flat` that starts as 0x00 or as the power-on value of a peripheral register
(`10_state.md` R55, R57; log entries 7 and 8). -/
def flatInitial (a : Nat) : Byte :=
  match a with
  | 0xFF10 => 0x80
  | 0xFF11 => 0xBF
  | 0xFF12 => 0xF3
  | 0xFF14 => 0xBF
  | 0xFF16 => 0x3F
  | 0xFF19 => 0xBF
  | 0xFF1A => 0x7F
  | 0xFF1B => 0xFF
  | 0xFF1C => 0x9F
  | 0xFF1E => 0xBF
  | 0xFF20 => 0xFF
  | 0xFF23 => 0xBF
  | 0xFF24 => 0x77
  | 0xFF25 => 0xF3
  | 0xFF26 => 0xF1
  | 0xFF40 => 0x91
  | 0xFF47 => 0xFC
  | 0xFF48 => 0xFF
  | 0xFF49 => 0xFF
  | _ => 0x00

/-- Number of bytes of `flat` (R34). -/
def flatSize : Nat := 0x10000

/-- Number of bytes of `ramBanks` (R34). -/
def ramSize : Nat := 0x8000

/-- Number of bytes of `screen`: 160 columns of 144 pixels of 3 bytes (R34). -/
def screenSize : Nat := 160 * 144 * 3

/-- `flat[a]` by direct access (`00_scope.md` R12). -/
def State.flatAt (s : State) (a : Nat) : Byte := s.flat.read flatInitial a

/-- `flat[a] <- v` by direct access (`00_scope.md` R12). -/
def State.setFlat (s : State) (a : Nat) (v : Byte) : State :=
  { s with flat := s.flat.write flatInitial a v }

/-- `ramBanks[i]`. -/
def State.ramAt (s : State) (i : Nat) : Byte := s.ramBanks.read zeroInitial i

/-- `ramBanks[i] <- v`. -/
def State.setRam (s : State) (i : Nat) (v : Byte) : State :=
  { s with ramBanks := s.ramBanks.write zeroInitial i v }

/-- Byte `i` of the image. -/
def Image.byteAt (img : Image) (i : Nat) : Byte := img.cells.read zeroInitial i

/-- `screen[x][y][c]` (`61_ppu.md` R425). -/
def State.screenAt (s : State) (x y c : Nat) : Byte :=
  s.screen.read zeroInitial ((x * 144 + y) * 3 + c)

/-- `screen[x][y] <- rgb` (`61_ppu.md` R418, R425), on the framebuffer alone. -/
def drawPixel (m : Memory) (x y : Nat) (rgb : Config.Rgb) : Memory :=
  let k := (x * 144 + y) * 3
  let red := m.write zeroInitial k rgb.red
  let green := red.write zeroInitial (k + 1) rgb.green
  green.write zeroInitial (k + 2) rgb.blue

end Sys2Proof.Machine
end

