-- ==== Sys2Proof/Machine/Operands.lean ====
section
/-!
DEFINITION. The operand forms: registers, pair views, conditions (`10_state.md` R20 to R30,
`30_encoding.md` R123 to R125).  The memory operands are in Machine/Ops.lean.
-/

namespace Sys2Proof.Machine

/-- The 8-bit register a register field selects, `x[i]` (R123, `00_scope.md` R11). -/
def Registers.get (r : Registers) : Reg8 → Byte
  | .b => r.b
  | .c => r.c
  | .d => r.d
  | .e => r.e
  | .h => r.h
  | .l => r.l
  | .a => r.a

/-- `x[i] <- v`. -/
def Registers.set (r : Registers) : Reg8 → Byte → Registers
  | .b, v => { r with b := v }
  | .c, v => { r with c := v }
  | .d, v => { r with d := v }
  | .e, v => { r with e := v }
  | .h, v => { r with h := v }
  | .l, v => { r with l := v }
  | .a, v => { r with a := v }

/-- The composite views (R21): `high*256 + low`. -/
def Registers.bc (r : Registers) : Word := wordOf r.b r.c
/-- See `Registers.bc`. -/
def Registers.de (r : Registers) : Word := wordOf r.d r.e
/-- See `Registers.bc`. -/
def Registers.hl (r : Registers) : Word := wordOf r.h r.l
/-- See `Registers.bc`; all eight bits of F take part (R25). -/
def Registers.af (r : Registers) : Word := wordOf r.a r.f

/-- The 16-bit register a pair field selects, `xx[i]` (R124, `00_scope.md` R11). -/
def Registers.getPair (r : Registers) : RegPair → Word
  | .bc => r.bc
  | .de => r.de
  | .hl => r.hl
  | .sp => r.sp

/-- `xx[i] <- v`: the high byte to the first-named register (R21). -/
def Registers.setPair (r : Registers) : RegPair → Word → Registers
  | .bc, v => { r with b := hiByte v, c := loByte v }
  | .de, v => { r with d := hiByte v, e := loByte v }
  | .hl, v => { r with h := hiByte v, l := loByte v }
  | .sp, v => { r with sp := v }

/-- The pair a `PUSH` or `POP` names (R124). -/
def Registers.getStackPair (r : Registers) : StackPair → Word
  | .bc => r.bc
  | .de => r.de
  | .hl => r.hl
  | .af => r.af

/-- Write of the pair a `POP` names; AF takes all eight bits of F (`46_ext_loads_stack.md` R241). -/
def Registers.setStackPair (r : Registers) : StackPair → Word → Registers
  | .bc, v => { r with b := hiByte v, c := loByte v }
  | .de, v => { r with d := hiByte v, e := loByte v }
  | .hl, v => { r with h := hiByte v, l := loByte v }
  | .af, v => { r with a := hiByte v, f := loByte v }

/-- `F.Z` (R30). -/
def Registers.flagZ (r : Registers) : Bool := bitOf r.f 7
/-- `F.N` (R30). -/
def Registers.flagN (r : Registers) : Bool := bitOf r.f 6
/-- `F.H` (R30). -/
def Registers.flagH (r : Registers) : Bool := bitOf r.f 5
/-- `F.C` (R30). -/
def Registers.flagC (r : Registers) : Bool := bitOf r.f 4

/-- Whether a condition holds (R125, `48_ext_control.md` R280). -/
def Registers.holds (r : Registers) : Cond → Bool
  | .nz => !r.flagZ
  | .z => r.flagZ
  | .nc => !r.flagC
  | .c => r.flagC

/-- The register selected by a register field. -/
def State.reg (s : State) (r : Reg8) : Byte := s.regs.get r

/-- Write of the register selected by a register field. -/
def State.setReg (s : State) (r : Reg8) (v : Byte) : State := { s with regs := s.regs.set r v }

/-- The 16-bit register selected by a pair field. -/
def State.pair (s : State) (p : RegPair) : Word := s.regs.getPair p

/-- Write of the 16-bit register selected by a pair field. -/
def State.setPair (s : State) (p : RegPair) (v : Word) : State :=
  { s with regs := s.regs.setPair p v }

/-- Write of the pair a `POP` names. -/
def State.setStackPair (s : State) (q : StackPair) (v : Word) : State :=
  { s with regs := s.regs.setStackPair q v }

/-- `A`. -/
def State.a (s : State) : Byte := s.regs.a

/-- `HL`. -/
def State.hl (s : State) : Word := s.regs.hl

/-- `A <- v`. -/
def State.setA (s : State) (v : Byte) : State := { s with regs := { s.regs with a := v } }

/-- `F <- v`. -/
def State.setF (s : State) (v : Byte) : State := { s with regs := { s.regs with f := v } }

/-- `HL <- v`. -/
def State.setHl (s : State) (v : Word) : State := s.setPair .hl v

/-- `SP <- v`. -/
def State.setSp (s : State) (v : Word) : State := { s with regs := { s.regs with sp := v } }

/-- `PC <- v`. -/
def State.setPc (s : State) (v : Word) : State := { s with regs := { s.regs with pc := v } }

end Sys2Proof.Machine
end

