-- ==== Sys2Proof/Machine/Ops.lean ====
section
/-!
DEFINITION. The shared operations: stopping with a fault, the read path, the write path with the
bank controller and the DMA copy, the stack, interrupt requests, interrupt entry and the return from
an interrupt (`20_memory.md`, `60_exceptions.md`).
-/

namespace Sys2Proof.Machine

/-- What an operation or a step answers. -/
abbrev Out := Host.Outcome State Fault Refusal

/-- Goes on with the state an operation answered; a stop stays a stop. -/
def andThen (o : Out) (k : State → Out) : Out :=
  match o with
  | .next s => k s
  | .fault r => .fault r
  | .refused r => .refused r

/-! ### Faults -/

/-- The fault of a cause in a state: the latch is set, everything else stays as it stands (R331). -/
def faultOf (cause : FaultCause) (s : State) : Fault :=
  match cause with
  | .unsupportedOpcode code => .unsupportedOpcode code { s with fault := some cause }
  | .romIndexOutOfRange index => .romIndexOutOfRange index { s with fault := some cause }

/-- `raise` (`00_scope.md` R13). -/
def raise (cause : FaultCause) (s : State) : Out := .fault (faultOf cause s)

/-! ### The read path -/

/-- The image index of an address in the switchable ROM window (R65). -/
def romIndex (s : State) (a : Word) : Nat := a.toNat - 0x4000 + s.currentRomBank.toNat * 0x4000

/-- The index in `ramBanks` of an address in the external RAM window (R66). -/
def ramIndex (s : State) (a : Word) : Nat := a.toNat - 0xA000 + s.currentRamBank.toNat * 0x2000

/-- `JoypRead` (R364, R365): the inverted select byte and-ed with the selected keys in the low nibble.
With both or neither group selected the value is free (log entry 3). -/
def joypRead (s : State) : Byte :=
  let sel := s.flatAt 0xFF00
  let inv := ~~~sel
  let dirSelected := !bitOf sel 4
  let btnSelected := !bitOf sel 5
  if dirSelected && !btnSelected then inv &&& ((s.joypadState &&& 0x0F) ||| 0xF0)
  else if btnSelected && !dirSelected then inv &&& ((s.joypadState >>> 4) ||| 0xF0)
  else Config.joypCorner sel s.joypadState

/-- `Read8` (R64): the byte at an address, or the image index that lies beyond the image (R93). -/
def read8 (s : State) (a : Word) : Except Nat Byte :=
  if 0x4000 ≤ a.toNat ∧ a.toNat ≤ 0x7FFF then
    if romIndex s a < s.cartridgeRom.length then .ok (s.cartridgeRom.byteAt (romIndex s a))
    else .error (romIndex s a)
  else if 0xA000 ≤ a.toNat ∧ a.toNat ≤ 0xBFFF then .ok (s.ramAt (ramIndex s a))
  else if a.toNat = 0xFF00 then .ok (joypRead s)
  else .ok (s.flatAt a.toNat)

/-- `MemRead(a, 1)`, then the rest with the byte read; a read beyond the image is the fault
`RomIndexOutOfRange` in the state as it stands (R93, R331). -/
def withByte (s : State) (a : Word) (k : Byte → Out) : Out :=
  match read8 s a with
  | .ok v => k v
  | .error index => raise (.romIndexOutOfRange index) s

/-! ### The write path -/

/-- A bank number after the coercion of 0 to 1 (R87). -/
def coerceBank (bank : Byte) : Byte := if bank = 0 then 1 else bank

/-- `BankWrite` (R91, R81 to R90): the effect of a write below 0x8000. -/
def bankWrite (s : State) (a : Word) (v : Byte) : State :=
  match s.bankingMode with
  | .none => s
  | .mbc1 =>
    if a.toNat < 0x2000 then
      if v &&& 0x0F = 0x0A then { s with ramEnabled := true }
      else if v &&& 0x0F = 0x00 then { s with ramEnabled := false }
      else s
    else if a.toNat < 0x4000 then
      { s with currentRomBank := coerceBank ((s.currentRomBank &&& 0xE0) ||| (v &&& 0x1F)) }
    else if a.toNat < 0x6000 then
      if s.romBankingSelect then
        { s with currentRomBank := coerceBank ((s.currentRomBank &&& 0x1F) ||| (v &&& 0xE0)) }
      else { s with currentRamBank := v &&& 0x03 }
    else
      if bitOf v 0 = s.params.modeBitRomValue then
        { s with romBankingSelect := true, currentRamBank := 0 }
      else { s with romBankingSelect := false }
  | .mbc2 =>
    if a.toNat < 0x2000 then
      if a &&& 0x0010 ≠ 0 then s
      else if v &&& 0x0F = 0x0A then { s with ramEnabled := true }
      else if v &&& 0x0F = 0x00 then { s with ramEnabled := false }
      else s
    else if a.toNat < 0x4000 then { s with currentRomBank := coerceBank (v &&& 0x0F) }
    else s

/-- `Period(f)` (R357), for the frequency field of a TAC byte. -/
def timerPeriod (tac : Byte) : Int :=
  match fieldOf tac 0 2 with
  | 0 => 1024
  | 1 => 16
  | 2 => 64
  | _ => 256

/-- `TacWrite` (R74): the counter is reloaded when the frequency field changed. -/
def tacWrite (s : State) (v : Byte) : State :=
  let old := fieldOf (s.flatAt 0xFF07) 0 2
  let s' := s.setFlat 0xFF07 v
  if fieldOf v 0 2 = old then s' else { s' with timerCounter := timerPeriod v }

/-- `Write8` of every address but 0xFF46 (R70 to R77, R79): these writes cannot fault.  The restricted range
ends at 0xFEFE and 0xFEFF stores, as R70, R73 and R79 say, against U16 of
`93_implementation_defined.md` (log entry 23). -/
def storeByte (s : State) (a : Word) (v : Byte) : State :=
  if a.toNat < 0x8000 then bankWrite s a v
  else if 0xE000 ≤ a.toNat ∧ a.toNat ≤ 0xFDFF then
    (s.setFlat a.toNat v).setFlat (a.toNat - 0x2000) v
  else if 0xFEA0 ≤ a.toNat ∧ a.toNat ≤ 0xFEFE then s
  else if a.toNat = 0xFF07 then tacWrite s v
  else if a.toNat = 0xFF04 then s.setFlat 0xFF04 0
  else if 0xA000 ≤ a.toNat ∧ a.toNat ≤ 0xBFFF then
    if s.ramEnabled then s.setRam (ramIndex s a) v else s
  else if a.toNat = 0xFF44 then s.setFlat 0xFF44 0
  else s.setFlat a.toNat v

/-- The rest of a DMA copy, `n` bytes from offset `i` on (R96). -/
def dmaFrom (page : Byte) : (n i : Nat) → State → Out
  | 0, _, s => .next s
  | n + 1, i, s =>
    withByte s (BitVec.ofNat 16 (page.toNat * 256 + i)) fun v =>
      dmaFrom page n (i + 1) (storeByte s (BitVec.ofNat 16 (0xFE00 + i)) v)

/-- `DmaTransfer` (R96, R97): 0xA0 bytes, ascending; a source byte beyond the image stops it with the
bytes before it copied (R455). -/
def dmaTransfer (page : Byte) (s : State) : Out := dmaFrom page 0xA0 0 s

/-- `Write8`, that is `MemWrite(a, 1, v)` (R70): a write to 0xFF46 starts the DMA copy and stores
nothing (R78). -/
def write8 (a : Word) (v : Byte) (s : State) : Out :=
  if a.toNat = 0xFF46 then dmaTransfer v s else .next (storeByte s a v)

/-! ### Ending an instruction, the stack -/

/-- The cost of an instruction in this machine, when it is taken (`00_scope.md` R16). -/
def State.cost (s : State) (i : Instr) : Nat := cycles s.params.cycles i

/-- The cost of an instruction in this machine, when it is a conditional one and not taken. -/
def State.costNotTaken (s : State) (i : Instr) : Nat := cyclesNotTaken s.params.cycles i

/-- The end of an instruction's meaning: it returns its cycle cost (R153). -/
def done (cost : Nat) (s : State) : Out := .next { s with lastCost := cost }

/-- `Push16` (R346): the high byte first, at the higher address; both through the write path. -/
def push16 (v : Word) (s : State) : Out :=
  let s1 := s.setSp (s.regs.sp - 1)
  andThen (write8 s1.regs.sp (hiByte v) s1) fun s2 =>
    let s3 := s2.setSp (s2.regs.sp - 1)
    write8 s3.regs.sp (loByte v) s3

/-- `Pop16` (R346): the low byte first; the rest gets the word and the state with SP advanced. -/
def pop16 (s : State) (k : Word → State → Out) : Out :=
  withByte s s.regs.sp fun lo =>
    let s1 := s.setSp (s.regs.sp + 1)
    withByte s1 s1.regs.sp fun hi => k (wordOf hi lo) (s1.setSp (s1.regs.sp + 1))

/-! ### Interrupts -/

/-- The five interrupt sources (R335). -/
inductive Interrupt where
  | vblank
  | stat
  | timer
  | serial
  | joypad
  deriving DecidableEq, Repr

/-- The bit of a source in IF and IE (R335). -/
def Interrupt.index : Interrupt → Nat
  | .vblank => 0
  | .stat => 1
  | .timer => 2
  | .serial => 3
  | .joypad => 4

/-- The vector of a source; the serial source has none (R345, R347). -/
def Interrupt.vector : Interrupt → Option Word
  | .vblank => some 0x0040
  | .stat => some 0x0048
  | .timer => some 0x0050
  | .serial => none
  | .joypad => some 0x0060

/-- `RequestInterrupt(i)` (R336). -/
def requestInterrupt (i : Interrupt) (s : State) : State :=
  s.setFlat 0xFF0F (withBit (s.flatAt 0xFF0F) i.index true)

/-- Whether a source is both requested and enabled (R337). -/
def interruptReady (s : State) (i : Interrupt) : Bool :=
  bitOf (s.flatAt 0xFF0F) i.index && bitOf (s.flatAt 0xFFFF) i.index

/-- The sources in the order of the scan, lower index first (R342, R343). -/
def interruptOrder : List Interrupt := [.vblank, .stat, .timer, .serial, .joypad]

/-- `EnterInterrupt(i)` (R345): IME cleared, the request bit cleared, PC pushed, PC to the vector;
the serial source has no vector and PC stays (R347).  A push that lands on 0xFF46 starts a DMA copy,
which may stop with `RomIndexOutOfRange` (R346, log entry 11).  A pending enable stays (log entry 24). -/
def enterInterrupt (i : Interrupt) (s : State) : Out :=
  let s1 := { s with ime := false }
  let s2 := s1.setFlat 0xFF0F (withBit (s1.flatAt 0xFF0F) i.index false)
  andThen (push16 s2.regs.pc s2) fun s3 =>
    match i.vector with
    | some v => .next (s3.setPc v)
    | none => .next s3

/-- The return from an interrupt handler, `RETI` (`48_ext_control.md` R296): PC popped, IME set at
once. -/
def returnFromInterrupt (s : State) (k : State → Out) : Out :=
  pop16 s fun v t => k { t.setPc v with ime := true }

/-- `DispatchInterrupts` (R342): at most one entry, the lowest index that is requested and enabled. -/
def dispatchInterrupts (s : State) : Out :=
  if s.ime then
    match interruptOrder.find? (interruptReady s) with
    | some i => enterInterrupt i s
    | none => .next s
  else .next s

/-! ### Profiles -/

/-- Whether an instruction belongs to profile BASE (`00_scope.md` R8, `30_encoding.md` R133). -/
def inBase : Instr → Bool
  | .nop | .ldRR _ _ | .ldRHl _ | .ldHlR _ | .ldHlHl | .ldRN _ _ | .ldHlN _ | .ldABc | .ldADe
  | .ldBcA | .ldDeA | .ldANn _ | .ldNnA _ | .ldRrNn _ _ | .ldNnSp _ | .ldSpHl => true
  | .addR _ | .addHl | .addN _ | .adcR _ | .adcHl | .adcN _ | .subR _ | .subHl | .subN _
  | .sbcR _ | .sbcHl | .sbcN _ => true
  | .xorR _ | .xorHl | .xorN _ | .rra | .rrR _ | .rrHl | .bitR _ _ | .bitHl _ => true
  | .ldHliA | .ldAHli | .ldHldA | .ldAHld | .ldhNA _ | .ldhAN _ | .ldCA | .ldAC | .ldHlSpE _
  | .push _ | .pop _ => false
  | .andR _ | .andHl | .andN _ | .orR _ | .orHl | .orN _ | .cpR _ | .cpHl | .cpN _
  | .incR _ | .incHl | .decR _ | .decHl | .incRr _ | .decRr _ | .addHlRr _ | .addSpE _
  | .daa | .cpl | .scf | .ccf | .rlca | .rla | .rrca => false
  | .jpNn _ | .jpCcNn _ _ | .jpHl | .jrE _ | .jrCcE _ _ | .callNn _ | .callCcNn _ _ | .ret
  | .retCc _ | .rst _ | .di | .ei | .reti => false
  | .rlcR _ | .rlcHl | .rrcR _ | .rrcHl | .rlR _ | .rlHl | .slaR _ | .slaHl | .sraR _ | .sraHl
  | .swapR _ | .swapHl | .srlR _ | .srlHl | .resR _ _ | .resHl _ | .setR _ _ | .setHl _ => false

/-- Whether an instruction has a handler in the machine's profile (R8, R154). -/
def hasHandler (p : Config.Profile) (i : Instr) : Bool :=
  match p with
  | .base => inBase i
  | .ext => true

end Sys2Proof.Machine
end

