-- ==== Sys2Proof/Machine/Alu.lean ====
section
/-!
DEFINITION. 8-bit arithmetic and logic on A: ADD, ADC, SUB, SBC, XOR of profile BASE
(`42_add_sub.md`, `43_xor.md`) and AND, OR, CP of profile EXT (`47_ext_alu.md` section 1).
-/

namespace Sys2Proof.Machine

/-- The end of an operation on A that stores its value and writes all four flags. -/
def storeA (cost : Nat) (r : AluResult) (s : State) : Out :=
  done cost ((s.setA r.value).setF (r.flags s.regs.f))

/-- The end of an operation on A that writes the flags only (CP, R257). -/
def storeFlags (cost : Nat) (r : AluResult) (s : State) : Out :=
  done cost (s.setF (r.flags s.regs.f))

/-- `ADD A,r` (R194). -/
def execAddR (r : Reg8) (s : State) : Out := storeA (s.cost (.addR r)) (add8 s.a (s.reg r) false) s

/-- `ADD A,(HL)` (R195). -/
def execAddHl (s : State) : Out :=
  withByte s s.hl fun v => storeA (s.cost .addHl) (add8 s.a v false) s

/-- `ADD A,n` (R196). -/
def execAddN (n : Byte) (s : State) : Out := storeA (s.cost (.addN n)) (add8 s.a n false) s

/-- `ADC A,r` (R197). -/
def execAdcR (r : Reg8) (s : State) : Out :=
  storeA (s.cost (.adcR r)) (add8 s.a (s.reg r) s.regs.flagC) s

/-- `ADC A,(HL)` (R198). -/
def execAdcHl (s : State) : Out :=
  withByte s s.hl fun v => storeA (s.cost .adcHl) (add8 s.a v s.regs.flagC) s

/-- `ADC A,n` (R199). -/
def execAdcN (n : Byte) (s : State) : Out := storeA (s.cost (.adcN n)) (add8 s.a n s.regs.flagC) s

/-- `SUB r` (R200). -/
def execSubR (r : Reg8) (s : State) : Out := storeA (s.cost (.subR r)) (sub8 s.a (s.reg r) false) s

/-- `SUB (HL)` (R201). -/
def execSubHl (s : State) : Out :=
  withByte s s.hl fun v => storeA (s.cost .subHl) (sub8 s.a v false) s

/-- `SUB n` (R202). -/
def execSubN (n : Byte) (s : State) : Out := storeA (s.cost (.subN n)) (sub8 s.a n false) s

/-- `SBC A,r` (R203).  `SBC A,A` with C set and a low nibble of 0xF in A leaves H clear, as R193 says, against
the corner case of R203 (log entry 25). -/
def execSbcR (r : Reg8) (s : State) : Out :=
  storeA (s.cost (.sbcR r)) (sub8 s.a (s.reg r) s.regs.flagC) s

/-- `SBC A,(HL)` (R204). -/
def execSbcHl (s : State) : Out :=
  withByte s s.hl fun v => storeA (s.cost .sbcHl) (sub8 s.a v s.regs.flagC) s

/-- `SBC A,n` (R205). -/
def execSbcN (n : Byte) (s : State) : Out := storeA (s.cost (.sbcN n)) (sub8 s.a n s.regs.flagC) s

/-- `XOR r` (R211). -/
def execXorR (r : Reg8) (s : State) : Out := storeA (s.cost (.xorR r)) (xor8 s.a (s.reg r)) s

/-- `XOR (HL)` (R212). -/
def execXorHl (s : State) : Out := withByte s s.hl fun v => storeA (s.cost .xorHl) (xor8 s.a v) s

/-- `XOR n` (R213). -/
def execXorN (n : Byte) (s : State) : Out := storeA (s.cost (.xorN n)) (xor8 s.a n) s

/-- `AND r` (R251). -/
def execAndR (r : Reg8) (s : State) : Out := storeA (s.cost (.andR r)) (and8 s.a (s.reg r)) s

/-- `AND (HL)` (R252). -/
def execAndHl (s : State) : Out := withByte s s.hl fun v => storeA (s.cost .andHl) (and8 s.a v) s

/-- `AND n` (R253). -/
def execAndN (n : Byte) (s : State) : Out := storeA (s.cost (.andN n)) (and8 s.a n) s

/-- `OR r` (R254). -/
def execOrR (r : Reg8) (s : State) : Out := storeA (s.cost (.orR r)) (or8 s.a (s.reg r)) s

/-- `OR (HL)` (R255). -/
def execOrHl (s : State) : Out := withByte s s.hl fun v => storeA (s.cost .orHl) (or8 s.a v) s

/-- `OR n` (R256). -/
def execOrN (n : Byte) (s : State) : Out := storeA (s.cost (.orN n)) (or8 s.a n) s

/-- `CP r` (R257). -/
def execCpR (r : Reg8) (s : State) : Out := storeFlags (s.cost (.cpR r)) (cp8 s.a (s.reg r)) s

/-- `CP (HL)` (R258). -/
def execCpHl (s : State) : Out := withByte s s.hl fun v => storeFlags (s.cost .cpHl) (cp8 s.a v) s

/-- `CP n` (R259). -/
def execCpN (n : Byte) (s : State) : Out := storeFlags (s.cost (.cpN n)) (cp8 s.a n) s

end Sys2Proof.Machine
end

