-- ==== Sys2Proof/Machine/Control.lean ====
section
/-!
DEFINITION. Control transfer and interrupt-enable instructions of profile EXT
(`48_ext_control.md`).  PC is already past the instruction's bytes (Machine/Fetch.lean).
-/

namespace Sys2Proof.Machine

/-- `CALL`: the address of the next instruction pushed, then the jump (R286). -/
def callTo (cost : Nat) (target : Word) (s : State) : Out :=
  andThen (push16 s.regs.pc s) fun t => done cost (t.setPc target)

/-- `JP nn` (R281). -/
def execJpNn (nn : Word) (s : State) : Out := done (s.cost (.jpNn nn)) (s.setPc nn)

/-- `JP cc,nn` (R282). -/
def execJpCcNn (cc : Cond) (nn : Word) (s : State) : Out :=
  if s.regs.holds cc then done (s.cost (.jpCcNn cc nn)) (s.setPc nn)
  else done (s.costNotTaken (.jpCcNn cc nn)) s

/-- `JP HL` (R283): no memory access. -/
def execJpHl (s : State) : Out := done (s.cost .jpHl) (s.setPc s.hl)

/-- `JR e` (R284): relative to the address after the second byte. -/
def execJrE (e : Byte) (s : State) : Out :=
  done (s.cost (.jrE e)) (s.setPc (s.regs.pc + sext8 e))

/-- `JR cc,e` (R285). -/
def execJrCcE (cc : Cond) (e : Byte) (s : State) : Out :=
  if s.regs.holds cc then done (s.cost (.jrCcE cc e)) (s.setPc (s.regs.pc + sext8 e))
  else done (s.costNotTaken (.jrCcE cc e)) s

/-- `CALL nn` (R286). -/
def execCallNn (nn : Word) (s : State) : Out := callTo (s.cost (.callNn nn)) nn s

/-- `CALL cc,nn` (R287): not taken it touches neither SP nor memory. -/
def execCallCcNn (cc : Cond) (nn : Word) (s : State) : Out :=
  if s.regs.holds cc then callTo (s.cost (.callCcNn cc nn)) nn s
  else done (s.costNotTaken (.callCcNn cc nn)) s

/-- `RET` (R288). -/
def execRet (s : State) : Out := pop16 s fun v t => done (s.cost .ret) (t.setPc v)

/-- `RET cc` (R289). -/
def execRetCc (cc : Cond) (s : State) : Out :=
  if s.regs.holds cc then pop16 s fun v t => done (s.cost (.retCc cc)) (t.setPc v)
  else done (s.costNotTaken (.retCc cc)) s

/-- `RST t` (R290): a call of `t * 8`. -/
def execRst (t : Nat) (s : State) : Out := callTo (s.cost (.rst t)) (BitVec.ofNat 16 (t * 8)) s

/-- `DI` (R294): IME and the pending enable cleared, the running step's latch discarded. -/
def execDi (s : State) : Out :=
  done (s.cost .di) { s with ime := false, eiPending := false, armed := false }

/-- `EI` (R295): IME is set one instruction later.  The pending enable is set whatever IME is, as the rule's
operation says, and interrupt entry leaves it (R345); so when an interrupt is entered at the end of the step
of `EI`, because IME was already true or became true in that step by an `EI` before it, IME is set again after
the handler's first instruction, against the rule's remarks that `EI` then changes nothing observable and that
a second `EI` leaves `eiPending` set harmlessly (log entry 24). -/
def execEi (s : State) : Out := done (s.cost .ei) { s with eiPending := true }

/-- `RETI` (R296). -/
def execReti (s : State) : Out := returnFromInterrupt s (done (s.cost .reti))

end Sys2Proof.Machine
end

