-- ==== Sys2Proof/Machine/ExtAlu.lean ====
section
/-!
DEFINITION. Increments, decrements, 16-bit arithmetic and the accumulator and flag operations of
profile EXT (`47_ext_alu.md` sections 2 to 4; the rotates of A are in Machine/Shifts.lean).
-/

namespace Sys2Proof.Machine

/-- `INC r` (R260). -/
def execIncR (dst : Reg8) (s : State) : Out :=
  done (s.cost (.incR dst)) ((s.setReg dst (s.reg dst + 1)).setF (incFlags (s.reg dst) s.regs.f))

/-- `INC (HL)` (R261). -/
def execIncHl (s : State) : Out :=
  withByte s s.hl fun v =>
    andThen (write8 s.hl (v + 1) s) fun t =>
      done (s.cost .incHl) (t.setF (incFlags v t.regs.f))

/-- `DEC r` (R262). -/
def execDecR (dst : Reg8) (s : State) : Out :=
  done (s.cost (.decR dst)) ((s.setReg dst (s.reg dst - 1)).setF (decFlags (s.reg dst) s.regs.f))

/-- `DEC (HL)` (R263). -/
def execDecHl (s : State) : Out :=
  withByte s s.hl fun v =>
    andThen (write8 s.hl (v - 1) s) fun t =>
      done (s.cost .decHl) (t.setF (decFlags v t.regs.f))

/-- `INC rr` (R264): no flag. -/
def execIncRr (p : RegPair) (s : State) : Out :=
  done (s.cost (.incRr p)) (s.setPair p (s.pair p + 1))

/-- `DEC rr` (R265): no flag. -/
def execDecRr (p : RegPair) (s : State) : Out :=
  done (s.cost (.decRr p)) (s.setPair p (s.pair p - 1))

/-- `ADD HL,rr` (R266). -/
def execAddHlRr (p : RegPair) (s : State) : Out :=
  done (s.cost (.addHlRr p))
    ((s.setHl (s.hl + s.pair p)).setF (addHlFlags s.hl (s.pair p) s.regs.f))

/-- `ADD SP,e` (R267). -/
def execAddSpE (e : Byte) (s : State) : Out :=
  done (s.cost (.addSpE e))
    ((s.setSp (s.regs.sp + sext8 e)).setF (spOffsetFlags s.regs.sp e s.regs.f))

/-- `DAA` (R268). -/
def execDaa (s : State) : Out :=
  done (s.cost .daa) ((s.setA (daa8 s.a s.regs.f).1).setF (daa8 s.a s.regs.f).2)

/-- `CPL` (R269). -/
def execCpl (s : State) : Out :=
  done (s.cost .cpl)
    ((s.setA (s.a ^^^ 0xFF)).setF (setFlags s.regs.f none (some true) (some true) none))

/-- `SCF` (R270). -/
def execScf (s : State) : Out :=
  done (s.cost .scf) (s.setF (setFlags s.regs.f none (some false) (some false) (some true)))

/-- `CCF` (R271). -/
def execCcf (s : State) : Out :=
  done (s.cost .ccf)
    (s.setF (setFlags s.regs.f none (some false) (some false) (some (!s.regs.flagC))))

end Sys2Proof.Machine
end

