-- ==== Sys2Proof/Machine/ExtLoads.lean ====
section
/-!
DEFINITION. Further loads and the stack instructions of profile EXT (`46_ext_loads_stack.md`).
-/

namespace Sys2Proof.Machine

/-- An address of the page at 0xFF00 (R235 to R238). -/
def highPage (n : Byte) : Word := wordOf 0xFF n

/-- `LD (HL+),A` (R231): the store uses HL before the increment. -/
def execLdHliA (s : State) : Out :=
  andThen (write8 s.hl s.a s) fun t => done (s.cost .ldHliA) (t.setHl (t.hl + 1))

/-- `LD A,(HL+)` (R232). -/
def execLdAHli (s : State) : Out :=
  withByte s s.hl fun v => done (s.cost .ldAHli) ((s.setA v).setHl (s.hl + 1))

/-- `LD (HL-),A` (R233). -/
def execLdHldA (s : State) : Out :=
  andThen (write8 s.hl s.a s) fun t => done (s.cost .ldHldA) (t.setHl (t.hl - 1))

/-- `LD A,(HL-)` (R234). -/
def execLdAHld (s : State) : Out :=
  withByte s s.hl fun v => done (s.cost .ldAHld) ((s.setA v).setHl (s.hl - 1))

/-- `LDH (n),A` (R235). -/
def execLdhNA (n : Byte) (s : State) : Out :=
  andThen (write8 (highPage n) s.a s) (done (s.cost (.ldhNA n)))

/-- `LDH A,(n)` (R236). -/
def execLdhAN (n : Byte) (s : State) : Out :=
  withByte s (highPage n) fun v => done (s.cost (.ldhAN n)) (s.setA v)

/-- `LD (C),A` (R237). -/
def execLdCA (s : State) : Out :=
  andThen (write8 (highPage s.regs.c) s.a s) (done (s.cost .ldCA))

/-- `LD A,(C)` (R238). -/
def execLdAC (s : State) : Out :=
  withByte s (highPage s.regs.c) fun v => done (s.cost .ldAC) (s.setA v)

/-- `LD HL,SP+e` (R239): SP is unchanged, the flags come from the unsigned low-byte addition. -/
def execLdHlSpE (e : Byte) (s : State) : Out :=
  done (s.cost (.ldHlSpE e))
    ((s.setHl (s.regs.sp + sext8 e)).setF (spOffsetFlags s.regs.sp e s.regs.f))

/-- `PUSH qq` (R240). -/
def execPush (q : StackPair) (s : State) : Out :=
  andThen (push16 (s.regs.getStackPair q) s) (done (s.cost (.push q)))

/-- `POP qq` (R241): `POP AF` loads all eight bits of F. -/
def execPop (q : StackPair) (s : State) : Out :=
  pop16 s fun v t => done (s.cost (.pop q)) (t.setStackPair q v)

end Sys2Proof.Machine
end

