-- ==== Sys2Proof/Machine/Loads.lean ====
section
/-!
DEFINITION. NOP and the loads of profile BASE (`40_step_and_nop.md` R155, `41_loads.md`).

A meaning starts with PC past all bytes of the instruction (the handler's fetches are done in
Machine/Fetch.lean), so `s.regs.pc` is the address of the next instruction.
-/

namespace Sys2Proof.Machine

/-- `NOP` (R155). -/
def execNop (s : State) : Out := done (s.cost .nop) s

/-- `LD r,r'` (R161). -/
def execLdRR (dst src : Reg8) (s : State) : Out := done (s.cost (.ldRR dst src)) (s.setReg dst (s.reg src))

/-- `LD r,(HL)` (R162): the address is HL before the register is written. -/
def execLdRHl (dst : Reg8) (s : State) : Out :=
  withByte s s.hl fun v => done (s.cost (.ldRHl dst)) (s.setReg dst v)

/-- `LD (HL),r` (R163). -/
def execLdHlR (r : Reg8) (s : State) : Out :=
  andThen (write8 s.hl (s.reg r) s) (done (s.cost (.ldHlR r)))

/-- `LD (HL),(HL)`, opcode 0x76 (R164, `30_encoding.md` R136): a load, not a halt. -/
def execLdHlHl (s : State) : Out :=
  withByte s s.hl fun v => andThen (write8 s.hl v s) (done (s.cost .ldHlHl))

/-- `LD r,n` (R165). -/
def execLdRN (dst : Reg8) (n : Byte) (s : State) : Out := done (s.cost (.ldRN dst n)) (s.setReg dst n)

/-- `LD (HL),n` (R166). -/
def execLdHlN (n : Byte) (s : State) : Out := andThen (write8 s.hl n s) (done (s.cost (.ldHlN n)))

/-- `LD A,(BC)` (R167). -/
def execLdABc (s : State) : Out :=
  withByte s s.regs.bc fun v => done (s.cost .ldABc) (s.setA v)

/-- `LD A,(DE)` (R168). -/
def execLdADe (s : State) : Out :=
  withByte s s.regs.de fun v => done (s.cost .ldADe) (s.setA v)

/-- `LD (BC),A` (R169). -/
def execLdBcA (s : State) : Out := andThen (write8 s.regs.bc s.a s) (done (s.cost .ldBcA))

/-- `LD (DE),A` (R170). -/
def execLdDeA (s : State) : Out := andThen (write8 s.regs.de s.a s) (done (s.cost .ldDeA))

/-- `LD A,(nn)` (R171). -/
def execLdANn (nn : Word) (s : State) : Out :=
  withByte s nn fun v => done (s.cost (.ldANn nn)) (s.setA v)

/-- `LD (nn),A` (R172). -/
def execLdNnA (nn : Word) (s : State) : Out := andThen (write8 nn s.a s) (done (s.cost (.ldNnA nn)))

/-- `LD rr,nn` (R173). -/
def execLdRrNn (p : RegPair) (nn : Word) (s : State) : Out :=
  done (s.cost (.ldRrNn p nn)) (s.setPair p nn)

/-- `LD (nn),SP` (R174): the low byte first, at the lower address. -/
def execLdNnSp (nn : Word) (s : State) : Out :=
  andThen (write8 nn (loByte s.regs.sp) s) fun s1 =>
    andThen (write8 (nn + 1) (hiByte s1.regs.sp) s1) (done (s.cost (.ldNnSp nn)))

/-- `LD SP,HL` (R175). -/
def execLdSpHl (s : State) : Out := done (s.cost .ldSpHl) (s.setSp s.hl)

end Sys2Proof.Machine
end

