-- ==== Sys2Proof/Machine/Shifts.lean ====
section
/-!
DEFINITION. Rotates, shifts and bit operations: RRA, RR, BIT of profile BASE
(`44_rotate_right.md`, `45_bit_test.md`), RLCA, RLA, RRCA (`47_ext_alu.md` R272 to R274) and the
prefixed operations of profile EXT (`49_ext_cb.md`).
-/

namespace Sys2Proof.Machine

/-- The end of an accumulator rotate: A and the flags with Z cleared (R216). -/
def rotateA (cost : Nat) (r : ShiftResult) (s : State) : Out :=
  done cost ((s.setA r.value).setF (r.flagsA s.regs.f))

/-- The register form of a prefixed shift or rotate (R300). -/
def shiftReg (cost : Nat) (op : Byte → ShiftResult) (r : Reg8) (s : State) : Out :=
  done cost ((s.setReg r (op (s.reg r)).value).setF ((op (s.reg r)).flags s.regs.f))

/-- The memory form of a prefixed shift or rotate (R300, R218): a read and a write through the two
paths, then the flags of the value computed. -/
def shiftMem (cost : Nat) (op : Byte → ShiftResult) (s : State) : Out :=
  withByte s s.hl fun v =>
    andThen (write8 s.hl (op v).value s) fun t => done cost (t.setF ((op v).flags t.regs.f))

/-- The memory form of an operation that writes no flag (`RES`, `SET`; R316, R318). -/
def modifyMem (cost : Nat) (op : Byte → Byte) (s : State) : Out :=
  withByte s s.hl fun v => andThen (write8 s.hl (op v) s) (done cost)

/-- `RRA` (R216). -/
def execRra (s : State) : Out := rotateA (s.cost .rra) (rotR s.a s.regs.flagC) s

/-- `RLCA` (R272). -/
def execRlca (s : State) : Out := rotateA (s.cost .rlca) (rotLC s.a) s

/-- `RLA` (R273). -/
def execRla (s : State) : Out := rotateA (s.cost .rla) (rotL s.a s.regs.flagC) s

/-- `RRCA` (R274). -/
def execRrca (s : State) : Out := rotateA (s.cost .rrca) (rotRC s.a) s

/-- `RR r` (R217). -/
def execRrR (r : Reg8) (s : State) : Out :=
  shiftReg (s.cost (.rrR r)) (fun v => rotR v s.regs.flagC) r s

/-- `RR (HL)` (R218). -/
def execRrHl (s : State) : Out := shiftMem (s.cost .rrHl) (fun v => rotR v s.regs.flagC) s

/-- `RLC r` (R301). -/
def execRlcR (r : Reg8) (s : State) : Out := shiftReg (s.cost (.rlcR r)) rotLC r s

/-- `RLC (HL)` (R302). -/
def execRlcHl (s : State) : Out := shiftMem (s.cost .rlcHl) rotLC s

/-- `RRC r` (R303). -/
def execRrcR (r : Reg8) (s : State) : Out := shiftReg (s.cost (.rrcR r)) rotRC r s

/-- `RRC (HL)` (R304). -/
def execRrcHl (s : State) : Out := shiftMem (s.cost .rrcHl) rotRC s

/-- `RL r` (R305). -/
def execRlR (r : Reg8) (s : State) : Out :=
  shiftReg (s.cost (.rlR r)) (fun v => rotL v s.regs.flagC) r s

/-- `RL (HL)` (R306). -/
def execRlHl (s : State) : Out := shiftMem (s.cost .rlHl) (fun v => rotL v s.regs.flagC) s

/-- `SLA r` (R307). -/
def execSlaR (r : Reg8) (s : State) : Out := shiftReg (s.cost (.slaR r)) shiftLA r s

/-- `SLA (HL)` (R308). -/
def execSlaHl (s : State) : Out := shiftMem (s.cost .slaHl) shiftLA s

/-- `SRA r` (R309). -/
def execSraR (r : Reg8) (s : State) : Out := shiftReg (s.cost (.sraR r)) shiftRA r s

/-- `SRA (HL)` (R310). -/
def execSraHl (s : State) : Out := shiftMem (s.cost .sraHl) shiftRA s

/-- `SWAP r` (R311). -/
def execSwapR (r : Reg8) (s : State) : Out := shiftReg (s.cost (.swapR r)) swap8 r s

/-- `SWAP (HL)` (R312). -/
def execSwapHl (s : State) : Out := shiftMem (s.cost .swapHl) swap8 s

/-- `SRL r` (R313). -/
def execSrlR (r : Reg8) (s : State) : Out := shiftReg (s.cost (.srlR r)) shiftRL r s

/-- `SRL (HL)` (R314). -/
def execSrlHl (s : State) : Out := shiftMem (s.cost .srlHl) shiftRL s

/-- `BIT b,r` (R224). -/
def execBitR (bit : Nat) (r : Reg8) (s : State) : Out :=
  done (s.cost (.bitR bit r)) (s.setF (bitTestFlags (s.reg r) bit s.regs.f))

/-- `BIT b,(HL)` (R225): no write. -/
def execBitHl (bit : Nat) (s : State) : Out :=
  withByte s s.hl fun v => done (s.cost (.bitHl bit)) (s.setF (bitTestFlags v bit s.regs.f))

/-- `RES b,r` (R315). -/
def execResR (bit : Nat) (r : Reg8) (s : State) : Out :=
  done (s.cost (.resR bit r)) (s.setReg r (withBit (s.reg r) bit false))

/-- `RES b,(HL)` (R316): the write happens even when the bit was clear. -/
def execResHl (bit : Nat) (s : State) : Out :=
  modifyMem (s.cost (.resHl bit)) (fun v => withBit v bit false) s

/-- `SET b,r` (R317). -/
def execSetR (bit : Nat) (r : Reg8) (s : State) : Out :=
  done (s.cost (.setR bit r)) (s.setReg r (withBit (s.reg r) bit true))

/-- `SET b,(HL)` (R318). -/
def execSetHl (bit : Nat) (s : State) : Out :=
  modifyMem (s.cost (.setHl bit)) (fun v => withBit v bit true) s

end Sys2Proof.Machine
end

