-- ==== Sys2Proof/Machine/Dispatch.lean ====
section
/-!
DEFINITION. The meaning of every instruction: one arm per constructor, one meaning per arm
(`40_step_and_nop.md` R152).
-/

namespace Sys2Proof.Machine

def exec (i : Instr) (s : State) : Host.Outcome State Fault Refusal :=
  match i with
  -- NOP and loads, BASE
  | .nop => Sys2Proof.Machine.execNop s
  | .ldRR dst src => Sys2Proof.Machine.execLdRR dst src s
  | .ldRHl dst => Sys2Proof.Machine.execLdRHl dst s
  | .ldHlR src => Sys2Proof.Machine.execLdHlR src s
  | .ldHlHl => Sys2Proof.Machine.execLdHlHl s
  | .ldRN dst n => Sys2Proof.Machine.execLdRN dst n s
  | .ldHlN n => Sys2Proof.Machine.execLdHlN n s
  | .ldABc => Sys2Proof.Machine.execLdABc s
  | .ldADe => Sys2Proof.Machine.execLdADe s
  | .ldBcA => Sys2Proof.Machine.execLdBcA s
  | .ldDeA => Sys2Proof.Machine.execLdDeA s
  | .ldANn nn => Sys2Proof.Machine.execLdANn nn s
  | .ldNnA nn => Sys2Proof.Machine.execLdNnA nn s
  | .ldRrNn p nn => Sys2Proof.Machine.execLdRrNn p nn s
  | .ldNnSp nn => Sys2Proof.Machine.execLdNnSp nn s
  | .ldSpHl => Sys2Proof.Machine.execLdSpHl s
  -- 8-bit add and subtract, BASE
  | .addR src => Sys2Proof.Machine.execAddR src s
  | .addHl => Sys2Proof.Machine.execAddHl s
  | .addN n => Sys2Proof.Machine.execAddN n s
  | .adcR src => Sys2Proof.Machine.execAdcR src s
  | .adcHl => Sys2Proof.Machine.execAdcHl s
  | .adcN n => Sys2Proof.Machine.execAdcN n s
  | .subR src => Sys2Proof.Machine.execSubR src s
  | .subHl => Sys2Proof.Machine.execSubHl s
  | .subN n => Sys2Proof.Machine.execSubN n s
  | .sbcR src => Sys2Proof.Machine.execSbcR src s
  | .sbcHl => Sys2Proof.Machine.execSbcHl s
  | .sbcN n => Sys2Proof.Machine.execSbcN n s
  -- exclusive-or, rotate right, bit test, BASE
  | .xorR src => Sys2Proof.Machine.execXorR src s
  | .xorHl => Sys2Proof.Machine.execXorHl s
  | .xorN n => Sys2Proof.Machine.execXorN n s
  | .rra => Sys2Proof.Machine.execRra s
  | .rrR src => Sys2Proof.Machine.execRrR src s
  | .rrHl => Sys2Proof.Machine.execRrHl s
  | .bitR bit src => Sys2Proof.Machine.execBitR bit src s
  | .bitHl bit => Sys2Proof.Machine.execBitHl bit s
  -- further loads and the stack, EXT
  | .ldHliA => Sys2Proof.Machine.execLdHliA s
  | .ldAHli => Sys2Proof.Machine.execLdAHli s
  | .ldHldA => Sys2Proof.Machine.execLdHldA s
  | .ldAHld => Sys2Proof.Machine.execLdAHld s
  | .ldhNA n => Sys2Proof.Machine.execLdhNA n s
  | .ldhAN n => Sys2Proof.Machine.execLdhAN n s
  | .ldCA => Sys2Proof.Machine.execLdCA s
  | .ldAC => Sys2Proof.Machine.execLdAC s
  | .ldHlSpE e => Sys2Proof.Machine.execLdHlSpE e s
  | .push q => Sys2Proof.Machine.execPush q s
  | .pop q => Sys2Proof.Machine.execPop q s
  -- further arithmetic and logic, EXT
  | .andR src => Sys2Proof.Machine.execAndR src s
  | .andHl => Sys2Proof.Machine.execAndHl s
  | .andN n => Sys2Proof.Machine.execAndN n s
  | .orR src => Sys2Proof.Machine.execOrR src s
  | .orHl => Sys2Proof.Machine.execOrHl s
  | .orN n => Sys2Proof.Machine.execOrN n s
  | .cpR src => Sys2Proof.Machine.execCpR src s
  | .cpHl => Sys2Proof.Machine.execCpHl s
  | .cpN n => Sys2Proof.Machine.execCpN n s
  | .incR dst => Sys2Proof.Machine.execIncR dst s
  | .incHl => Sys2Proof.Machine.execIncHl s
  | .decR dst => Sys2Proof.Machine.execDecR dst s
  | .decHl => Sys2Proof.Machine.execDecHl s
  | .incRr p => Sys2Proof.Machine.execIncRr p s
  | .decRr p => Sys2Proof.Machine.execDecRr p s
  | .addHlRr p => Sys2Proof.Machine.execAddHlRr p s
  | .addSpE e => Sys2Proof.Machine.execAddSpE e s
  | .daa => Sys2Proof.Machine.execDaa s
  | .cpl => Sys2Proof.Machine.execCpl s
  | .scf => Sys2Proof.Machine.execScf s
  | .ccf => Sys2Proof.Machine.execCcf s
  | .rlca => Sys2Proof.Machine.execRlca s
  | .rla => Sys2Proof.Machine.execRla s
  | .rrca => Sys2Proof.Machine.execRrca s
  -- control transfer and interrupt enable, EXT
  | .jpNn nn => Sys2Proof.Machine.execJpNn nn s
  | .jpCcNn cc nn => Sys2Proof.Machine.execJpCcNn cc nn s
  | .jpHl => Sys2Proof.Machine.execJpHl s
  | .jrE e => Sys2Proof.Machine.execJrE e s
  | .jrCcE cc e => Sys2Proof.Machine.execJrCcE cc e s
  | .callNn nn => Sys2Proof.Machine.execCallNn nn s
  | .callCcNn cc nn => Sys2Proof.Machine.execCallCcNn cc nn s
  | .ret => Sys2Proof.Machine.execRet s
  | .retCc cc => Sys2Proof.Machine.execRetCc cc s
  | .rst t => Sys2Proof.Machine.execRst t s
  | .di => Sys2Proof.Machine.execDi s
  | .ei => Sys2Proof.Machine.execEi s
  | .reti => Sys2Proof.Machine.execReti s
  -- further prefixed operations, EXT
  | .rlcR src => Sys2Proof.Machine.execRlcR src s
  | .rlcHl => Sys2Proof.Machine.execRlcHl s
  | .rrcR src => Sys2Proof.Machine.execRrcR src s
  | .rrcHl => Sys2Proof.Machine.execRrcHl s
  | .rlR src => Sys2Proof.Machine.execRlR src s
  | .rlHl => Sys2Proof.Machine.execRlHl s
  | .slaR src => Sys2Proof.Machine.execSlaR src s
  | .slaHl => Sys2Proof.Machine.execSlaHl s
  | .sraR src => Sys2Proof.Machine.execSraR src s
  | .sraHl => Sys2Proof.Machine.execSraHl s
  | .swapR src => Sys2Proof.Machine.execSwapR src s
  | .swapHl => Sys2Proof.Machine.execSwapHl s
  | .srlR src => Sys2Proof.Machine.execSrlR src s
  | .srlHl => Sys2Proof.Machine.execSrlHl s
  | .resR bit src => Sys2Proof.Machine.execResR bit src s
  | .resHl bit => Sys2Proof.Machine.execResHl bit s
  | .setR bit src => Sys2Proof.Machine.execSetR bit src s
  | .setHl bit => Sys2Proof.Machine.execSetHl bit s

end Sys2Proof.Machine
end

