-- ==== Sys2Proof/Decode.lean ====
section
/-!
DEFINITION. Decoding bytes to an instruction, and encoding an instruction to its bytes
(`30_encoding.md`).

An opcode byte is split into `x = op[7:6]`, `y = op[5:3]`, `z = op[2:0]`, and `y` into `p = op[5:4]`
and `q = op[3]` (R121); the maps are those of R130 and R131.
-/

namespace Sys2Proof

open Machine (fieldOf wordOf hiByte loByte)

/-! ### Fields -/

/-- The operand a 3-bit register field selects: a register, or `none` for slot 6, the memory byte at
HL (R123). -/
def Reg8.ofCode : Nat → Option Reg8
  | 0 => some .b
  | 1 => some .c
  | 2 => some .d
  | 3 => some .e
  | 4 => some .h
  | 5 => some .l
  | 6 => none
  | _ => some .a

/-- The register field of a register (R123). -/
def Reg8.code : Reg8 → Nat
  | .b => 0
  | .c => 1
  | .d => 2
  | .e => 3
  | .h => 4
  | .l => 5
  | .a => 7

/-- The pair field of loads and 16-bit arithmetic (R124). -/
def RegPair.ofCode : Nat → RegPair
  | 0 => .bc
  | 1 => .de
  | 2 => .hl
  | _ => .sp

/-- The field of a pair (R124). -/
def RegPair.code : RegPair → Nat
  | .bc => 0
  | .de => 1
  | .hl => 2
  | .sp => 3

/-- The pair field of `PUSH` and `POP` (R124). -/
def StackPair.ofCode : Nat → StackPair
  | 0 => .bc
  | 1 => .de
  | 2 => .hl
  | _ => .af

/-- The field of a pair in `PUSH` and `POP` (R124). -/
def StackPair.code : StackPair → Nat
  | .bc => 0
  | .de => 1
  | .hl => 2
  | .af => 3

/-- The condition field (R125). -/
def Cond.ofCode : Nat → Cond
  | 0 => .nz
  | 1 => .z
  | 2 => .nc
  | _ => .c

/-- The field of a condition (R125). -/
def Cond.code : Cond → Nat
  | .nz => 0
  | .z => 1
  | .nc => 2
  | .c => 3

/-! ### Decoding -/

/-- An instruction with a register form and an `(HL)` form. -/
def regOrHl (field : Nat) (reg : Reg8 → Instr) (hl : Instr) : Instr :=
  match Reg8.ofCode field with
  | some r => reg r
  | none => hl

/-- The load block 0x40 to 0x7F, `01 ddd sss` (R122, R136). -/
def decodeLoadBlock (y z : Nat) : Instr :=
  match Reg8.ofCode y with
  | some dst => regOrHl z (.ldRR dst) (.ldRHl dst)
  | none => regOrHl z .ldHlR .ldHlHl

/-- The operations of A with a register operand, `10 yyy sss` (R122). -/
def decodeAlu (y s : Nat) : Instr :=
  match y with
  | 0 => regOrHl s .addR .addHl
  | 1 => regOrHl s .adcR .adcHl
  | 2 => regOrHl s .subR .subHl
  | 3 => regOrHl s .sbcR .sbcHl
  | 4 => regOrHl s .andR .andHl
  | 5 => regOrHl s .xorR .xorHl
  | 6 => regOrHl s .orR .orHl
  | _ => regOrHl s .cpR .cpHl

/-- The operations of A with an immediate, `11 yyy 110` (R122). -/
def decodeAluImm (y : Nat) (n : Byte) : Instr :=
  match y with
  | 0 => .addN n
  | 1 => .adcN n
  | 2 => .subN n
  | 3 => .sbcN n
  | 4 => .andN n
  | 5 => .xorN n
  | 6 => .orN n
  | _ => .cpN n

/-- Rows 0x00 to 0x3F of the map, `00 yyy zzz` (R130). -/
def decodeLow (y z : Nat) (n : Byte) (nn : Word) : Option Instr :=
  match z with
  | 0 =>
    match y with
    | 0 => some .nop
    | 1 => some (.ldNnSp nn)
    | 2 => none
    | 3 => some (.jrE n)
    | _ => some (.jrCcE (Cond.ofCode (y - 4)) n)
  | 1 =>
    if y % 2 = 0 then some (.ldRrNn (RegPair.ofCode (y / 2)) nn)
    else some (.addHlRr (RegPair.ofCode (y / 2)))
  | 2 =>
    match y with
    | 0 => some .ldBcA
    | 1 => some .ldABc
    | 2 => some .ldDeA
    | 3 => some .ldADe
    | 4 => some .ldHliA
    | 5 => some .ldAHli
    | 6 => some .ldHldA
    | _ => some .ldAHld
  | 3 =>
    if y % 2 = 0 then some (.incRr (RegPair.ofCode (y / 2)))
    else some (.decRr (RegPair.ofCode (y / 2)))
  | 4 => some (regOrHl y .incR .incHl)
  | 5 => some (regOrHl y .decR .decHl)
  | 6 => some (regOrHl y (fun dst => .ldRN dst n) (.ldHlN n))
  | _ =>
    match y with
    | 0 => some .rlca
    | 1 => some .rrca
    | 2 => some .rla
    | 3 => some .rra
    | 4 => some .daa
    | 5 => some .cpl
    | 6 => some .scf
    | _ => some .ccf

/-- Rows 0xC0 to 0xFF of the map, `11 yyy zzz` (R130), but for the prefix 0xCB. -/
def decodeHigh (y z : Nat) (n : Byte) (nn : Word) : Option Instr :=
  match z with
  | 0 =>
    match y with
    | 4 => some (.ldhNA n)
    | 5 => some (.addSpE n)
    | 6 => some (.ldhAN n)
    | 7 => some (.ldHlSpE n)
    | _ => some (.retCc (Cond.ofCode y))
  | 1 =>
    match y with
    | 1 => some .ret
    | 3 => some .reti
    | 5 => some .jpHl
    | 7 => some .ldSpHl
    | _ => some (.pop (StackPair.ofCode (y / 2)))
  | 2 =>
    match y with
    | 4 => some .ldCA
    | 5 => some (.ldNnA nn)
    | 6 => some .ldAC
    | 7 => some (.ldANn nn)
    | _ => some (.jpCcNn (Cond.ofCode y) nn)
  | 3 =>
    match y with
    | 0 => some (.jpNn nn)
    | 6 => some .di
    | 7 => some .ei
    | _ => none
  | 4 => if y < 4 then some (.callCcNn (Cond.ofCode y) nn) else none
  | 5 =>
    if y % 2 = 0 then some (.push (StackPair.ofCode (y / 2)))
    else if y = 1 then some (.callNn nn)
    else none
  | 6 => some (decodeAluImm y n)
  | _ => some (.rst y)

/-- The instruction of an unprefixed opcode byte with the two bytes that follow it, which matter only
to the formats that have them; `none` for the twelve bytes with no handler and for the prefix
(R130, R134). -/
def decodePlain (op n1 n2 : Byte) : Option Instr :=
  let y := fieldOf op 3 3
  let z := fieldOf op 0 3
  match fieldOf op 6 2 with
  | 0 => decodeLow y z n1 (wordOf n2 n1)
  | 1 => some (decodeLoadBlock y z)
  | 2 => some (decodeAlu y z)
  | _ => decodeHigh y z n1 (wordOf n2 n1)

/-- The instruction of the byte after the prefix 0xCB (R131); every byte has one. -/
def decodePrefixed (op2 : Byte) : Instr :=
  let y := fieldOf op2 3 3
  let z := fieldOf op2 0 3
  match fieldOf op2 6 2 with
  | 0 =>
    match y with
    | 0 => regOrHl z .rlcR .rlcHl
    | 1 => regOrHl z .rrcR .rrcHl
    | 2 => regOrHl z .rlR .rlHl
    | 3 => regOrHl z .rrR .rrHl
    | 4 => regOrHl z .slaR .slaHl
    | 5 => regOrHl z .sraR .sraHl
    | 6 => regOrHl z .swapR .swapHl
    | _ => regOrHl z .srlR .srlHl
  | 1 => regOrHl z (.bitR y) (.bitHl y)
  | 2 => regOrHl z (.resR y) (.resHl y)
  | _ => regOrHl z (.setR y) (.setHl y)

/-- The prefix byte (R137). -/
def prefixByte : Byte := 0xCB

/-- The number of bytes of an instruction (R120, R138). -/
def Instr.length : Instr → Nat
  | .ldRrNn _ _ | .ldNnSp _ | .ldNnA _ | .ldANn _ | .jpNn _ | .jpCcNn _ _ | .callNn _
  | .callCcNn _ _ => 3
  | .ldRN _ _ | .ldHlN _ | .addN _ | .adcN _ | .subN _ | .sbcN _ | .andN _ | .xorN _ | .orN _
  | .cpN _ | .jrE _ | .jrCcE _ _ | .ldhNA _ | .ldhAN _ | .addSpE _ | .ldHlSpE _ => 2
  | .rrR _ | .rrHl | .bitR _ _ | .bitHl _ | .rlcR _ | .rlcHl | .rrcR _ | .rrcHl | .rlR _ | .rlHl
  | .slaR _ | .slaHl | .sraR _ | .sraHl | .swapR _ | .swapHl | .srlR _ | .srlHl | .resR _ _
  | .resHl _ | .setR _ _ | .setHl _ => 2
  | .nop | .ldRR _ _ | .ldRHl _ | .ldHlR _ | .ldHlHl | .ldABc | .ldADe | .ldBcA | .ldDeA | .ldSpHl
  | .addR _ | .addHl | .adcR _ | .adcHl | .subR _ | .subHl | .sbcR _ | .sbcHl | .xorR _ | .xorHl
  | .rra | .ldHliA | .ldAHli | .ldHldA | .ldAHld | .ldCA | .ldAC | .push _ | .pop _ | .andR _
  | .andHl | .orR _ | .orHl | .cpR _ | .cpHl | .incR _ | .incHl | .decR _ | .decHl | .incRr _
  | .decRr _ | .addHlRr _ | .daa | .cpl | .scf | .ccf | .rlca | .rla | .rrca | .jpHl | .ret
  | .retCc _ | .rst _ | .di | .ei | .reti => 1

/-- The instruction length from its first byte (R138); 1 for a byte with no handler. -/
def instrLength (op : Byte) : Nat :=
  if op = prefixByte then 2
  else
    match decodePlain op 0 0 with
    | some i => i.length
    | none => 1

/-- Why bytes are no instruction. -/
inductive DecodeError where
  /-- The bytes end before the instruction does. -/
  | truncated
  /-- The opcode byte has no handler in either profile (R134). -/
  | unsupportedOpcode (op : Byte)
  deriving DecidableEq, Repr

/-- The instruction at the head of a list of bytes, and the bytes after it; total, rejecting by
name. -/
def decode : List Byte → Except DecodeError (Instr × List Byte)
  | [] => .error .truncated
  | op :: rest =>
    if op = prefixByte then
      match rest with
      | [] => .error .truncated
      | op2 :: rest2 => .ok (decodePrefixed op2, rest2)
    else
      match instrLength op, rest with
      | 3, n1 :: n2 :: after =>
        match decodePlain op n1 n2 with
        | some i => .ok (i, after)
        | none => .error (.unsupportedOpcode op)
      | 3, _ => .error .truncated
      | 2, n1 :: after =>
        match decodePlain op n1 0 with
        | some i => .ok (i, after)
        | none => .error (.unsupportedOpcode op)
      | 2, [] => .error .truncated
      | _, after =>
        match decodePlain op 0 0 with
        | some i => .ok (i, after)
        | none => .error (.unsupportedOpcode op)

/-! ### Encoding -/

/-- The byte `xx yyy zzz` (R121). -/
def opByte (x y z : Nat) : Byte := BitVec.ofNat 8 (x * 64 + y * 8 + z)

/-- The bytes of an instruction, first byte first (R120, R122, R130, R131). -/
def encode : Instr → List Byte
  | .nop => [0x00]
  | .ldRR dst src => [opByte 1 dst.code src.code]
  | .ldRHl dst => [opByte 1 dst.code 6]
  | .ldHlR src => [opByte 1 6 src.code]
  | .ldHlHl => [0x76]
  | .ldRN dst n => [opByte 0 dst.code 6, n]
  | .ldHlN n => [0x36, n]
  | .ldABc => [0x0A]
  | .ldADe => [0x1A]
  | .ldBcA => [0x02]
  | .ldDeA => [0x12]
  | .ldANn nn => [0xFA, loByte nn, hiByte nn]
  | .ldNnA nn => [0xEA, loByte nn, hiByte nn]
  | .ldRrNn p nn => [opByte 0 (2 * p.code) 1, loByte nn, hiByte nn]
  | .ldNnSp nn => [0x08, loByte nn, hiByte nn]
  | .ldSpHl => [0xF9]
  | .addR src => [opByte 2 0 src.code]
  | .addHl => [0x86]
  | .addN n => [0xC6, n]
  | .adcR src => [opByte 2 1 src.code]
  | .adcHl => [0x8E]
  | .adcN n => [0xCE, n]
  | .subR src => [opByte 2 2 src.code]
  | .subHl => [0x96]
  | .subN n => [0xD6, n]
  | .sbcR src => [opByte 2 3 src.code]
  | .sbcHl => [0x9E]
  | .sbcN n => [0xDE, n]
  | .xorR src => [opByte 2 5 src.code]
  | .xorHl => [0xAE]
  | .xorN n => [0xEE, n]
  | .rra => [0x1F]
  | .rrR src => [prefixByte, opByte 0 3 src.code]
  | .rrHl => [prefixByte, 0x1E]
  | .bitR bit src => [prefixByte, opByte 1 bit src.code]
  | .bitHl bit => [prefixByte, opByte 1 bit 6]
  | .ldHliA => [0x22]
  | .ldAHli => [0x2A]
  | .ldHldA => [0x32]
  | .ldAHld => [0x3A]
  | .ldhNA n => [0xE0, n]
  | .ldhAN n => [0xF0, n]
  | .ldCA => [0xE2]
  | .ldAC => [0xF2]
  | .ldHlSpE e => [0xF8, e]
  | .push q => [opByte 3 (2 * q.code) 5]
  | .pop q => [opByte 3 (2 * q.code) 1]
  | .andR src => [opByte 2 4 src.code]
  | .andHl => [0xA6]
  | .andN n => [0xE6, n]
  | .orR src => [opByte 2 6 src.code]
  | .orHl => [0xB6]
  | .orN n => [0xF6, n]
  | .cpR src => [opByte 2 7 src.code]
  | .cpHl => [0xBE]
  | .cpN n => [0xFE, n]
  | .incR dst => [opByte 0 dst.code 4]
  | .incHl => [0x34]
  | .decR dst => [opByte 0 dst.code 5]
  | .decHl => [0x35]
  | .incRr p => [opByte 0 (2 * p.code) 3]
  | .decRr p => [opByte 0 (2 * p.code + 1) 3]
  | .addHlRr p => [opByte 0 (2 * p.code + 1) 1]
  | .addSpE e => [0xE8, e]
  | .daa => [0x27]
  | .cpl => [0x2F]
  | .scf => [0x37]
  | .ccf => [0x3F]
  | .rlca => [0x07]
  | .rla => [0x17]
  | .rrca => [0x0F]
  | .jpNn nn => [0xC3, loByte nn, hiByte nn]
  | .jpCcNn cc nn => [opByte 3 cc.code 2, loByte nn, hiByte nn]
  | .jpHl => [0xE9]
  | .jrE e => [0x18, e]
  | .jrCcE cc e => [opByte 0 (4 + cc.code) 0, e]
  | .callNn nn => [0xCD, loByte nn, hiByte nn]
  | .callCcNn cc nn => [opByte 3 cc.code 4, loByte nn, hiByte nn]
  | .ret => [0xC9]
  | .retCc cc => [opByte 3 cc.code 0]
  | .rst t => [opByte 3 t 7]
  | .di => [0xF3]
  | .ei => [0xFB]
  | .reti => [0xD9]
  | .rlcR src => [prefixByte, opByte 0 0 src.code]
  | .rlcHl => [prefixByte, 0x06]
  | .rrcR src => [prefixByte, opByte 0 1 src.code]
  | .rrcHl => [prefixByte, 0x0E]
  | .rlR src => [prefixByte, opByte 0 2 src.code]
  | .rlHl => [prefixByte, 0x16]
  | .slaR src => [prefixByte, opByte 0 4 src.code]
  | .slaHl => [prefixByte, 0x26]
  | .sraR src => [prefixByte, opByte 0 5 src.code]
  | .sraHl => [prefixByte, 0x2E]
  | .swapR src => [prefixByte, opByte 0 6 src.code]
  | .swapHl => [prefixByte, 0x36]
  | .srlR src => [prefixByte, opByte 0 7 src.code]
  | .srlHl => [prefixByte, 0x3E]
  | .resR bit src => [prefixByte, opByte 2 bit src.code]
  | .resHl bit => [prefixByte, opByte 2 bit 6]
  | .setR bit src => [prefixByte, opByte 3 bit src.code]
  | .setHl bit => [prefixByte, opByte 3 bit 6]

/-! ### Words numbered as `opcode_table.json` numbers them -/

/-- The bytes of a table word, first byte first and padded with zeros to three bytes.  The table
numbers a prefixed row as `0xCB00 | op2` (R133), so its first byte is bits 15 to 8; in any other word
the first byte is bits 7 to 0 (log entry 14). -/
def tableBytes (nbits w : Nat) : List Byte :=
  if nbits = 16 ∧ w / 256 % 256 = 0xCB then [prefixByte, BitVec.ofNat 8 w, 0]
  else [BitVec.ofNat 8 w, BitVec.ofNat 8 (w / 256), BitVec.ofNat 8 (w / 65536)]

/-- The instruction the decoder reads from a table word. -/
def decodeTableWord (nbits w : Nat) : Option Instr :=
  match decode (tableBytes nbits w) with
  | .ok (i, _) => some i
  | .error _ => none

end Sys2Proof
end

