-- ==== Sys2Proof/Machine/Fetch.lean ====
section
/-!
DEFINITION. Fetching and decoding one instruction (`40_step_and_nop.md` R151, R152, R154), and
placing an instruction where the next step fetches it.

All of an instruction's bytes are fetched before its meaning runs.  That is the order of the rules:
every handler fetches its immediate bytes first, and a read changes no state (`20_memory.md` R103).
-/

namespace Sys2Proof.Machine

/-- `Fetch8` (`00_scope.md` R12): the byte at PC, then PC + 1; a read beyond the image leaves PC. -/
def fetch8 (s : State) : Except Fault (Byte × State) :=
  match read8 s s.regs.pc with
  | .ok v => .ok (v, s.setPc (s.regs.pc + 1))
  | .error index => .error (faultOf (.romIndexOutOfRange index) s)

/-- The end of a decode: the instruction, if it has a handler in the active profile, and the fault
`UnsupportedOpcode` if it has none (R154). -/
def selectHandler (code : Word) (i : Instr) (s : State) : Except Fault (Instr × State) :=
  if hasHandler s.params.profile i then .ok (i, s)
  else .error (faultOf (.unsupportedOpcode code) s)

/-- The operand bytes of an unprefixed instruction of the given length, and the instruction. -/
def fetchOperands (op : Byte) (length : Nat) (head : Instr) (s : State) :
    Except Fault (Instr × State) :=
  match length with
  | 3 =>
    match fetch8 s with
    | .error f => .error f
    | .ok (n1, s1) =>
      match fetch8 s1 with
      | .error f => .error f
      | .ok (n2, s2) => .ok ((decodePlain op n1 n2).getD head, s2)
  | 2 =>
    match fetch8 s with
    | .error f => .error f
    | .ok (n1, s1) => .ok ((decodePlain op n1 0).getD head, s1)
  | _ => .ok (head, s)

/-- The instruction at PC and the state with PC past its bytes.  The handler is selected by the opcode
byte alone, or by the byte after the prefix, before an operand byte is fetched (R152, R154). -/
def fetchInstr (s : State) : Except Fault (Instr × State) :=
  match fetch8 s with
  | .error f => .error f
  | .ok (op, s1) =>
    if op = prefixByte then
      match fetch8 s1 with
      | .error f => .error f
      | .ok (op2, s2) => selectHandler (wordOf prefixByte op2) (decodePrefixed op2) s2
    else
      match decodePlain op 0 0 with
      | none => .error (faultOf (.unsupportedOpcode (wordOf 0 op)) s1)
      | some head =>
        match selectHandler (wordOf 0 op) head s1 with
        | .error f => .error f
        | .ok (_, s2) => fetchOperands op (instrLength op) head s2

/-- Makes the byte that a fetch at an address reads equal to `v`.  In the ROM areas it is the
cartridge image that holds it (and is at least that long), with the copy of bank 0 in `flat`
(`10_state.md` R57).  The read of 0xFF00 is computed and cannot be placed. -/
def placeByte (s : State) (a : Word) (v : Byte) : State :=
  let image (i : Nat) : Image :=
    { length := max s.cartridgeRom.length (i + 1)
      cells := s.cartridgeRom.cells.write zeroInitial i v }
  if a.toNat < 0x4000 then { s.setFlat a.toNat v with cartridgeRom := image a.toNat }
  else if a.toNat ≤ 0x7FFF then { s with cartridgeRom := image (romIndex s a) }
  else if 0xA000 ≤ a.toNat ∧ a.toNat ≤ 0xBFFF then s.setRam (ramIndex s a) v
  else s.setFlat a.toNat v

/-- Three bytes placed from PC on. -/
def placeBytes (s : State) (b0 b1 b2 : Byte) : State :=
  placeByte (placeByte (placeByte s s.regs.pc b0) (s.regs.pc + 1) b1) (s.regs.pc + 2) b2

/-- The three bytes of a table word placed where the next step fetches.  What that takes besides the
bytes: no fault latched (a stopped machine fetches nothing, `60_exceptions.md` R331); a PC from which
none of the three addresses is 0xFF00, else the entry point 0x0100; and, for an instruction of
profile EXT, a machine constructed with that profile (log entries 1 and 2). -/
def withFetchBytes (s : State) (bytes : List Byte) : State :=
  let onJoyp := 0xFEFE ≤ s.regs.pc.toNat ∧ s.regs.pc.toNat ≤ 0xFF00
  let s1 := { s with fault := none }
  let s2 := if onJoyp then s1.setPc 0x0100 else s1
  let s3 :=
    match decode bytes with
    | .ok (i, _) =>
      if hasHandler s2.params.profile i then s2
      else { s2 with params := { s2.params with profile := .ext } }
    | .error _ => s2
  placeBytes s3 (bytes.getD 0 0) (bytes.getD 1 0) (bytes.getD 2 0)

end Sys2Proof.Machine
end

