-- ==== Sys2Proof/Machine/Ppu.lean ====
section
/-!
DEFINITION. The pixel renderer (`61_ppu.md`).  All accesses are direct.
-/

namespace Sys2Proof.Machine

/-! ### The mode and the coincidence flag -/

/-- The mode of a line and a counter value (R392, R394). -/
def ppuMode (ly : Nat) (counter : Int) : Nat :=
  if ly ≥ 144 then 1
  else if counter ≥ 376 then 2
  else if counter ≥ 204 then 3
  else 0

/-- Whether STAT enables the interrupt of a mode (R395): bit 3 for mode 0, 4 for mode 1, 5 for mode
2; mode 3 has none. -/
def modeInterruptEnabled (stat : Byte) (mode : Nat) : Bool :=
  match mode with
  | 0 => bitOf stat 3
  | 1 => bitOf stat 4
  | 2 => bitOf stat 5
  | _ => false

/-- STAT with its mode field written (R391). -/
def withMode (stat : Byte) (mode : Nat) : Byte := (stat &&& 0xFC) ||| BitVec.ofNat 8 (mode % 4)

/-- `UpdateStat` with the LCD off (R393). -/
def lcdOff (s : State) : State :=
  { (s.setFlat 0xFF44 0).setFlat 0xFF41 (withMode (s.flatAt 0xFF41) 1) with scanlineCounter := 456 }

/-- `UpdateStat` with the LCD on (R392, R395, R396). -/
def updateStatOn (s : State) : State :=
  let stat := s.flatAt 0xFF41
  let mode := ppuMode (s.flatAt 0xFF44).toNat s.scanlineCounter
  let coincident := s.flatAt 0xFF44 == s.flatAt 0xFF45
  let s1 :=
    if modeInterruptEnabled stat mode && decide (mode ≠ fieldOf stat 0 2) then requestInterrupt .stat s
    else s
  let s2 := if coincident && bitOf stat 6 then requestInterrupt .stat s1 else s1
  s2.setFlat 0xFF41 (withBit (withMode stat mode) 2 coincident)

/-! ### Background and window -/

/-- The colour of a shade (R418). -/
def shadeRgb (s : State) (shade : Nat) : Config.Rgb :=
  match shade with
  | 0 => s.params.rgb.shade0
  | 1 => s.params.rgb.shade1
  | 2 => s.params.rgb.shade2
  | _ => s.params.rgb.shade3

/-- `shade = (P >> (2*idx)) & 3` (R417). -/
def paletteShade (palette : Byte) (idx : Nat) : Nat := fieldOf palette (2 * idx) 2

/-- The colour index at bit `b` of the two plane bytes at `t` and `t + 1` (R416). -/
def planeIndex (s : State) (t b : Nat) : Nat :=
  2 * (bitOf (s.flatAt (t + 1)) b).toNat + (bitOf (s.flatAt t) b).toNat

/-- The address of a background or window tile (R415). -/
def tileAddress (lcdc t : Byte) : Nat :=
  if bitOf lcdc 4 then 0x8000 + t.toNat * 16 else (0x9000 + sextInt t * 16).toNat

/-- The colour index of a tile-map cell's pixel: `x`, `y` in the map at `map` (R411, R415, R416). -/
def mapIndex (s : State) (map x y : Nat) : Nat :=
  let t := s.flatAt (map + y / 8 * 32 + x / 8)
  planeIndex s (tileAddress (s.flatAt 0xFF40) t + 2 * (y % 8)) (7 - x % 8)

/-- Whether the window covers a pixel (R413, R414). -/
def inWindow (s : State) (px ly : Nat) : Bool :=
  bitOf (s.flatAt 0xFF40) 5 && decide ((s.flatAt 0xFF4A).toNat ≤ ly) &&
    decide ((px : Int) ≥ (s.flatAt 0xFF4B).toNat - 7)

/-- The colour index of the background and window at a pixel (R411 to R416, R419). -/
def tilePixelIndex (s : State) (px ly : Nat) : Nat :=
  let lcdc := s.flatAt 0xFF40
  if inWindow s px ly then
    mapIndex s (if bitOf lcdc 6 then 0x9C00 else 0x9800)
      ((px : Int) - ((s.flatAt 0xFF4B).toNat - 7)).toNat (ly - (s.flatAt 0xFF4A).toNat)
  else
    mapIndex s (if bitOf lcdc 3 then 0x9C00 else 0x9800)
      (((s.flatAt 0xFF43).toNat + px) % 256) (((s.flatAt 0xFF42).toNat + ly) % 256)

/-- The framebuffer with the background or window pixel of column `px` of line `ly` drawn (R419). -/
def drawTilePixel (s : State) (ly : Nat) (m : Memory) (px : Nat) : Memory :=
  drawPixel m px ly (shadeRgb s (paletteShade (s.flatAt 0xFF47) (tilePixelIndex s px ly)))

/-- `RenderTiles` (R419): all 160 pixels of the line. -/
def drawTiles (s : State) (ly : Nat) (m : Memory) : Memory :=
  (List.range 160).foldl (drawTilePixel s ly) m

/-! ### Sprites -/

/-- Height of a sprite (R421). -/
def spriteHeight (s : State) : Nat := if bitOf (s.flatAt 0xFF40) 2 then 16 else 8

/-- Byte `k` of OAM entry `n` (R420). -/
def oamByte (s : State) (n k : Nat) : Byte := s.flatAt (0xFE00 + 4 * n + k)

/-- The row of sprite `n` that line `ly` shows, after the vertical flip, if the sprite is on the line
(R421). -/
def spriteRow (s : State) (n ly : Nat) : Option Nat :=
  let sy : Int := (oamByte s n 0).toNat - 16
  let h := spriteHeight s
  if sy ≤ ly ∧ (ly : Int) < sy + h then
    let r := ((ly : Int) - sy).toNat
    some (if bitOf (oamByte s n 3) 6 then h - 1 - r else r)
  else none

/-- The shade of column `k` of row `r` of sprite `n` (R421, R417). -/
def spriteShade (s : State) (n r k : Nat) : Nat :=
  let at3 := oamByte s n 3
  let t := 0x8000 + (oamByte s n 2).toNat * 16 + 2 * r
  paletteShade (if bitOf at3 4 then s.flatAt 0xFF49 else s.flatAt 0xFF48)
    (planeIndex s t (if bitOf at3 5 then k else 7 - k))

/-- One pixel of a sprite: skipped when its shade is 0 (R423) or its column is off the screen
(R424). -/
def drawSpritePixel (s : State) (ly n r : Nat) (m : Memory) (k : Nat) : Memory :=
  let px : Int := (oamByte s n 1).toNat - 8 + k
  if spriteShade s n r k = 0 then m
  else if 0 ≤ px ∧ px < 160 then drawPixel m px.toNat ly (shadeRgb s (spriteShade s n r k))
  else m

/-- Sprite `n` drawn on line `ly` (R421). -/
def drawSprite (s : State) (ly : Nat) (m : Memory) (n : Nat) : Memory :=
  match spriteRow s n ly with
  | some r => (List.range 8).foldl (drawSpritePixel s ly n r) m
  | none => m

/-- `RenderSprites` (R421, R422): entries 0 to 39, a later one on top. -/
def drawSprites (s : State) (ly : Nat) (m : Memory) : Memory :=
  (List.range 40).foldl (drawSprite s ly) m

/-! ### Lines -/

/-- `RenderLine` (R410): only the framebuffer changes, so every pixel is computed from the state in
which the line is drawn. -/
def renderLine (ly : Nat) (s : State) : State :=
  let tiles := if bitOf (s.flatAt 0xFF40) 0 then drawTiles s ly s.screen else s.screen
  { s with screen := if bitOf (s.flatAt 0xFF40) 1 then drawSprites s ly tiles else tiles }

/-- `AdvanceLine` (R400): the three conditions are alternatives; line 0 is drawn at the wrap only
under `RENDER_LINE0_ON_WRAP` (R402). -/
def advanceLine (s : State) : State :=
  let line := (s.flatAt 0xFF44).toNat + 1
  let s1 := { s.setFlat 0xFF44 (BitVec.ofNat 8 line) with scanlineCounter := 456 }
  if line = 144 then requestInterrupt .vblank s1
  else if line > 153 then
    let s2 := s1.setFlat 0xFF44 0
    if s2.params.renderLine0OnWrap then renderLine 0 s2 else s2
  else if line < 144 then renderLine line s1
  else s1

/-- `AdvanceGraphics` (R390): the status update first, then the counter. -/
def advanceGraphics (cost : Nat) (s : State) : State :=
  if bitOf (s.flatAt 0xFF40) 7 then
    let s1 := updateStatOn s
    if s1.scanlineCounter - cost ≤ 0 then
      advanceLine { s1 with scanlineCounter := s1.scanlineCounter - cost }
    else { s1 with scanlineCounter := s1.scanlineCounter - cost }
  else lcdOff s

end Sys2Proof.Machine
end

