-- ==== Sys2Proof/Machine/Timer.lean ====
section
/-!
DEFINITION. The divider and the main timer (`60_exceptions.md` section 5).  All accesses are direct.
-/

namespace Sys2Proof.Machine

/-- `AdvanceDivider` (R355): at most one DIV increment a step, the excess is discarded. -/
def advanceDivider (cost : Nat) (s : State) : State :=
  if s.dividerCounter + cost ≥ 255 then
    { s.setFlat 0xFF04 (s.flatAt 0xFF04 + 1) with dividerCounter := 0 }
  else { s with dividerCounter := s.dividerCounter + cost }

/-- The TIMA increment, with the reload from TMA and the request at 255 (R358). -/
def tickTima (s : State) : State :=
  if s.flatAt 0xFF05 = 255 then requestInterrupt .timer (s.setFlat 0xFF05 (s.flatAt 0xFF06))
  else s.setFlat 0xFF05 (s.flatAt 0xFF05 + 1)

/-- `AdvanceMainTimer` (R358): active only with TAC bit 2; at most one TIMA increment a step. -/
def advanceMainTimer (cost : Nat) (s : State) : State :=
  if bitOf (s.flatAt 0xFF07) 2 then
    if s.timerCounter - cost ≤ 0 then
      tickTima { s with timerCounter := timerPeriod (s.flatAt 0xFF07) }
    else { s with timerCounter := s.timerCounter - cost }
  else s

/-- `AdvanceTimers` (R354). -/
def advanceTimers (cost : Nat) (s : State) : State := advanceMainTimer cost (advanceDivider cost s)

end Sys2Proof.Machine
end

