-- ==== Sys2Proof/Machine/Phases.lean ====
section
/-!
DEFINITION. What a step does around the execution of its instruction (`40_step_and_nop.md` R150).
-/

namespace Sys2Proof.Machine

/-- `armed <- eiPending; eiPending <- false`, before the fetch (R150, `48_ext_control.md` R295). -/
def arm (s : State) : State := { s with armed := s.eiPending, eiPending := false }

/-- `if armed: IME <- true`, after the execution; the latch of the step is done with (R150). -/
def commitArmed (s : State) : State :=
  if s.armed then { s with ime := true, armed := false } else s

/-- The phases after the execution, in the contractual order (`60_exceptions.md` R334): the delayed
enable, the timers and the PPU by the cost the instruction returned, then the interrupt dispatch. -/
def afterExecution (s : State) : Out :=
  let s1 := commitArmed s
  dispatchInterrupts (advanceGraphics s.lastCost (advanceTimers s.lastCost s1))

end Sys2Proof.Machine
end

