-- ==== Sys2Proof/Machine/Step.lean ====
section
/-!
DEFINITION. One step of the machine (`40_step_and_nop.md` R150), and the state whose next step runs a
given instruction.
-/

namespace Sys2Proof.Machine

/-- `Step` (R150).  With a fault latched it answers that fault again and changes nothing
(`60_exceptions.md` R331).  The cycle cost it returns is `lastCost` of the next state. -/
def step (s : State) : Host.Outcome State Fault Refusal :=
  match s.fault with
  | some cause => .fault (faultOf cause s)
  | none =>
    match fetchInstr (arm s) with
    | .error f => .fault f
    | .ok (i, s1) => andThen (exec i s1) afterExecution

/-- The state whose next step fetches and runs the instruction of a table word
(Machine/Fetch.lean). -/
def State.withFetchWord (s : State) (nbits w : Nat) : State := withFetchBytes s (tableBytes nbits w)

end Sys2Proof.Machine
end

