-- ==== Sys2Proof/Machine/Boot.lean ====
section
/-!
DEFINITION. Construction of the machine, the only reset (`70_reset_and_hazards.md` R440,
`10_state.md` R53 to R58).
-/

namespace Sys2Proof.Machine

/-- A cartridge image of the given bytes. -/
def Image.ofBytes (bytes : List Byte) : Image where
  length := bytes.length
  cells := (bytes.zipIdx.filter fun p => p.1 ≠ 0).map fun p => (p.2, p.1)

/-- The kind of bank controller of an image (`20_memory.md` R80): byte 0x147, and none for an image
too short to have it. -/
def Image.kind (img : Image) : BankingMode :=
  if img.length < 0x148 then .none
  else
    match (img.byteAt 0x147).toNat with
    | 1 | 2 | 3 => .mbc1
    | 5 | 6 => .mbc2
    | _ => .none

/-- The addresses of the I/O bytes (R55): 0xFF00 to 0xFF7F, and IE. -/
def ioAddresses : List Nat := List.range' 0xFF00 0x80 ++ [0xFFFF]

/-- `flat` with the bytes of a list stored from an address on, by direct access. -/
def overlay (m : Memory) : Nat → List Byte → Memory
  | _, [] => m
  | k, v :: rest => overlay (m.write flatInitial k v) (k + 1) rest

/-- `flat` at power-on: the first 0x8000 bytes of the image (R57).  With a bootstrap image, its bytes overlaid
from address 0 on, every one of them that has a cell in `flat`, and then every I/O byte 0x00 (R58, R440;
log entry 10). -/
def flatAtPowerOn (img : Image) (boot : Option (List Byte)) : Memory :=
  let copy := img.cells.filter fun c => decide (c.1 < 0x8000 ∧ c.1 < img.length)
  match boot with
  | none => copy
  | some bytes =>
    ioAddresses.foldl (fun m k => m.write flatInitial k 0) (overlay copy 0 (bytes.take flatSize))

/-- The registers with a bootstrap image present (R58, D24; log entry 10). -/
def Registers.bootImage : Registers where
  a := 0
  f := 0
  b := 0
  c := 0
  d := 0
  e := 0
  h := 0
  l := 0
  sp := 0
  pc := 0

/-- `construct(cartridgeRom, bootImage?, parameters)` (R440, `60_exceptions.md` R370). -/
def State.construct (img : Image) (boot : Option (List Byte)) (params : Config.Params) : State where
  regs := if boot.isSome then Registers.bootImage else Registers.powerOn
  ime := params.imeReset
  eiPending := false
  armed := false
  flat := flatAtPowerOn img boot
  cartridgeRom := img
  bankingMode := img.kind
  ramBanks := []
  currentRomBank := 1
  currentRamBank := 0
  ramEnabled := false
  romBankingSelect := true
  screen := []
  dividerCounter := 0
  timerCounter := 1024
  scanlineCounter := 456
  joypadState := 0xFF
  fault := none
  lastCost := 0
  params := params

end Sys2Proof.Machine
end

