-- ==== Sys2Proof/Machine/Joypad.lean ====
section
/-!
DEFINITION. The key inputs of the host (`60_exceptions.md` R366 to R368).  They act between steps
(R371).
-/

namespace Sys2Proof.Machine

/-- Whether the group of a key is selected by the stored select byte (R366): keys 0 to 3 by bit 4,
keys 4 to 7 by bit 5, active when 0. -/
def keyGroupSelected (s : State) (key : Nat) : Bool :=
  if key ≤ 3 then !bitOf (s.flatAt 0xFF00) 4 else !bitOf (s.flatAt 0xFF00) 5

/-- `keyPressed(key)` (R366, R368). -/
def keyPressed (key : Nat) (s : State) : Out :=
  if key < 8 then
    if bitOf s.joypadState key then
      let s1 := { s with joypadState := withBit s.joypadState key false }
      .next (if keyGroupSelected s1 key then requestInterrupt .joypad s1 else s1)
    else .next s
  else .refused (.keyOutOfRange key)

/-- `keyReleased(key)` (R367, R368). -/
def keyReleased (key : Nat) (s : State) : Out :=
  if key < 8 then .next { s with joypadState := withBit s.joypadState key true }
  else .refused (.keyOutOfRange key)

end Sys2Proof.Machine
end

