-- ==== Sys2Proof/Machine/HostCalls.lean ====
section
/-!
DEFINITION. The host interface (`60_exceptions.md` section 8): the calls the host may make between
steps.
-/

namespace Sys2Proof.Machine

/-- The loop of `RunFrame` (R372) with `fuel` steps at most and `acc` cycles accumulated. -/
def runFrameFrom : (fuel acc : Nat) → State → Out
  | 0, _, s => .next s
  | fuel + 1, acc, s =>
    if acc < s.params.frameBudget.val then
      andThen (step s) fun t => runFrameFrom fuel (acc + t.lastCost) t
    else .next s

/-- `RunFrame` (R372): steps until the budget is met; the framebuffer is `screen` of the state it
answers.  A step costs at least one cycle, so the budget bounds the number of steps. -/
def runFrame (s : State) : Out := runFrameFrom s.params.frameBudget.val 0 s

/-- The calls of R370 after construction; reading `screen` changes nothing. -/
inductive HostCall where
  | step
  | runFrame
  | keyPressed (key : Nat)
  | keyReleased (key : Nat)
  deriving DecidableEq, Repr

/-- What a host call does; each acts between steps (R371). -/
def hostCall : HostCall → State → Out
  | .step, s => step s
  | .runFrame, s => runFrame s
  | .keyPressed key, s => keyPressed key s
  | .keyReleased key, s => keyReleased key s

end Sys2Proof.Machine
end

