-- ==== Sys2Proof/Safety.lean ====
section
/-!
DEFINITION. What holds of every state a run reaches (`70_reset_and_hazards.md` R462), and the words the
statements use for what an instruction leaves alone.
-/

namespace Sys2Proof.Machine

/-- Every memory is in its canonical form and inside its size. -/
structure State.MemoriesWf (s : State) : Prop where
  flat_wf : Memory.wf flatInitial s.flat = true
  flat_below : Memory.below flatSize s.flat = true
  rom_wf : Memory.wf zeroInitial s.cartridgeRom.cells = true
  ram_wf : Memory.wf zeroInitial s.ramBanks = true
  ram_below : Memory.below ramSize s.ramBanks = true
  screen_wf : Memory.wf zeroInitial s.screen = true
  screen_below : Memory.below screenSize s.screen = true

/-- The bank registers stay in range (R462): a ROM bank is never 0, a RAM bank is at most 3. -/
structure State.BanksInRange (s : State) : Prop where
  rom_pos : 1 ≤ s.currentRomBank.toNat
  ram_le : s.currentRamBank.toNat ≤ 3

/-- The hidden counters and the line stay in range (R462, `10_state.md` R36, R50). -/
structure State.CountersInRange (s : State) : Prop where
  divider : 0 ≤ s.dividerCounter ∧ s.dividerCounter ≤ 254
  timer : 1 ≤ s.timerCounter ∧ s.timerCounter ≤ 1024
  scanline : 1 ≤ s.scanlineCounter ∧ s.scanlineCounter ≤ 456
  line : (s.flatAt 0xFF44).toNat ≤ 153

/-- The cells no write can change keep 0x00: the DMA register and the restricted range (R462). -/
structure State.DeadCells (s : State) : Prop where
  dma : s.flatAt 0xFF46 = 0
  restricted : ∀ k, 0xFEA0 ≤ k → k ≤ 0xFEFE → s.flatAt k = 0

/-- What holds at every point of a run (R462): the memories are canonical and inside their sizes, the
bank registers, the counters and the line are in range, and the dead cells are 0x00. -/
structure State.Sound (s : State) : Prop where
  memories : s.MemoriesWf
  banks : s.BanksInRange
  counters : s.CountersInRange
  dead : s.DeadCells

/-- The invariant of a run at step boundaries (R462): `Sound`, with the latch of the step not armed. -/
structure State.Inv (s : State) : Prop extends State.Sound s where
  unarmed : s.armed = false

/-- A run is safe as long as no fault is latched. -/
abbrev State.Running (s : State) : Prop := s.fault = none

/-- `t` is `s` but for the register file and the returned cost: memory, every device, the interrupt
state and the parameters are unchanged. -/
abbrev SameButRegs (s t : State) : Prop := t = { s with regs := t.regs, lastCost := t.lastCost }

/-- `t` is `s` but for what a write through the write path may change: the two stores, the bank
controller's registers, and `timerCounter` (`20_memory.md` R70 to R91). -/
abbrev OnlyStores (s t : State) : Prop :=
  t = { s with
    flat := t.flat, ramBanks := t.ramBanks, currentRomBank := t.currentRomBank,
    currentRamBank := t.currentRamBank, ramEnabled := t.ramEnabled,
    romBankingSelect := t.romBankingSelect, timerCounter := t.timerCounter }

/-- `t` is `s` but for what the timer and the PPU own: `flat` (DIV, TIMA, STAT, LY and IF of it), the
three counters and the framebuffer (`60_exceptions.md` section 5, `61_ppu.md`). -/
abbrev OnlyDevices (s t : State) : Prop :=
  t = { s with
    flat := t.flat, dividerCounter := t.dividerCounter, timerCounter := t.timerCounter,
    scanlineCounter := t.scanlineCounter, screen := t.screen }

/-- The bytes of `flat` the timer and the PPU write: DIV, TIMA, IF, STAT and LY. -/
def deviceRegisters : List Nat := [0xFF04, 0xFF05, 0xFF0F, 0xFF41, 0xFF44]

/-- The addresses whose byte, as `Read8` gives it, a store to `a` may change (`20_memory.md` R70 to
R79): below 0x8000 nothing is stored, but a bank register may change what the two banked windows show;
none in the restricted range; the address and the one 0x2000 below it in the echo range; the sprite
table for a store to the DMA register; the address itself otherwise. -/
def storeReaches (a b : Word) : Prop :=
  if a.toNat < 0x8000 then
    (0x4000 ≤ b.toNat ∧ b.toNat ≤ 0x7FFF) ∨ (0xA000 ≤ b.toNat ∧ b.toNat ≤ 0xBFFF)
  else if 0xE000 ≤ a.toNat ∧ a.toNat ≤ 0xFDFF then b = a ∨ b.toNat + 0x2000 = a.toNat
  else if 0xFEA0 ≤ a.toNat ∧ a.toNat ≤ 0xFEFE then False
  else if a.toNat = 0xFF46 then 0xFE00 ≤ b.toNat ∧ b.toNat ≤ 0xFE9F
  else b = a

/-- The bytes that fetches from PC on read, in order. -/
abbrev BytesAtPc (s : State) (bytes : List Byte) : Prop :=
  ∀ (k : Nat) (v : Byte), bytes[k]? = some v → read8 s (s.regs.pc + BitVec.ofNat 16 k) = .ok v

/-! ### Results -/

/-- The byte F holds the four given flags, Z in bit 7, N in bit 6, H in bit 5, C in bit 4, and the low
nibble it had before (`10_state.md` R30, R25, `00_scope.md` R15). -/
structure FlagsAre (before after : Byte) (z n h c : Bool) : Prop where
  z : after.getLsbD 7 = z
  n : after.getLsbD 6 = n
  h : after.getLsbD 5 = h
  c : after.getLsbD 4 = c
  low : after.toNat % 16 = before.toNat % 16

/-- The operation completes with the given register file and cost: memory, every device, the interrupt
state and the parameters are those of `s`. -/
abbrev LeavesRegs (o : Out) (s : State) (r : Registers) (cost : Nat) : Prop :=
  o = .next { s with regs := r, lastCost := cost }

/-- The operation completes with A and the flags as given; everything else is as in `s`. -/
def LeavesA (o : Out) (s : State) (a : Byte) (z n h c : Bool) (cost : Nat) : Prop :=
  ∃ f, FlagsAre s.regs.f f z n h c ∧ LeavesRegs o s { s.regs with a := a, f := f } cost

/-- The operation completes with the flags as given; everything else is as in `s`. -/
def LeavesFlags (o : Out) (s : State) (z n h c : Bool) (cost : Nat) : Prop :=
  ∃ f, FlagsAre s.regs.f f z n h c ∧ LeavesRegs o s { s.regs with f := f } cost

/-- The operation completes with one register and the flags as given; everything else is as in `s`. -/
def LeavesReg (o : Out) (s : State) (dst : Reg8) (v : Byte) (z n h c : Bool) (cost : Nat) : Prop :=
  ∃ f, FlagsAre s.regs.f f z n h c ∧ LeavesRegs o s { s.regs.set dst v with f := f } cost

/-- The operation stores `v` at `a`, and leaves the given register file and cost.  At any address but
0xFF46 it completes: the state is that of the write path's store, which changes nothing but what a store
may change, and every byte that the store does not reach reads as before.  At 0xFF46 it ends as the DMA copy ends. -/
def StoresTo (o : Out) (s : State) (a : Word) (v : Byte) (r : Registers) (cost : Nat) : Prop :=
  (a.toNat ≠ 0xFF46 →
    o = .next { storeByte s a v with regs := r, lastCost := cost } ∧
    OnlyStores s (storeByte s a v) ∧
    ∀ b : Word, ¬ storeReaches a b →
      read8 { storeByte s a v with regs := r, lastCost := cost } b = read8 s b) ∧
  (a.toNat = 0xFF46 →
    (∀ w, dmaTransfer v s = .next w → o = .next { w with regs := r, lastCost := cost }) ∧
    ∀ f, dmaTransfer v s = .fault f → o = .fault f)

/-- The operation stores `v` at `a` and leaves the flags as given, with everything else as `StoresTo`
says. -/
def StoresFlags (o : Out) (s : State) (a : Word) (v : Byte) (z n h c : Bool) (cost : Nat) : Prop :=
  ∃ f, FlagsAre s.regs.f f z n h c ∧ StoresTo o s a v { s.regs with f := f } cost

/-- `t` is `s` after the two byte writes of `Push16 v`: the high byte at SP - 1, the low byte at SP - 2
(`60_exceptions.md` R346). -/
def Pushes (s : State) (v : Word) (t : State) : Prop :=
  ∃ u, write8 (s.regs.sp - 1) (hiByte v)
        { s with regs := { s.regs with sp := s.regs.sp - 1 } } = .next u ∧
    write8 (s.regs.sp - 2) (loByte v)
        { u with regs := { s.regs with sp := s.regs.sp - 2 } } = .next t

/-- `Push16 v` ends in the fault of one of its two byte writes, a DMA copy that stops. -/
def PushStops (s : State) (v : Word) (f : Fault) : Prop :=
  write8 (s.regs.sp - 1) (hiByte v)
      { s with regs := { s.regs with sp := s.regs.sp - 1 } } = .fault f ∨
  ∃ u, write8 (s.regs.sp - 1) (hiByte v)
        { s with regs := { s.regs with sp := s.regs.sp - 1 } } = .next u ∧
    write8 (s.regs.sp - 2) (loByte v)
        { u with regs := { s.regs with sp := s.regs.sp - 2 } } = .fault f

/-- The operation pushes `v`, goes to `pc` and returns its cost.  It completes whenever the two writes do,
and always when neither address is 0xFF46; then SP is 2 less, no other register changes, and every byte
that neither store reaches reads as before.  Where a write stops, the operation ends in its fault. -/
def PushesThen (o : Out) (s : State) (v pc : Word) (cost : Nat) : Prop :=
  (∀ t, Pushes s v t →
    o = .next { t with regs := { s.regs with sp := s.regs.sp - 2, pc := pc }, lastCost := cost }) ∧
  (∀ f, PushStops s v f → o = .fault f) ∧
  ((s.regs.sp - 1).toNat ≠ 0xFF46 → (s.regs.sp - 2).toNat ≠ 0xFF46 →
    ∃ t, Pushes s v t ∧
      o = .next { t with regs := { s.regs with sp := s.regs.sp - 2, pc := pc }, lastCost := cost } ∧
      OnlyStores { s with regs := t.regs } t ∧
      ∀ b : Word, ¬ storeReaches (s.regs.sp - 1) b → ¬ storeReaches (s.regs.sp - 2) b →
        read8 t b = read8 s b)

/-- A condition holds of the byte F (`30_encoding.md` R125): NZ and Z test bit 7, NC and C bit 4. -/
def CondHolds (f : Byte) : Cond → Prop
  | .nz => f.getLsbD 7 = false
  | .z => f.getLsbD 7 = true
  | .nc => f.getLsbD 4 = false
  | .c => f.getLsbD 4 = true

/-- A sprite shows an opaque pixel of the given shade at column `x` of line `ly` (`61_ppu.md` R421). -/
def SpriteShows (s : State) (ly n x shade : Nat) : Prop :=
  ∃ r k : Nat,
    k < 8 ∧
    (x : Int) = (s.flatAt (0xFE00 + 4 * n + 1)).toNat - 8 + k ∧
    ((s.flatAt (0xFE00 + 4 * n)).toNat - 16 : Int) ≤ ly ∧
    (ly : Int) < (s.flatAt (0xFE00 + 4 * n)).toNat - 16 + (if (s.flatAt 0xFF40).getLsbD 2 then 16 else 8) ∧
    (r : Int) =
      (if (s.flatAt (0xFE00 + 4 * n + 3)).getLsbD 6 then
        (if (s.flatAt 0xFF40).getLsbD 2 then 16 else 8) - 1
          - ((ly : Int) - ((s.flatAt (0xFE00 + 4 * n)).toNat - 16))
      else (ly : Int) - ((s.flatAt (0xFE00 + 4 * n)).toNat - 16)) ∧
    shade =
      (if (s.flatAt (0xFE00 + 4 * n + 3)).getLsbD 4 then s.flatAt 0xFF49 else s.flatAt 0xFF48).toNat
        / 4 ^ (2 * ((s.flatAt (0x8000 + (s.flatAt (0xFE00 + 4 * n + 2)).toNat * 16 + 2 * r + 1)).getLsbD
                (if (s.flatAt (0xFE00 + 4 * n + 3)).getLsbD 5 then k else 7 - k)).toNat
            + ((s.flatAt (0x8000 + (s.flatAt (0xFE00 + 4 * n + 2)).toNat * 16 + 2 * r)).getLsbD
                (if (s.flatAt (0xFE00 + 4 * n + 3)).getLsbD 5 then k else 7 - k)).toNat) % 4

/-- The steps of a run: `n` steps from `s` to `t`, whose costs add up to `acc`. -/
def RunsTo : (n : Nat) → (s : State) → (acc : Nat) → (t : State) → Prop
  | 0, s, acc, t => acc = 0 ∧ t = s
  | n + 1, s, acc, t =>
    ∃ u rest, step s = .next u ∧ RunsTo n u rest t ∧ acc = u.lastCost + rest

end Sys2Proof.Machine
end

