-- ==== Sys2Proof/WellFormed.lean ====
section
/-!
DEFINITION. Which terms of `Instr` are instructions.

A bit number and a restart number are 3-bit fields (`30_encoding.md` R126); every other operand is
well-formed by its type (R123 to R125, R127 to R129).
-/

namespace Sys2Proof

/-- The check of an instruction's number operands (R126). -/
def Instr.wellFormed : Instr → Bool
  | .bitR bit _ | .bitHl bit | .resR bit _ | .resHl bit | .setR bit _ | .setHl bit => decide (bit < 8)
  | .rst t => decide (t < 8)
  | .nop | .ldRR _ _ | .ldRHl _ | .ldHlR _ | .ldHlHl | .ldRN _ _ | .ldHlN _ | .ldABc | .ldADe
  | .ldBcA | .ldDeA | .ldANn _ | .ldNnA _ | .ldRrNn _ _ | .ldNnSp _ | .ldSpHl => true
  | .addR _ | .addHl | .addN _ | .adcR _ | .adcHl | .adcN _ | .subR _ | .subHl | .subN _
  | .sbcR _ | .sbcHl | .sbcN _ | .xorR _ | .xorHl | .xorN _ | .rra | .rrR _ | .rrHl => true
  | .ldHliA | .ldAHli | .ldHldA | .ldAHld | .ldhNA _ | .ldhAN _ | .ldCA | .ldAC | .ldHlSpE _
  | .push _ | .pop _ => true
  | .andR _ | .andHl | .andN _ | .orR _ | .orHl | .orN _ | .cpR _ | .cpHl | .cpN _
  | .incR _ | .incHl | .decR _ | .decHl | .incRr _ | .decRr _ | .addHlRr _ | .addSpE _
  | .daa | .cpl | .scf | .ccf | .rlca | .rla | .rrca => true
  | .jpNn _ | .jpCcNn _ _ | .jpHl | .jrE _ | .jrCcE _ _ | .callNn _ | .callCcNn _ _ | .ret
  | .retCc _ | .di | .ei | .reti => true
  | .rlcR _ | .rlcHl | .rrcR _ | .rrcHl | .rlR _ | .rlHl | .slaR _ | .slaHl | .sraR _ | .sraHl
  | .swapR _ | .swapHl | .srlR _ | .srlHl => true

/-- An instruction is well-formed when its number operands fit their fields. -/
abbrev Instr.WellFormed (i : Instr) : Prop := i.wellFormed = true

end Sys2Proof
end

