-- ==== Sys2Proof/Certificates/Slice0/Obligations.lean ====
section
/-!
DEFINITION. The statements about gbemu CORE.  The words they use are defined in Sys2Proof/Safety.lean.
-/

open Sys2Proof Sys2Proof.Machine

/-! ### Encoding -/

/-- Words written out from the encodings of `30_encoding.md`, one or more for every family, decode to the
instructions they stand for. -/
def Obligations.WrittenWordsDecode : Prop :=
  decode [0b00000000] = .ok (.nop, []) ∧
  decode [0b01111000] = .ok (.ldRR .a .b, []) ∧
  decode [0b01110110] = .ok (.ldHlHl, []) ∧
  decode [0b00111110, 0x05] = .ok (.ldRN .a 0x05, []) ∧
  decode [0b00100001, 0x34, 0x12] = .ok (.ldRrNn .hl 0x1234, []) ∧
  decode [0b10000000] = .ok (.addR .b, []) ∧
  decode [0b11011110, 0x7F] = .ok (.sbcN 0x7F, []) ∧
  decode [0b10101110] = .ok (.xorHl, []) ∧
  decode [0b00011111] = .ok (.rra, []) ∧
  decode [0b11001011, 0b00011110] = .ok (.rrHl, []) ∧
  decode [0b11001011, 0b01100101] = .ok (.bitR 4 .l, []) ∧
  decode [0b00101010] = .ok (.ldAHli, []) ∧
  decode [0b11110101] = .ok (.push .af, []) ∧
  decode [0b00100111] = .ok (.daa, []) ∧
  decode [0b11000100, 0x00, 0x20] = .ok (.callCcNn .nz 0x2000, []) ∧
  decode [0b00111000, 0xFC] = .ok (.jrCcE .c 0xFC, []) ∧
  decode [0b11101111] = .ok (.rst 5, []) ∧
  decode [0b11001011, 0b11111110] = .ok (.setHl 7, []) ∧
  decode [0b11001011, 0b00110111] = .ok (.swapR .a, [])

/-- Decoding the bytes of a well-formed instruction gives it back, whatever its operands, with the bytes
after it left over (`30_encoding.md` sections 1 to 3). -/
def Obligations.DecodeOfEncode : Prop :=
  ∀ i : Instr, i.WellFormed → ∀ rest : List Byte, decode (encode i ++ rest) = .ok (i, rest)

/-- What decodes is well formed, takes one to three bytes, and has one spelling: two byte sequences that
decode alike are the same (`30_encoding.md` sections 1 to 5). -/
def Obligations.OneSpellingPerInstruction : Prop :=
  ∀ (bytes other rest : List Byte) (i : Instr), decode bytes = .ok (i, rest) →
    i.WellFormed ∧ rest.length + 1 ≤ bytes.length ∧ bytes.length ≤ rest.length + 3 ∧
      (decode other = .ok (i, rest) → other = bytes)

/-- With three bytes at hand, decoding fails exactly on the twelve opcode bytes that have no handler in
either profile, and names the byte (`30_encoding.md` section 4). -/
def Obligations.TwelveBytesHaveNoHandler : Prop :=
  ∀ (op n1 n2 : Byte) (rest : List Byte),
    (op ∈ ([0x10, 0xD3, 0xDB, 0xDD, 0xE3, 0xE4, 0xEB, 0xEC, 0xED, 0xF4, 0xFC, 0xFD] : List Byte) →
      decode (op :: n1 :: n2 :: rest) = .error (.unsupportedOpcode op)) ∧
    (op ∉ ([0x10, 0xD3, 0xDB, 0xDD, 0xE3, 0xE4, 0xEB, 0xEC, 0xED, 0xF4, 0xFC, 0xFD] : List Byte) →
      ∃ i after, decode (op :: n1 :: n2 :: rest) = .ok (i, after))

/-! ### The step -/

/-- When the bytes at PC decode to an instruction that has a handler in the profile, the step runs it: the
pending enable moves to the step's latch before the fetch, PC passes the bytes, the instruction executes,
the latch sets IME, the timers and then the PPU advance by the returned cost, and the interrupt dispatch
comes last (`40_step_and_nop.md` section 1, `60_exceptions.md` section 2). -/
def Obligations.StepRunsDecodedInstruction : Prop :=
  ∀ (s : State) (bytes : List Byte) (i : Instr), s.fault = none →
    decode bytes = .ok (i, []) → BytesAtPc s bytes → hasHandler s.params.profile i = true →
    i.WellFormed ∧
    step s =
      andThen
        (exec i { s with
          armed := s.eiPending, eiPending := false,
          regs := { s.regs with pc := s.regs.pc + BitVec.ofNat 16 bytes.length } })
        fun u =>
          dispatchInterrupts
            (advanceGraphics u.lastCost
              (advanceTimers u.lastCost
                (if u.armed then { u with ime := true, armed := false } else u)))

/-- `NOP` changes nothing but PC and costs 4: the step of a zero byte advances the devices by 4 and
dispatches interrupts (`40_step_and_nop.md` R155). -/
def Obligations.NopOnlyAdvancesPc : Prop :=
  decode [0x00] = .ok (.nop, []) ∧
  (∀ s : State, exec .nop s = .next { s with lastCost := 4 }) ∧
  ∀ s : State, s.fault = none → s.eiPending = false → s.armed = false →
    read8 s s.regs.pc = .ok 0x00 →
    step s = dispatchInterrupts (advanceGraphics 4 (advanceTimers 4
      { s with regs := { s.regs with pc := s.regs.pc + 1 }, lastCost := 4 }))

/-- An opcode with no handler in the active profile stops the step: PC is past the opcode byte, or past
both bytes of a prefixed one, the latch holds the opcode, and nothing else of the state has changed but
the enable bookkeeping at the start of the step (`40_step_and_nop.md` section 1, decision D38). -/
def Obligations.UnsupportedOpcodeStops : Prop :=
  ∀ s : State, s.fault = none →
    (∀ op : Byte, read8 s s.regs.pc = .ok op → op ≠ 0xCB →
      (∀ i rest, decode [op, 0, 0] = .ok (i, rest) → hasHandler s.params.profile i = false) →
      step s = .fault (.unsupportedOpcode (wordOf 0x00 op)
        { s with
          armed := s.eiPending, eiPending := false,
          regs := { s.regs with pc := s.regs.pc + 1 },
          fault := some (.unsupportedOpcode (wordOf 0x00 op)) })) ∧
    (∀ op2 : Byte, read8 s s.regs.pc = .ok 0xCB → read8 s (s.regs.pc + 1) = .ok op2 →
      (∀ i rest, decode [0xCB, op2] = .ok (i, rest) → hasHandler s.params.profile i = false) →
      step s = .fault (.unsupportedOpcode (wordOf 0xCB op2)
        { s with
          armed := s.eiPending, eiPending := false,
          regs := { s.regs with pc := s.regs.pc + 2 },
          fault := some (.unsupportedOpcode (wordOf 0xCB op2)) }))

/-- A latched fault is final: `Step` and `RunFrame` answer it again with the state unchanged; the key
inputs still answer a next state and keep the latch (`60_exceptions.md` section 1, decision D38). -/
def Obligations.LatchedFaultIsFinal : Prop :=
  ∀ s : State,
    (∀ code, s.fault = some (.unsupportedOpcode code) →
      step s = .fault (.unsupportedOpcode code s) ∧ runFrame s = .fault (.unsupportedOpcode code s)) ∧
    (∀ index, s.fault = some (.romIndexOutOfRange index) →
      step s = .fault (.romIndexOutOfRange index s) ∧
        runFrame s = .fault (.romIndexOutOfRange index s)) ∧
    ∀ key, key < 8 →
      (∃ t, keyPressed key s = .next t ∧ t.fault = s.fault) ∧
        ∃ t, keyReleased key s = .next t ∧ t.fault = s.fault

/-- A step answers a next state, with a cost that is a multiple of 4 between 4 and 24, or one of the two
faults, which carries the state with the latch set to that fault; it never refuses
(`60_exceptions.md` section 1, `40_step_and_nop.md` section 1; that range of costs is the spec's general
knowledge, log entry 6). -/
def Obligations.StepEndsInNextOrLatchedFault : Prop :=
  ∀ s : State,
    (∃ t, step s = .next t ∧ 4 ≤ t.lastCost ∧ t.lastCost ≤ 24 ∧ t.lastCost % 4 = 0) ∨
    (∃ code t, step s = .fault (.unsupportedOpcode code t) ∧
      t.fault = some (.unsupportedOpcode code)) ∨
    ∃ index t, step s = .fault (.romIndexOutOfRange index t) ∧
      t.fault = some (.romIndexOutOfRange index)

/-! ### Construction and reset -/

/-- The register file at power-on without a bootstrap image (`10_state.md` R53). -/
def Obligations.ResetRegisters : Prop :=
  State.reset.regs.a = 0x01 ∧ State.reset.regs.f = 0xB0 ∧ State.reset.regs.b = 0x00 ∧
  State.reset.regs.c = 0x13 ∧ State.reset.regs.d = 0x00 ∧ State.reset.regs.e = 0xD8 ∧
  State.reset.regs.h = 0x01 ∧ State.reset.regs.l = 0x4D ∧ State.reset.regs.sp = 0xFFFE ∧
  State.reset.regs.pc = 0x0100 ∧ State.reset.regs.af = 0x01B0 ∧ State.reset.regs.bc = 0x0013 ∧
  State.reset.regs.de = 0x00D8 ∧ State.reset.regs.hl = 0x014D ∧
  ∀ img params, (State.construct img none params).regs = State.reset.regs

/-- The parameters of `State.reset`: the spec's defaults (`00_scope.md` section 3, `70_reset_and_hazards.md`
section 3).  `NOP`'s cost and the doubling in the load block are not in the table; every cost in it is the
spec's own convention, decision D13, and the others are decisions D1, D17, D20, D34, D36 and D37 (log entries
1, 6 and 21). -/
def Obligations.DefaultParameters : Prop :=
  let p := State.reset.params
  let cy := p.cycles
  p.profile = .base ∧ p.imeReset = false ∧ p.modeBitRomValue = false ∧ p.frameBudget.val = 69905 ∧
  p.rgb = ⟨⟨0xFF, 0xFF, 0xFF⟩, ⟨0xCC, 0xCC, 0xCC⟩, ⟨0x77, 0x77, 0x77⟩, ⟨0, 0, 0⟩⟩ ∧
  p.renderLine0OnWrap = false ∧ cy.loadBlock.toNat = 4 ∧
  (∀ x ∈ [cy.addR, cy.adcR, cy.subR, cy.sbcR, cy.xorR, cy.rra, cy.andR, cy.orR, cy.cpR, cy.incR, cy.decR,
      cy.daa, cy.cpl, cy.scf, cy.ccf, cy.rlca, cy.rla, cy.rrca, cy.jpHl, cy.di, cy.ei], x.toNat = 4) ∧
  (∀ x ∈ [cy.ldRN, cy.ldABc, cy.ldADe, cy.ldBcA, cy.ldDeA, cy.ldSpHl, cy.addHl, cy.adcHl, cy.subHl,
      cy.sbcHl, cy.addN, cy.adcN, cy.subN, cy.sbcN, cy.xorHl, cy.xorN, cy.rrR, cy.bitR, cy.ldHliA, cy.ldAHli,
      cy.ldHldA, cy.ldAHld, cy.ldCA, cy.ldAC, cy.andHl, cy.orHl, cy.cpHl, cy.andN, cy.orN, cy.cpN, cy.incRr,
      cy.decRr, cy.addHlRr, cy.jrCcENotTaken, cy.retCcNotTaken, cy.rlcR, cy.rrcR, cy.rlR, cy.slaR, cy.sraR,
      cy.swapR, cy.srlR, cy.resR, cy.setR], x.toNat = 8) ∧
  (∀ x ∈ [cy.ldHlN, cy.ldRrNn, cy.bitHl, cy.ldhNA, cy.ldhAN, cy.ldHlSpE, cy.pop, cy.incHl, cy.decHl,
      cy.jpCcNnNotTaken, cy.jrE, cy.jrCcE, cy.callCcNnNotTaken], x.toNat = 12) ∧
  (∀ x ∈ [cy.ldANn, cy.ldNnA, cy.rrHl, cy.push, cy.addSpE, cy.jpNn, cy.jpCcNn, cy.ret, cy.rst, cy.reti,
      cy.rlcHl, cy.rrcHl, cy.rlHl, cy.slaHl, cy.sraHl, cy.swapHl, cy.srlHl, cy.resHl, cy.setHl],
    x.toNat = 16) ∧
  (∀ x ∈ [cy.ldNnSp, cy.retCc], x.toNat = 20) ∧
  ∀ x ∈ [cy.callNn, cy.callCcNn], x.toNat = 24

/-- Construction of the machine from any image, bootstrap bytes and parameters, which it takes as they are.
The controller kind comes from byte 0x147 of the image.  `flat` holds the image below 0x8000; a bootstrap image
is overlaid from address 0 on, and then every I/O byte is 0x00 and PC is 0x0000.  Everything else is as in
`State.reset`.  With a well-formed image, and bootstrap bytes that end below the restricted range, the state
meets the invariant (`70_reset_and_hazards.md` sections 1 and 2, `10_state.md` section 6,
`20_memory.md` section 4; a short image by decision D23, the start with a bootstrap image by decision D24, log
entry 10). -/
def Obligations.ConstructionMeetsInv : Prop :=
  ∀ (img : Image) (boot : Option (List Byte)) (params : Config.Params) (kind : BankingMode),
    kind = (if img.length < 0x148 then .none
      else if (img.byteAt 0x147).toNat ∈ [1, 2, 3] then .mbc1
      else if (img.byteAt 0x147).toNat ∈ [5, 6] then .mbc2
      else .none) →
    let t := State.construct img boot params
    t = { State.reset with
      regs := t.regs, flat := t.flat, ime := params.imeReset, cartridgeRom := img, bankingMode := kind,
      params := params } ∧
    (boot = none → t.regs = State.reset.regs ∧
      ∀ a, t.flatAt a
        = if a < 0x8000 ∧ a < img.length then img.byteAt a else State.reset.flatAt a) ∧
    (∀ bytes, boot = some bytes → t.regs.pc = 0x0000 ∧
      ∀ a, a < 0x10000 → t.flatAt a
        = if (0xFF00 ≤ a ∧ a ≤ 0xFF7F) ∨ a = 0xFFFF then 0x00
          else if h : a < bytes.length then bytes[a]
          else if a < 0x8000 ∧ a < img.length then img.byteAt a
          else 0x00) ∧
    (Memory.wf zeroInitial img.cells = true →
      (∀ bytes, boot = some bytes → bytes.length ≤ 0xFEA0) → t.Inv)

/-- The state right after reset meets the invariant, with its memories in canonical form. -/
def Obligations.ResetMeetsInv : Prop := State.reset.Inv

/-! ### Invariants of every step -/

/-- Every step keeps the invariant of `70_reset_and_hazards.md` section 2 (R462): canonical memories,
banks, counters and line in range, dead cells 0x00, the step's latch not armed.  So do the host's key calls,
which may come between any two steps (log entry 15), and the frame loop. -/
def Obligations.StepKeepsInv : Prop :=
  ∀ s t : State, s.Inv →
    (step s = .next t → t.Inv) ∧
    (∀ key, keyPressed key s = .next t → t.Inv) ∧
    (∀ key, keyReleased key s = .next t → t.Inv) ∧
    (runFrame s = .next t → t.Inv)

/-- No step changes the cartridge image, the kind of bank controller, the parameters, the keys or the
cells of `flat` below 0x8000, in the restricted range and at 0xFF46, from any state at all
(`10_state.md` section 4, `20_memory.md` sections 3 and 4). -/
def Obligations.StepKeepsConstruction : Prop :=
  ∀ s t : State, step s = .next t →
    t.cartridgeRom = s.cartridgeRom ∧ t.bankingMode = s.bankingMode ∧ t.params = s.params ∧
    t.joypadState = s.joypadState ∧ t.fault = s.fault ∧
    ∀ a, a < 0x8000 ∨ (0xFEA0 ≤ a ∧ a ≤ 0xFEFE) ∨ a = 0xFF46 → t.flatAt a = s.flatAt a

/-- In profile BASE a step leaves the low nibble of F alone, never makes IME true, and never leaves an
enable pending (`70_reset_and_hazards.md` section 2, `60_exceptions.md` section 3). -/
def Obligations.BaseKeepsLowNibbleAndIme : Prop :=
  ∀ s t : State, s.params.profile = .base → s.eiPending = false → step s = .next t →
    t.regs.f.toNat % 16 = s.regs.f.toNat % 16 ∧ (t.ime = true → s.ime = true) ∧
      t.eiPending = false

/-- No instruction but `DI`, `EI` and `RETI` changes IME, the pending enable or the step's latch
(`60_exceptions.md` section 3). -/
def Obligations.OnlyControlInstructionsChangeEnables : Prop :=
  ∀ (i : Instr) (s t : State), i ≠ .di → i ≠ .ei → i ≠ .reti → exec i s = .next t →
    t.ime = s.ime ∧ t.eiPending = s.eiPending ∧ t.armed = s.armed

/-! ### The register file -/

/-- The composite views (`10_state.md` R21): a read gives `high*256 + low`, a write of `v` sets
`high` to `v >> 8` and `low` to `v & 0xFF`; a pair is its two registers, so writing either changes the
view; write and read round-trip for every `v`, AF unmasked.  Each register field and pair field selects the
register it names, for reading and for writing (numbering by decision D2, log entry 20), and the seven
registers of a register field are independent of one another and of F, SP and PC (`10_state.md` section 1,
`00_scope.md` section 4). -/
def Obligations.CompositeViewsRoundTrip : Prop :=
  (∀ (r : Registers) (v : Word) (x : Byte),
    (r.af.toNat = r.a.toNat * 256 + r.f.toNat ∧ r.bc.toNat = r.b.toNat * 256 + r.c.toNat ∧
      r.de.toNat = r.d.toNat * 256 + r.e.toNat ∧ r.hl.toNat = r.h.toNat * 256 + r.l.toNat) ∧
    (∃ h l : Byte, h.toNat = v.toNat / 256 ∧ l.toNat = v.toNat % 256 ∧
      r.setStackPair .af v = { r with a := h, f := l } ∧
      r.setPair .bc v = { r with b := h, c := l } ∧ r.setStackPair .bc v = { r with b := h, c := l } ∧
      r.setPair .de v = { r with d := h, e := l } ∧ r.setStackPair .de v = { r with d := h, e := l } ∧
      r.setPair .hl v = { r with h := h, l := l } ∧ r.setStackPair .hl v = { r with h := h, l := l }) ∧
    ((r.setStackPair .af v).af = v ∧ (r.setPair .bc v).bc = v ∧ (r.setPair .de v).de = v ∧
      (r.setPair .hl v).hl = v) ∧
    ({ r with h := x } : Registers).hl.toNat = x.toNat * 256 + r.l.toNat ∧
    ({ r with l := x } : Registers).hl.toNat = r.h.toNat * 256 + x.toNat ∧
    (r.getPair .bc = r.bc ∧ r.getPair .de = r.de ∧ r.getPair .hl = r.hl ∧ r.getPair .sp = r.sp ∧
      r.setPair .sp v = { r with sp := v } ∧ r.getStackPair .bc = r.bc ∧ r.getStackPair .de = r.de ∧
      r.getStackPair .hl = r.hl ∧ r.getStackPair .af = r.af) ∧
    (r.get .b = r.b ∧ r.get .c = r.c ∧ r.get .d = r.d ∧ r.get .e = r.e ∧ r.get .h = r.h ∧
      r.get .l = r.l ∧ r.get .a = r.a) ∧
    r.set .b x = { r with b := x } ∧ r.set .c x = { r with c := x } ∧ r.set .d x = { r with d := x } ∧
    r.set .e x = { r with e := x } ∧ r.set .h x = { r with h := x } ∧ r.set .l x = { r with l := x } ∧
    r.set .a x = { r with a := x }) ∧
  ∀ (r : Registers) (i j : Reg8) (v : Byte),
    (r.set i v).get i = v ∧ (j ≠ i → (r.set i v).get j = r.get j) ∧
    (r.set i v).f = r.f ∧ (r.set i v).sp = r.sp ∧ (r.set i v).pc = r.pc

/-! ### Loads -/

/-- The loads that touch registers only: the destination gets the source, nothing else changes
(`41_loads.md` sections 1, 2 and 5). -/
def Obligations.RegisterLoads : Prop :=
  ∀ (s : State) (dst src : Reg8) (n : Byte) (p : RegPair) (nn : Word),
    let cy := s.params.cycles
    LeavesRegs (exec (.ldRR dst src) s) s (s.regs.set dst (s.regs.get src)) cy.loadBlock.toNat ∧
    LeavesRegs (exec (.ldRN dst n) s) s (s.regs.set dst n) cy.ldRN.toNat ∧
    LeavesRegs (exec (.ldRrNn p nn) s) s (s.regs.setPair p nn) cy.ldRrNn.toNat ∧
    LeavesRegs (exec .ldSpHl s) s { s.regs with sp := s.regs.hl } cy.ldSpHl.toNat

/-- The loads from memory: when the byte at the source address reads as `v`, the destination gets `v`, HL
moves by one where the instruction says so, and nothing else changes (`41_loads.md` sections 1, 3 and 4,
`46_ext_loads_stack.md` sections 1 and 2). -/
def Obligations.MemoryLoads : Prop :=
  ∀ (s : State) (dst : Reg8) (n : Byte) (nn : Word) (v : Byte),
    let cy := s.params.cycles
    (read8 s s.regs.hl = .ok v →
      LeavesRegs (exec (.ldRHl dst) s) s (s.regs.set dst v) (2 * cy.loadBlock.toNat) ∧
      LeavesRegs (exec .ldAHli s) s ({ s.regs with a := v }.setPair .hl (s.regs.hl + 1)) cy.ldAHli.toNat ∧
      LeavesRegs (exec .ldAHld s) s ({ s.regs with a := v }.setPair .hl (s.regs.hl - 1)) cy.ldAHld.toNat) ∧
    (read8 s s.regs.bc = .ok v → LeavesRegs (exec .ldABc s) s { s.regs with a := v } cy.ldABc.toNat) ∧
    (read8 s s.regs.de = .ok v → LeavesRegs (exec .ldADe s) s { s.regs with a := v } cy.ldADe.toNat) ∧
    (read8 s nn = .ok v → LeavesRegs (exec (.ldANn nn) s) s { s.regs with a := v } cy.ldANn.toNat) ∧
    (read8 s (0xFF00 + n.setWidth 16) = .ok v →
      LeavesRegs (exec (.ldhAN n) s) s { s.regs with a := v } cy.ldhAN.toNat) ∧
    (read8 s (0xFF00 + s.regs.c.setWidth 16) = .ok v →
      LeavesRegs (exec .ldAC s) s { s.regs with a := v } cy.ldAC.toNat)

/-- The loads that store one byte: which byte at which address, with HL moved by one where the instruction
says so; no other register changes, and no flag (`41_loads.md` sections 1 to 4,
`46_ext_loads_stack.md` sections 1 and 2).  `LD (HL),(HL)` stores the byte it reads. -/
def Obligations.StoringLoads : Prop :=
  ∀ (s : State) (src : Reg8) (n : Byte) (nn : Word),
    let cy := s.params.cycles
    StoresTo (exec (.ldHlR src) s) s s.regs.hl (s.regs.get src) s.regs (2 * cy.loadBlock.toNat) ∧
    StoresTo (exec (.ldHlN n) s) s s.regs.hl n s.regs cy.ldHlN.toNat ∧
    (∀ v, read8 s s.regs.hl = .ok v →
      StoresTo (exec .ldHlHl s) s s.regs.hl v s.regs (2 * cy.loadBlock.toNat)) ∧
    StoresTo (exec .ldBcA s) s s.regs.bc s.regs.a s.regs cy.ldBcA.toNat ∧
    StoresTo (exec .ldDeA s) s s.regs.de s.regs.a s.regs cy.ldDeA.toNat ∧
    StoresTo (exec (.ldNnA nn) s) s nn s.regs.a s.regs cy.ldNnA.toNat ∧
    StoresTo (exec .ldHliA s) s s.regs.hl s.regs.a (s.regs.setPair .hl (s.regs.hl + 1)) cy.ldHliA.toNat ∧
    StoresTo (exec .ldHldA s) s s.regs.hl s.regs.a (s.regs.setPair .hl (s.regs.hl - 1)) cy.ldHldA.toNat ∧
    StoresTo (exec (.ldhNA n) s) s (0xFF00 + n.setWidth 16) s.regs.a s.regs cy.ldhNA.toNat ∧
    StoresTo (exec .ldCA s) s (0xFF00 + s.regs.c.setWidth 16) s.regs.a s.regs cy.ldCA.toNat

/-- `LD (nn),SP` stores the low byte of SP at `nn` and then the high byte at `nn + 1`; no register changes,
and every byte that neither store reaches reads as before.  A byte that lands on 0xFF46 starts a DMA copy
instead, and where that copy stops the instruction ends in its fault (`41_loads.md` section 5, byte order by
decision D4). -/
def Obligations.StackPointerStore : Prop :=
  ∀ (s : State) (nn : Word) (lo hi : Byte),
    let cy := s.params.cycles
    lo.toNat = s.regs.sp.toNat % 256 → hi.toNat = s.regs.sp.toNat / 256 →
    (∀ u w, write8 nn lo s = .next u → write8 (nn + 1) hi u = .next w →
      exec (.ldNnSp nn) s = .next { w with lastCost := cy.ldNnSp.toNat }) ∧
    (∀ f, write8 nn lo s = .fault f → exec (.ldNnSp nn) s = .fault f) ∧
    (∀ u f, write8 nn lo s = .next u → write8 (nn + 1) hi u = .fault f →
      exec (.ldNnSp nn) s = .fault f) ∧
    (nn.toNat ≠ 0xFF46 → (nn + 1).toNat ≠ 0xFF46 →
      exec (.ldNnSp nn) s
        = .next { storeByte (storeByte s nn lo) (nn + 1) hi with lastCost := cy.ldNnSp.toNat } ∧
      OnlyStores s (storeByte (storeByte s nn lo) (nn + 1) hi) ∧
      ∀ b : Word, ¬ storeReaches nn b → ¬ storeReaches (nn + 1) b →
        read8 (storeByte (storeByte s nn lo) (nn + 1) hi) b = read8 s b)

/-! ### Arithmetic and logic -/

/-- `ADD` and `ADC`, in all three operand forms: the sum modulo 256, Z from the stored byte, N clear, H and
C from the operand with the carry-in already added to it, unreduced; nothing but A and the flags changes
(`42_add_sub.md` sections 1 and 2; N by decision D10, the unreduced operand by decision D11). -/
def Obligations.AddAndAddWithCarry : Prop :=
  ∀ (s : State) (v : Byte),
    let cy := s.params.cycles
    let sum (o : Out) (carry : Bool) (cost : Nat) : Prop :=
      ∀ operand total : Nat, operand = v.toNat + (if carry then 1 else 0) →
        total = s.regs.a.toNat + operand →
        LeavesA o s (BitVec.ofNat 8 total) (decide (total % 256 = 0)) false
          (decide (15 < s.regs.a.toNat % 16 + operand % 16)) (decide (255 < total)) cost
    (∀ src, s.regs.get src = v →
      sum (exec (.addR src) s) false cy.addR.toNat ∧
      sum (exec (.adcR src) s) (s.regs.f.getLsbD 4) cy.adcR.toNat) ∧
    (read8 s s.regs.hl = .ok v →
      sum (exec .addHl s) false cy.addHl.toNat ∧ sum (exec .adcHl s) (s.regs.f.getLsbD 4) cy.adcHl.toNat) ∧
    sum (exec (.addN v) s) false cy.addN.toNat ∧ sum (exec (.adcN v) s) (s.regs.f.getLsbD 4) cy.adcN.toNat

/-- `SUB` and `SBC`, in all three operand forms, with the borrow-in added to the operand first, and `CP`,
which writes the flags of `SUB` and leaves A (`42_add_sub.md` sections 1 and 2, `47_ext_alu.md`
section 1; N by decision D10, the unreduced operand by decision D11).  `SBC A,A` with C set and a low nibble
of 0xF in A leaves H clear, by R193 and against a corner case of R203 (log entry 25). -/
def Obligations.SubtractAndCompare : Prop :=
  ∀ (s : State) (v : Byte),
    let cy := s.params.cycles
    let flags (k : Bool → Bool → Bool → Bool → Prop) (operand : Nat) : Prop :=
      k (decide ((s.regs.a.toNat + 512 - operand) % 256 = 0)) true
        (decide (s.regs.a.toNat % 16 < operand % 16)) (decide (s.regs.a.toNat < operand))
    let difference (o : Out) (borrow : Bool) (cost : Nat) : Prop :=
      ∀ operand : Nat, operand = v.toNat + (if borrow then 1 else 0) →
        flags (fun z n h c =>
          LeavesA o s (BitVec.ofNat 8 (s.regs.a.toNat + 512 - operand)) z n h c cost) operand
    let compare (o : Out) (cost : Nat) : Prop :=
      flags (fun z n h c => LeavesFlags o s z n h c cost) v.toNat
    (∀ src, s.regs.get src = v →
      difference (exec (.subR src) s) false cy.subR.toNat ∧
      difference (exec (.sbcR src) s) (s.regs.f.getLsbD 4) cy.sbcR.toNat ∧
      compare (exec (.cpR src) s) cy.cpR.toNat) ∧
    (read8 s s.regs.hl = .ok v →
      difference (exec .subHl s) false cy.subHl.toNat ∧
      difference (exec .sbcHl s) (s.regs.f.getLsbD 4) cy.sbcHl.toNat ∧
      compare (exec .cpHl s) cy.cpHl.toNat) ∧
    difference (exec (.subN v) s) false cy.subN.toNat ∧
    difference (exec (.sbcN v) s) (s.regs.f.getLsbD 4) cy.sbcN.toNat ∧
    compare (exec (.cpN v) s) cy.cpN.toNat

/-- `AND`, `OR` and `XOR`, in all three operand forms: the bitwise result, Z from it, N and C clear, H set
by `AND` alone (`43_xor.md`, `47_ext_alu.md` section 1; the flags of `XOR` by decision D10). -/
def Obligations.BitwiseLogic : Prop :=
  ∀ (s : State) (v : Byte),
    let cy := s.params.cycles
    let logic (o : Out) (f : Bool → Bool → Bool) (h : Bool) (cost : Nat) : Prop :=
      ∃ result : Byte, (∀ k, k < 8 → result.getLsbD k = f (s.regs.a.getLsbD k) (v.getLsbD k)) ∧
        LeavesA o s result (decide (result.toNat = 0)) false h false cost
    (∀ src, s.regs.get src = v →
      logic (exec (.andR src) s) (· && ·) true cy.andR.toNat ∧
      logic (exec (.orR src) s) (· || ·) false cy.orR.toNat ∧
      logic (exec (.xorR src) s) Bool.xor false cy.xorR.toNat) ∧
    (read8 s s.regs.hl = .ok v →
      logic (exec .andHl s) (· && ·) true cy.andHl.toNat ∧
      logic (exec .orHl s) (· || ·) false cy.orHl.toNat ∧
      logic (exec .xorHl s) Bool.xor false cy.xorHl.toNat) ∧
    logic (exec (.andN v) s) (· && ·) true cy.andN.toNat ∧
    logic (exec (.orN v) s) (· || ·) false cy.orN.toNat ∧
    logic (exec (.xorN v) s) Bool.xor false cy.xorN.toNat

/-- `INC` and `DEC` of a register and of the byte at HL: modulo 256, Z from the result, H from the low
nibble, C unchanged (`47_ext_alu.md` section 2). -/
def Obligations.IncrementDecrementByte : Prop :=
  ∀ (s : State) (dst : Reg8) (v : Byte),
    let cy := s.params.cycles
    (s.regs.get dst = v →
      LeavesReg (exec (.incR dst) s) s dst (v + 1) (decide (v.toNat = 255)) false
        (decide (v.toNat % 16 = 15)) (s.regs.f.getLsbD 4) cy.incR.toNat ∧
      LeavesReg (exec (.decR dst) s) s dst (v - 1) (decide (v.toNat = 1)) true
        (decide (v.toNat % 16 = 0)) (s.regs.f.getLsbD 4) cy.decR.toNat) ∧
    (read8 s s.regs.hl = .ok v →
      StoresFlags (exec .incHl s) s s.regs.hl (v + 1) (decide (v.toNat = 255)) false
        (decide (v.toNat % 16 = 15)) (s.regs.f.getLsbD 4) cy.incHl.toNat ∧
      StoresFlags (exec .decHl s) s s.regs.hl (v - 1) (decide (v.toNat = 1)) true
        (decide (v.toNat % 16 = 0)) (s.regs.f.getLsbD 4) cy.decHl.toNat)

/-- 16-bit `INC` and `DEC` write no flag; `ADD HL,rr` leaves Z and takes H from bit 11 and C from bit 15
(`47_ext_alu.md` section 3). -/
def Obligations.WordArithmetic : Prop :=
  ∀ (s : State) (p : RegPair),
    let cy := s.params.cycles
    LeavesRegs (exec (.incRr p) s) s
      (s.regs.setPair p (BitVec.ofNat 16 ((s.regs.getPair p).toNat + 1))) cy.incRr.toNat ∧
    LeavesRegs (exec (.decRr p) s) s
      (s.regs.setPair p (BitVec.ofNat 16 ((s.regs.getPair p).toNat + 65535))) cy.decRr.toNat ∧
    ∃ f, FlagsAre s.regs.f f (s.regs.f.getLsbD 7) false
        (decide (4095 < s.regs.hl.toNat % 4096 + (s.regs.getPair p).toNat % 4096))
        (decide (65535 < s.regs.hl.toNat + (s.regs.getPair p).toNat)) ∧
      LeavesRegs (exec (.addHlRr p) s) s
        { s.regs.setPair .hl (BitVec.ofNat 16 (s.regs.hl.toNat + (s.regs.getPair p).toNat))
          with f := f } cy.addHlRr.toNat

/-- `ADD SP,e` and `LD HL,SP+e`: the signed displacement is added to SP modulo 65536; Z and N are clear, H
and C come from the unsigned addition of the low bytes; `LD HL,SP+e` leaves SP
(`46_ext_loads_stack.md` section 3, `47_ext_alu.md` section 3). -/
def Obligations.StackPointerOffset : Prop :=
  ∀ (s : State) (e : Byte) (target : Word),
    let cy := s.params.cycles
    (target.toInt - s.regs.sp.toInt - e.toInt) % 65536 = 0 →
    ∃ f, FlagsAre s.regs.f f false false
        (decide (15 < s.regs.sp.toNat % 16 + e.toNat % 16))
        (decide (255 < s.regs.sp.toNat % 256 + e.toNat)) ∧
      LeavesRegs (exec (.addSpE e) s) s { s.regs with sp := target, f := f } cy.addSpE.toNat ∧
      LeavesRegs (exec (.ldHlSpE e) s) s { s.regs.setPair .hl target with f := f } cy.ldHlSpE.toNat

/-- `DAA`: after an add, 0x60 is added when C is set or A is above 0x99, and 0x06 when H is set or the low
nibble is above 9; after a subtract, 0x60 and 0x06 are subtracted for C and H alone; H is cleared, N is
kept, C is set when 0x60 was used (`47_ext_alu.md` section 4). -/
def Obligations.DecimalAdjust : Prop :=
  ∀ (s : State) (high low : Bool),
    let cy := s.params.cycles
    (s.regs.f.getLsbD 6 = false →
      high = (s.regs.f.getLsbD 4 || decide (0x99 < s.regs.a.toNat)) →
      low = (s.regs.f.getLsbD 5 || decide (9 < s.regs.a.toNat % 16)) →
      ∀ total : Nat,
        total = s.regs.a.toNat + (if high then 0x60 else 0) + (if low then 0x06 else 0) →
        LeavesA (exec .daa s) s (BitVec.ofNat 8 total) (decide (total % 256 = 0)) false false high
          cy.daa.toNat) ∧
    (s.regs.f.getLsbD 6 = true →
      high = s.regs.f.getLsbD 4 → low = s.regs.f.getLsbD 5 →
      ∀ total : Nat,
        total + (if high then 0x60 else 0) + (if low then 0x06 else 0) = s.regs.a.toNat + 256 →
        LeavesA (exec .daa s) s (BitVec.ofNat 8 total) (decide (total % 256 = 0)) true false high
          cy.daa.toNat)

/-! ### Rotates, shifts and bits -/

/-- The rotates of A, `RRA` and `RLA` through the carry, `RRCA` and `RLCA` circular: the bit that leaves
goes to C and Z is cleared even for a zero result.  `CPL` complements A and sets N and H; `SCF` sets C and
`CCF` complements it, both clearing N and H; Z is unchanged (`44_rotate_right.md`, `47_ext_alu.md`
section 4). -/
def Obligations.AccumulatorRotatesAndComplements : Prop :=
  ∀ (s : State) (a cin : Nat),
    let cy := s.params.cycles
    a = s.regs.a.toNat → cin = (if s.regs.f.getLsbD 4 then 1 else 0) →
    LeavesA (exec .rra s) s (BitVec.ofNat 8 (cin * 128 + a / 2)) false false false
      (decide (a % 2 = 1)) cy.rra.toNat ∧
    LeavesA (exec .rrca s) s (BitVec.ofNat 8 (a % 2 * 128 + a / 2)) false false false
      (decide (a % 2 = 1)) cy.rrca.toNat ∧
    LeavesA (exec .rla s) s (BitVec.ofNat 8 (a * 2 + cin)) false false false
      (decide (128 ≤ a)) cy.rla.toNat ∧
    LeavesA (exec .rlca s) s (BitVec.ofNat 8 (a * 2 + a / 128)) false false false
      (decide (128 ≤ a)) cy.rlca.toNat ∧
    LeavesA (exec .cpl s) s (BitVec.ofNat 8 (255 - a)) (s.regs.f.getLsbD 7) true true
      (s.regs.f.getLsbD 4) cy.cpl.toNat ∧
    LeavesFlags (exec .scf s) s (s.regs.f.getLsbD 7) false false true cy.scf.toNat ∧
    LeavesFlags (exec .ccf s) s (s.regs.f.getLsbD 7) false false (!s.regs.f.getLsbD 4) cy.ccf.toNat

/-- The eight prefixed rotates and shifts, of a register and of the byte at HL: the result as a number, the
bit that leaves as C, Z from the result, N and H clear; the memory form reads the byte, writes the result
back through the write path, and takes the flags from the value computed (`44_rotate_right.md`,
`49_ext_cb.md` section 1). -/
def Obligations.RotatesAndShifts : Prop :=
  ∀ (s : State) (r : Reg8) (byte : Byte) (v cin : Nat),
    let cy := s.params.cycles
    v = byte.toNat → cin = (if s.regs.f.getLsbD 4 then 1 else 0) →
    let both (reg mem : Instr) (costReg costMem : Config.Cost) (result : Nat) (c : Bool) : Prop :=
      (s.regs.get r = byte →
        LeavesReg (exec reg s) s r (BitVec.ofNat 8 result) (decide (result % 256 = 0)) false false c
          costReg.toNat) ∧
      (read8 s s.regs.hl = .ok byte →
        StoresFlags (exec mem s) s s.regs.hl (BitVec.ofNat 8 result) (decide (result % 256 = 0)) false
          false c costMem.toNat)
    both (.rrR r) .rrHl cy.rrR cy.rrHl (cin * 128 + v / 2) (decide (v % 2 = 1)) ∧
    both (.rrcR r) .rrcHl cy.rrcR cy.rrcHl (v % 2 * 128 + v / 2) (decide (v % 2 = 1)) ∧
    both (.rlR r) .rlHl cy.rlR cy.rlHl (v * 2 + cin) (decide (128 ≤ v)) ∧
    both (.rlcR r) .rlcHl cy.rlcR cy.rlcHl (v * 2 + v / 128) (decide (128 ≤ v)) ∧
    both (.slaR r) .slaHl cy.slaR cy.slaHl (v * 2) (decide (128 ≤ v)) ∧
    both (.sraR r) .sraHl cy.sraR cy.sraHl (v / 128 * 128 + v / 2) (decide (v % 2 = 1)) ∧
    both (.swapR r) .swapHl cy.swapR cy.swapHl (v % 16 * 16 + v / 16) false ∧
    both (.srlR r) .srlHl cy.srlR cy.srlHl (v / 2) (decide (v % 2 = 1))

/-- `BIT b` sets Z to the complement of bit b, clears N, sets H, keeps C and changes nothing else.  `RES b`
and `SET b` clear and set bit b, keep the other seven bits, and write no flag; the memory forms write even
when the bit has its value already.  Each of a register or of the byte at HL (`45_bit_test.md`,
`49_ext_cb.md` section 2; N, H and C of `BIT` by decision D10). -/
def Obligations.BitOperations : Prop :=
  ∀ (s : State) (bit : Nat) (r : Reg8) (v cleared set : Byte),
    let cy := s.params.cycles
    bit < 8 →
    (∀ k, k < 8 → cleared.getLsbD k = (v.getLsbD k && decide (k ≠ bit))) →
    (∀ k, k < 8 → set.getLsbD k = (v.getLsbD k || decide (k = bit))) →
    (s.regs.get r = v →
      LeavesFlags (exec (.bitR bit r) s) s (!v.getLsbD bit) false true (s.regs.f.getLsbD 4) cy.bitR.toNat ∧
      LeavesRegs (exec (.resR bit r) s) s (s.regs.set r cleared) cy.resR.toNat ∧
      LeavesRegs (exec (.setR bit r) s) s (s.regs.set r set) cy.setR.toNat) ∧
    (read8 s s.regs.hl = .ok v →
      LeavesFlags (exec (.bitHl bit) s) s (!v.getLsbD bit) false true (s.regs.f.getLsbD 4) cy.bitHl.toNat ∧
      StoresTo (exec (.resHl bit) s) s s.regs.hl cleared s.regs cy.resHl.toNat ∧
      StoresTo (exec (.setHl bit) s) s s.regs.hl set s.regs cy.setHl.toNat)

/-! ### Control transfer, the stack, the enables -/

/-- The jumps: PC becomes the target when the condition holds and stays past the instruction when it does
not, with the lower cost; `JR` is relative to the address after its two bytes; nothing but PC changes
(`48_ext_control.md` section 1). -/
def Obligations.Jumps : Prop :=
  ∀ (s : State) (nn target : Word) (e : Byte) (cc : Cond),
    let cy := s.params.cycles
    (target.toInt - s.regs.pc.toInt - e.toInt) % 65536 = 0 →
    LeavesRegs (exec (.jpNn nn) s) s { s.regs with pc := nn } cy.jpNn.toNat ∧
    LeavesRegs (exec .jpHl s) s { s.regs with pc := s.regs.hl } cy.jpHl.toNat ∧
    LeavesRegs (exec (.jrE e) s) s { s.regs with pc := target } cy.jrE.toNat ∧
    (CondHolds s.regs.f cc →
      LeavesRegs (exec (.jpCcNn cc nn) s) s { s.regs with pc := nn } cy.jpCcNn.toNat ∧
      LeavesRegs (exec (.jrCcE cc e) s) s { s.regs with pc := target } cy.jrCcE.toNat) ∧
    (¬ CondHolds s.regs.f cc →
      LeavesRegs (exec (.jpCcNn cc nn) s) s s.regs cy.jpCcNnNotTaken.toNat ∧
      LeavesRegs (exec (.jrCcE cc e) s) s s.regs cy.jrCcENotTaken.toNat)

/-- `CALL`, taken `CALL cc` and `RST` push the address of the next instruction and jump; `CALL cc` not taken
changes neither SP nor memory (`48_ext_control.md` section 1, stack by decision D16). -/
def Obligations.CallsAndRestarts : Prop :=
  ∀ (s : State) (nn : Word) (cc : Cond) (t : Nat),
    let cy := s.params.cycles
    PushesThen (exec (.callNn nn) s) s s.regs.pc nn cy.callNn.toNat ∧
    (t < 8 → PushesThen (exec (.rst t) s) s s.regs.pc (BitVec.ofNat 16 (t * 8)) cy.rst.toNat) ∧
    (CondHolds s.regs.f cc → PushesThen (exec (.callCcNn cc nn) s) s s.regs.pc nn cy.callCcNn.toNat) ∧
    (¬ CondHolds s.regs.f cc → LeavesRegs (exec (.callCcNn cc nn) s) s s.regs cy.callCcNnNotTaken.toNat)

/-- `RET`, taken `RET cc` and `RETI` pop PC, low byte first, and SP grows by 2; `RETI` also sets IME at
once; `RET cc` not taken changes nothing (`48_ext_control.md` sections 1 and 2, stack by decision
D16). -/
def Obligations.Returns : Prop :=
  ∀ (s : State) (cc : Cond) (lo hi : Byte) (target : Word),
    let cy := s.params.cycles
    (read8 s s.regs.sp = .ok lo → read8 s (s.regs.sp + 1) = .ok hi →
      target.toNat = hi.toNat * 256 + lo.toNat →
      LeavesRegs (exec .ret s) s { s.regs with sp := s.regs.sp + 2, pc := target } cy.ret.toNat ∧
      exec .reti s = .next { s with
        regs := { s.regs with sp := s.regs.sp + 2, pc := target }, ime := true,
        lastCost := cy.reti.toNat } ∧
      (CondHolds s.regs.f cc →
        LeavesRegs (exec (.retCc cc) s) s { s.regs with sp := s.regs.sp + 2, pc := target } cy.retCc.toNat)) ∧
    (¬ CondHolds s.regs.f cc → LeavesRegs (exec (.retCc cc) s) s s.regs cy.retCcNotTaken.toNat)

/-- `PUSH` stores a pair, high byte at the higher address, and `POP` loads one, AF with all eight bits of F
(`46_ext_loads_stack.md` section 4; no mask by decision D40). -/
def Obligations.PushAndPop : Prop :=
  ∀ (s : State) (q : StackPair) (lo hi : Byte) (v : Word),
    let cy := s.params.cycles
    PushesThen (exec (.push q) s) s (s.regs.getStackPair q) s.regs.pc cy.push.toNat ∧
    (read8 s s.regs.sp = .ok lo → read8 s (s.regs.sp + 1) = .ok hi →
      v.toNat = hi.toNat * 256 + lo.toNat →
      LeavesRegs (exec (.pop q) s) s ({ s.regs with sp := s.regs.sp + 2 }.setStackPair q v) cy.pop.toNat)

/-- With the stack in work RAM, a `POP` after a `PUSH` of the same pair gives back every register, SP
included, and every byte of memory reads as before but for the two below SP
(`46_ext_loads_stack.md` section 4, `20_memory.md` section 7). -/
def Obligations.PopUndoesPush : Prop :=
  ∀ (s : State) (q : StackPair), 0xC002 ≤ s.regs.sp.toNat → s.regs.sp.toNat ≤ 0xE000 →
    ∃ t u, exec (.push q) s = .next t ∧ exec (.pop q) t = .next u ∧ u.regs = s.regs ∧
      ∀ b : Word, b ≠ s.regs.sp - 1 → b ≠ s.regs.sp - 2 → read8 u b = read8 s b

/-- `DI` clears IME, the pending enable and the step's latch at once; `EI` sets the pending enable and
nothing else.  The enable comes one instruction late: with an enable pending, the dispatch at the end of
the step finds IME true when the instruction completes, unless it is `DI`, whose dispatch finds it false;
the step of `EI` itself with none pending leaves IME to the dispatch as it was (`48_ext_control.md`
section 2, decision D40). -/
def Obligations.EnableIsDelayedByOneInstruction : Prop :=
  (∀ s : State,
    let cy := s.params.cycles
    exec .di s
      = .next { s with ime := false, eiPending := false, armed := false, lastCost := cy.di.toNat } ∧
    exec .ei s = .next { s with eiPending := true, lastCost := cy.ei.toNat }) ∧
  ∀ (s u : State) (bytes : List Byte) (i : Instr), s.fault = none →
    decode bytes = .ok (i, []) → BytesAtPc s bytes → hasHandler s.params.profile i = true →
    exec i { s with
      armed := s.eiPending, eiPending := false,
      regs := { s.regs with pc := s.regs.pc + BitVec.ofNat 16 bytes.length } } = .next u →
    ∃ v, step s = dispatchInterrupts v ∧
      (s.eiPending = true → i ≠ .di → v.ime = true) ∧
      (i = .di → v.ime = false ∧ v.eiPending = false) ∧
      (s.eiPending = false → i = .ei → v.ime = s.ime ∧ v.eiPending = true)

/-! ### Memory -/

/-- The read path by region (`20_memory.md` sections 2 and 4): the switchable ROM window reads the image
through the ROM bank, or faults beyond it (decision D23); the external RAM window reads `ramBanks`
through the RAM bank whether or not RAM is enabled; 0xFF00 reads the joypad; every other address its cell
of `flat`. -/
def Obligations.ReadPathByRegion : Prop :=
  ∀ (s : State) (a : Word) (index : Nat),
    (0x4000 ≤ a.toNat → a.toNat ≤ 0x7FFF →
      index = a.toNat - 0x4000 + s.currentRomBank.toNat * 0x4000 →
      (index < s.cartridgeRom.length → read8 s a = .ok (s.cartridgeRom.byteAt index)) ∧
      (s.cartridgeRom.length ≤ index → read8 s a = .error index)) ∧
    (0xA000 ≤ a.toNat → a.toNat ≤ 0xBFFF →
      index = a.toNat - 0xA000 + s.currentRamBank.toNat * 0x2000 →
      read8 s a = .ok (s.ramAt index)) ∧
    (a.toNat < 0x4000 ∨ (0x8000 ≤ a.toNat ∧ a.toNat ≤ 0x9FFF) ∨
        (0xC000 ≤ a.toNat ∧ a.toNat ≠ 0xFF00) →
      read8 s a = .ok (s.flatAt a.toNat)) ∧
    (a.toNat = 0xFF00 → read8 s a = .ok (joypRead s))

/-- A read beyond the image stops the instruction that makes it, or the fetch that makes it, with the index
in the latch and everything else as it stood.  The fetch may be of the opcode, of the byte after the prefix
or of an operand byte; PC is then at that byte (`20_memory.md` section 4, `60_exceptions.md` section 1,
decision D23, log entry 12). -/
def Obligations.ReadBeyondImageStops : Prop :=
  ∀ (s : State) (index : Nat),
    let stop (o : Out) (t : State) : Prop :=
      o = .fault (.romIndexOutOfRange index
        { t with fault := some (.romIndexOutOfRange index) })
    (read8 s s.regs.hl = .error index → ∀ (dst : Reg8) (bit : Nat),
      ∀ i ∈ [Instr.ldRHl dst, .ldHlHl, .addHl, .adcHl, .subHl, .sbcHl, .xorHl, .rrHl, .bitHl bit,
          .ldAHli, .ldAHld, .andHl, .orHl, .cpHl, .incHl, .decHl, .rlcHl, .rrcHl, .rlHl, .slaHl,
          .sraHl, .swapHl, .srlHl, .resHl bit, .setHl bit],
        stop (exec i s) s) ∧
    (read8 s s.regs.bc = .error index → stop (exec .ldABc s) s) ∧
    (read8 s s.regs.de = .error index → stop (exec .ldADe s) s) ∧
    (∀ nn, read8 s nn = .error index → stop (exec (.ldANn nn) s) s) ∧
    (read8 s s.regs.sp = .error index → ∀ (q : StackPair),
      (∀ i ∈ [Instr.pop q, .ret, .reti], stop (exec i s) s) ∧
      ∀ cc, CondHolds s.regs.f cc → stop (exec (.retCc cc) s) s) ∧
    (∀ lo, read8 s s.regs.sp = .ok lo → read8 s (s.regs.sp + 1) = .error index →
      ∀ (q : StackPair),
        (∀ i ∈ [Instr.pop q, .ret, .reti],
          stop (exec i s) { s with regs := { s.regs with sp := s.regs.sp + 1 } }) ∧
        ∀ cc, CondHolds s.regs.f cc →
          stop (exec (.retCc cc) s) { s with regs := { s.regs with sp := s.regs.sp + 1 } }) ∧
    (s.fault = none →
      let fetching (k : Word) : State :=
        { s with
          armed := s.eiPending, eiPending := false,
          regs := { s.regs with pc := s.regs.pc + k } }
      (read8 s s.regs.pc = .error index → stop (step s) (fetching 0)) ∧
      (read8 s s.regs.pc = .ok 0xCB → read8 s (s.regs.pc + 1) = .error index →
        stop (step s) (fetching 1)) ∧
      ∀ (op : Byte) (i : Instr) (rest : List Byte), op ≠ 0xCB → read8 s s.regs.pc = .ok op →
        decode [op, 0, 0] = .ok (i, rest) → hasHandler s.params.profile i = true →
        (rest.length < 2 → read8 s (s.regs.pc + 1) = .error index → stop (step s) (fetching 1)) ∧
        ∀ n1, rest.length = 0 → read8 s (s.regs.pc + 1) = .ok n1 →
          read8 s (s.regs.pc + 2) = .error index → stop (step s) (fetching 2))

/-- The write path at 0x8000 and above, region by region, on both stores and on `timerCounter`: every write
completes, and changes nothing but the cells its region names (`20_memory.md` section 3). -/
def Obligations.WritePathByRegion : Prop :=
  ∀ (s : State) (a : Word) (v : Byte), 0x8000 ≤ a.toNat → a.toNat ≠ 0xFF46 →
    ∃ t, write8 a v s = .next t ∧
      t = { s with flat := t.flat, ramBanks := t.ramBanks, timerCounter := t.timerCounter } ∧
      (∀ k, t.ramAt k
        = if 0xA000 ≤ a.toNat ∧ a.toNat ≤ 0xBFFF ∧ s.ramEnabled = true ∧
              k = a.toNat - 0xA000 + s.currentRamBank.toNat * 0x2000 then v
          else s.ramAt k) ∧
      (∀ k, t.flatAt k
        = if 0xA000 ≤ a.toNat ∧ a.toNat ≤ 0xBFFF then s.flatAt k
          else if 0xFEA0 ≤ a.toNat ∧ a.toNat ≤ 0xFEFE then s.flatAt k
          else if k = a.toNat then (if a.toNat = 0xFF04 ∨ a.toNat = 0xFF44 then 0 else v)
          else if 0xE000 ≤ a.toNat ∧ a.toNat ≤ 0xFDFF ∧ k = a.toNat - 0x2000 then v
          else s.flatAt k) ∧
      t.timerCounter
        = if a.toNat = 0xFF07 ∧ v.toNat % 4 ≠ (s.flatAt 0xFF07).toNat % 4 then
            (match v.toNat % 4 with | 0 => 1024 | 1 => 16 | 2 => 64 | _ => 256)
          else s.timerCounter

/-- A write to echo RAM stores at the address and at the address minus 0x2000, so that both read back the
value; a write to 0xFE00 to 0xFE9F is a plain store; a write to 0xC000 to 0xDDFF does not reach the echo
(`20_memory.md` R72).  A write to DIV or to LY stores 0 whatever the value, and changes nothing else: not
`dividerCounter`, not `scanlineCounter` (R75, R77). -/
def Obligations.EchoDividerAndLineWrites : Prop :=
  ∀ (s : State) (a : Word) (v : Byte),
    let stores (x : Byte) : Prop :=
      ∃ t, write8 a v s = .next t ∧ t = { s with flat := t.flat } ∧ read8 t a = .ok x ∧
        ∀ b : Word, b ≠ a → read8 t b = read8 s b
    (0xE000 ≤ a.toNat → a.toNat < 0xFE00 →
      ∃ t, write8 a v s = .next t ∧ t = { s with flat := t.flat } ∧ read8 t a = .ok v ∧
        read8 t (a - 0x2000) = .ok v ∧
        ∀ b : Word, b ≠ a → b ≠ a - 0x2000 → read8 t b = read8 s b) ∧
    (0xFE00 ≤ a.toNat → a.toNat < 0xFEA0 → stores v) ∧
    (0xC000 ≤ a.toNat → a.toNat ≤ 0xDDFF → stores v) ∧
    (a.toNat = 0xFF04 → stores 0) ∧
    (a.toNat = 0xFF44 → stores 0)

/-- A write below 0x8000 has the effect of the bank controller alone and never stores: no write, to any
address, changes the image or a cell of `flat` below 0x8000 (`20_memory.md` R71). -/
def Obligations.WritesNeverStoreBelowVideoRam : Prop :=
  (∀ (s : State) (a : Word) (v : Byte), a.toNat < 0x8000 →
    write8 a v s = .next (bankWrite s a v) ∧ (bankWrite s a v).flat = s.flat ∧
      (bankWrite s a v).ramBanks = s.ramBanks) ∧
  ∀ (s t : State) (a : Word) (v : Byte), write8 a v s = .next t →
    t.cartridgeRom = s.cartridgeRom ∧ ∀ k, k < 0x8000 → t.flatAt k = s.flatAt k

/-- The bank numbers.  With no controller a write below 0x8000 changes nothing at all.  MBC2 takes four bits
of the ROM bank at 0x2000 to 0x3FFF and ignores 0x4000 to 0x5FFF.  MBC1's low five bits at 0x2000 to
0x3FFF keep the high three, its high three at 0x4000 to 0x5FFF in ROM-banking mode keep the low five; in the other mode 0x4000 to 0x5FFF
selects the RAM bank.  A ROM bank that would be 0 is 1 (`20_memory.md` R81, R84, R85, R86, R88). -/
def Obligations.BankNumberWrites : Prop :=
  ∀ (s : State) (a : Word) (v : Byte),
    let selects (n : Nat) : Prop :=
      ∃ bank : Byte, bank.toNat = (if n = 0 then 1 else n) ∧
        write8 a v s = .next { s with currentRomBank := bank }
    (s.bankingMode = .none → a.toNat < 0x8000 → write8 a v s = .next s) ∧
    (s.bankingMode = .mbc2 →
      (0x2000 ≤ a.toNat → a.toNat ≤ 0x3FFF → selects (v.toNat % 16)) ∧
      (0x4000 ≤ a.toNat → a.toNat ≤ 0x5FFF → write8 a v s = .next s)) ∧
    (s.bankingMode = .mbc1 →
      (0x2000 ≤ a.toNat → a.toNat ≤ 0x3FFF →
        selects (s.currentRomBank.toNat / 32 * 32 + v.toNat % 32)) ∧
      (0x4000 ≤ a.toNat → a.toNat ≤ 0x5FFF → s.romBankingSelect = true →
        selects (s.currentRomBank.toNat % 32 + v.toNat / 32 * 32)) ∧
      (0x4000 ≤ a.toNat → a.toNat ≤ 0x5FFF → s.romBankingSelect = false →
        ∃ bank : Byte, bank.toNat = v.toNat % 4 ∧
          write8 a v s = .next { s with currentRamBank := bank }))

/-- The rest of the bank controller: the RAM enable by the low nibble, which MBC2 ignores when bit 4 of the
address is set; MBC1's mode bit, which forces RAM bank 0 on entering ROM-banking mode; MBC2 ignores 0x4000
to 0x7FFF (`20_memory.md` section 4; other low nibbles by decision D45, the polarity of the mode bit is the
parameter of decision D20). -/
def Obligations.RamEnableAndModeSelect : Prop :=
  ∀ (s : State) (a : Word) (v : Byte),
    (s.bankingMode = .mbc1 ∨ s.bankingMode = .mbc2 → a.toNat < 0x2000 →
      (s.bankingMode = .mbc2 ∧ a.toNat / 16 % 2 = 1 → write8 a v s = .next s) ∧
      (s.bankingMode = .mbc1 ∨ a.toNat / 16 % 2 = 0 →
        write8 a v s = .next { s with
          ramEnabled :=
            if v.toNat % 16 = 10 then true else if v.toNat % 16 = 0 then false else s.ramEnabled })) ∧
    (s.bankingMode = .mbc1 → 0x6000 ≤ a.toNat → a.toNat ≤ 0x7FFF →
      (v.getLsbD 0 = s.params.modeBitRomValue →
        write8 a v s = .next { s with romBankingSelect := true, currentRamBank := 0 }) ∧
      (v.getLsbD 0 ≠ s.params.modeBitRomValue →
        write8 a v s = .next { s with romBankingSelect := false })) ∧
    (s.bankingMode = .mbc2 → 0x4000 ≤ a.toNat → a.toNat ≤ 0x7FFF → write8 a v s = .next s)

/-- The ROM bank is never 0 after a write: a bank register that is not 0 stays so under every write
(`20_memory.md` R87). -/
def Obligations.RomBankIsNeverZero : Prop :=
  (∀ (s t : State) (a : Word) (v : Byte), s.currentRomBank ≠ 0 → write8 a v s = .next t →
    t.currentRomBank ≠ 0) ∧
  ∀ (s t : State) (a : Word) (v : Byte), write8 a v s = .next t →
    t.currentRomBank ≠ s.currentRomBank → t.currentRomBank ≠ 0

/-- A write to 0xFF46 copies 0xA0 bytes, read through the read path from the page given, to the sprite
table, and changes nothing else, 0xFF46 included; a source byte beyond the image stops it with the bytes
before it copied (`20_memory.md` section 5, `70_reset_and_hazards.md` section 2). -/
def Obligations.DmaCopiesOnePage : Prop :=
  ∀ (s : State) (page : Byte) (src : Nat → Byte) (m : Nat),
    (∀ i, i < m → read8 s (BitVec.ofNat 16 (page.toNat * 256 + i)) = .ok (src i)) →
    (m = 0xA0 → ∃ t, write8 0xFF46 page s = .next t ∧ t = { s with flat := t.flat } ∧
      ∀ k, t.flatAt k
        = if 0xFE00 ≤ k ∧ k ≤ 0xFE9F then src (k - 0xFE00) else s.flatAt k) ∧
    (m < 0xA0 → ∀ index, read8 s (BitVec.ofNat 16 (page.toNat * 256 + m)) = .error index →
      ∃ t, write8 0xFF46 page s = .fault (.romIndexOutOfRange index t) ∧
        t = { s with flat := t.flat, fault := some (.romIndexOutOfRange index) } ∧
        ∀ k, t.flatAt k
          = if 0xFE00 ≤ k ∧ k < 0xFE00 + m then src (k - 0xFE00) else s.flatAt k)

/-! ### Interrupts -/

/-- A request sets the source's bit of IF and changes nothing else, whatever IE and IME hold; requesting a
pending interrupt changes nothing (`60_exceptions.md` section 3).  The index of each source is its bit; that
STAT is index 1 is the spec's inference by elimination, decision D30 (log entries 20 and 21). -/
def Obligations.RequestSetsItsBit : Prop :=
  ∀ (s : State) (i : Interrupt),
    requestInterrupt i s = { s with flat := (requestInterrupt i s).flat } ∧
    (∀ k, k ≠ 0xFF0F → (requestInterrupt i s).flatAt k = s.flatAt k) ∧
    (∀ j, j < 8 → ((requestInterrupt i s).flatAt 0xFF0F).getLsbD j
      = ((s.flatAt 0xFF0F).getLsbD j || decide (j = i.index))) ∧
    ((s.flatAt 0xFF0F).getLsbD i.index = true →
      (requestInterrupt i s).flatAt 0xFF0F = s.flatAt 0xFF0F) ∧
    [Interrupt.vblank, .stat, .timer, .serial, .joypad].map Interrupt.index = [0, 1, 2, 3, 4]

/-- The dispatch enters the lowest index that is both requested and enabled when IME is true, and changes
nothing when IME is false or no index is; bits 7 to 5 of IF and IE play no part (`60_exceptions.md`
section 3).  That a ready index 3 is entered, and not skipped by the scan, is decision D15 (log entry 19). -/
def Obligations.DispatchEntersLowestIndex : Prop :=
  ∀ s : State,
    let ready (n : Nat) : Prop := (s.flatAt 0xFF0F).getLsbD n = true ∧ (s.flatAt 0xFFFF).getLsbD n = true
    (s.ime = false → dispatchInterrupts s = .next s) ∧
    ((∀ n, n < 5 → ¬ ready n) → dispatchInterrupts s = .next s) ∧
    (s.ime = true →
      (ready 0 → dispatchInterrupts s = enterInterrupt .vblank s) ∧
      (¬ ready 0 → ready 1 → dispatchInterrupts s = enterInterrupt .stat s) ∧
      (¬ ready 0 → ¬ ready 1 → ready 2 → dispatchInterrupts s = enterInterrupt .timer s) ∧
      (¬ ready 0 → ¬ ready 1 → ¬ ready 2 → ready 3 →
        dispatchInterrupts s = enterInterrupt .serial s) ∧
      (¬ ready 0 → ¬ ready 1 → ¬ ready 2 → ¬ ready 3 → ready 4 →
        dispatchInterrupts s = enterInterrupt .joypad s))

/-- Interrupt entry clears IME and the source's request bit, pushes PC and goes to the fixed vector; index 3
has no vector and PC stays (decision D15); the devices do not advance, no flag changes, the returned cost
stays (decision D14).  A pushed byte that lands on 0xFF46 starts a DMA copy, and where that copy stops entry
ends in its fault: the model's own inference, against an aside of R333 (log entry 11).  A pending enable stays
(log entry 24) (`60_exceptions.md` section 3, stack by decision D16). -/
def Obligations.EntrySavesPcAndJumps : Prop :=
  ∀ (s : State) (flags : Byte) (i : Interrupt) (index : Nat) (pc : Word),
    (i, index, pc) ∈ [(Interrupt.vblank, 0, (0x0040 : Word)), (.stat, 1, 0x0048), (.timer, 2, 0x0050),
      (.serial, 3, s.regs.pc), (.joypad, 4, 0x0060)] →
    (∀ j, j < 8 → flags.getLsbD j = ((s.flatAt 0xFF0F).getLsbD j && decide (j ≠ index))) →
    PushesThen (enterInterrupt i s) ({ s with ime := false }.setFlat 0xFF0F flags) s.regs.pc pc
      s.lastCost

/-! ### Timers -/

/-- The divider accumulates the cost; on reaching 255 or more it restarts at 0, the excess discarded, and
DIV grows by 1 modulo 256; TAC does not gate it and nothing else changes (`60_exceptions.md` section 5,
decisions D25 and D26). -/
def Obligations.DividerAdvance : Prop :=
  ∀ (s : State) (cost : Nat),
    (s.dividerCounter + cost < 255 →
      advanceDivider cost s = { s with dividerCounter := s.dividerCounter + cost }) ∧
    (255 ≤ s.dividerCounter + cost →
      advanceDivider cost s
          = { s with dividerCounter := 0, flat := (advanceDivider cost s).flat } ∧
      ((advanceDivider cost s).flatAt 0xFF04).toNat = ((s.flatAt 0xFF04).toNat + 1) % 256 ∧
      ∀ k, k ≠ 0xFF04 → (advanceDivider cost s).flatAt k = s.flatAt k)

/-- The main timer (`60_exceptions.md` R357, R358): frozen with TAC bit 2 clear; else the counter falls by
the cost, and on reaching 0 or less it is reloaded with the period of the frequency bits, and TIMA grows
by 1 or, at 255, takes TMA and requests interrupt 2. -/
def Obligations.MainTimerAdvance : Prop :=
  ∀ (s : State) (cost : Nat),
    ((s.flatAt 0xFF07).getLsbD 2 = false → advanceMainTimer cost s = s) ∧
    ((s.flatAt 0xFF07).getLsbD 2 = true → 0 < s.timerCounter - cost →
      advanceMainTimer cost s = { s with timerCounter := s.timerCounter - cost }) ∧
    ((s.flatAt 0xFF07).getLsbD 2 = true → s.timerCounter - cost ≤ 0 →
      let t := advanceMainTimer cost s
      t = { s with timerCounter := t.timerCounter, flat := t.flat } ∧
      t.timerCounter
        = (match (s.flatAt 0xFF07).toNat % 4 with | 0 => 1024 | 1 => 16 | 2 => 64 | _ => 256) ∧
      (∀ k, k ≠ 0xFF05 → k ≠ 0xFF0F → t.flatAt k = s.flatAt k) ∧
      (s.flatAt 0xFF05 = 255 → t.flatAt 0xFF05 = s.flatAt 0xFF06 ∧
        ∀ j, j < 8 →
          (t.flatAt 0xFF0F).getLsbD j = ((s.flatAt 0xFF0F).getLsbD j || decide (j = 2))) ∧
      (s.flatAt 0xFF05 ≠ 255 → (t.flatAt 0xFF05).toNat = (s.flatAt 0xFF05).toNat + 1 ∧
        t.flatAt 0xFF0F = s.flatAt 0xFF0F))

/-! ### The pixel renderer -/

/-- The status update.  With the LCD off an advance forces mode 1, line 0 and counter 456, and changes
nothing else.  With the LCD on and the line not over, it updates STAT from the counter it finds, requests
STAT on entering an enabled mode and on an enabled coincidence, and takes the cost off the counter; nothing
else changes (`61_ppu.md` section 1; order and bits by decisions D30 to D33). -/
def Obligations.StatFollowsLineAndCounter : Prop :=
  (∀ (s : State) (cost : Nat), (s.flatAt 0xFF40).getLsbD 7 = false →
    let t := advanceGraphics cost s
    t = { s with flat := t.flat, scanlineCounter := 456 } ∧ t.flatAt 0xFF44 = 0 ∧
    (t.flatAt 0xFF41).toNat = (s.flatAt 0xFF41).toNat / 4 * 4 + 1 ∧
    ∀ k, k ≠ 0xFF41 → k ≠ 0xFF44 → t.flatAt k = s.flatAt k) ∧
  ∀ (s : State) (cost mode : Nat) (coincident requested : Bool),
    (s.flatAt 0xFF40).getLsbD 7 = true → 0 < s.scanlineCounter - cost →
    mode = (if 144 ≤ (s.flatAt 0xFF44).toNat then 1 else if 376 ≤ s.scanlineCounter then 2
      else if 204 ≤ s.scanlineCounter then 3 else 0) →
    coincident = decide (s.flatAt 0xFF44 = s.flatAt 0xFF45) →
    requested =
      ((decide (mode ≠ (s.flatAt 0xFF41).toNat % 4) &&
          (match mode with
            | 0 => (s.flatAt 0xFF41).getLsbD 3
            | 1 => (s.flatAt 0xFF41).getLsbD 4
            | 2 => (s.flatAt 0xFF41).getLsbD 5
            | _ => false)) ||
        (coincident && (s.flatAt 0xFF41).getLsbD 6)) →
    let t := advanceGraphics cost s
    t = { s with flat := t.flat, scanlineCounter := s.scanlineCounter - cost } ∧
    (t.flatAt 0xFF41).toNat
      = (s.flatAt 0xFF41).toNat / 8 * 8 + (if coincident then 4 else 0) + mode ∧
    (∀ j, j < 8 → (t.flatAt 0xFF0F).getLsbD j
      = ((s.flatAt 0xFF0F).getLsbD j || (decide (j = 1) && requested))) ∧
    ∀ k, k ≠ 0xFF41 → k ≠ 0xFF0F → t.flatAt k = s.flatAt k

/-- A line advance, from a line in range: LY grows by 1 or wraps from 153 to 0, the counter restarts at 456,
V-blank is requested on entering line 144, and the new line is drawn when it is below 144; the wrap to
line 0 draws nothing unless the parameter says so.  With the LCD on and the counter run out, an advance is
the STAT update, which leaves the counter, followed by the line advance, whatever the deficit
(`61_ppu.md` sections 1 and 2, decisions D26, D32 and D34). -/
def Obligations.LineAdvance : Prop :=
  (∀ (s : State) (cost : Nat), (s.flatAt 0xFF40).getLsbD 7 = true → s.scanlineCounter - cost ≤ 0 →
    advanceGraphics cost s = advanceLine (updateStatOn s) ∧
    (updateStatOn s).scanlineCounter = s.scanlineCounter) ∧
  ∀ (s : State) (ly : Nat), ly = (s.flatAt 0xFF44).toNat → ly ≤ 153 →
    let t := advanceLine s
    t = { s with flat := t.flat, scanlineCounter := 456, screen := t.screen } ∧
    (t.flatAt 0xFF44).toNat = (if ly = 153 then 0 else ly + 1) ∧
    (∀ j, j < 8 → (t.flatAt 0xFF0F).getLsbD j
      = ((s.flatAt 0xFF0F).getLsbD j || (decide (j = 0) && decide (ly = 143)))) ∧
    (∀ k, k ≠ 0xFF44 → k ≠ 0xFF0F → t.flatAt k = s.flatAt k) ∧
    t.screen
      = if ly < 143 then (renderLine (ly + 1) s).screen
        else if ly = 153 ∧ s.params.renderLine0OnWrap = true then (renderLine 0 s).screen
        else s.screen

/-- Drawing a line changes the framebuffer only, only in that row, and only with a layer enabled
(`61_ppu.md` section 3). -/
def Obligations.RenderLineTouchesItsRowOnly : Prop :=
  ∀ (s : State) (ly : Nat), ly < 144 →
    renderLine ly s = { s with screen := (renderLine ly s).screen } ∧
    (∀ x y c, x < 160 → y < 144 → c < 3 → y ≠ ly →
      (renderLine ly s).screenAt x y c = s.screenAt x y c) ∧
    ((s.flatAt 0xFF40).getLsbD 0 = false → (s.flatAt 0xFF40).getLsbD 1 = false →
      renderLine ly s = s)

/-- Every pixel of a line drawn with the background pass alone: the window where it is active and covers the
column, else the scrolled background; the tile through its map and data base, the colour index from the two
planes, the shade through BGP, the colour from the parameter (`61_ppu.md` section 3, decisions D35 and
D36). -/
def Obligations.BackgroundPixel : Prop :=
  ∀ (s : State) (ly px x y map tile base index shade : Nat),
    ly < 144 → px < 160 →
    (s.flatAt 0xFF40).getLsbD 0 = true → (s.flatAt 0xFF40).getLsbD 1 = false →
    ((s.flatAt 0xFF40).getLsbD 5 = true ∧ (s.flatAt 0xFF4A).toNat ≤ ly ∧
        (s.flatAt 0xFF4B).toNat ≤ px + 7 →
      y + (s.flatAt 0xFF4A).toNat = ly ∧ x + (s.flatAt 0xFF4B).toNat = px + 7 ∧
      map = (if (s.flatAt 0xFF40).getLsbD 6 then 0x9C00 else 0x9800)) →
    (¬ ((s.flatAt 0xFF40).getLsbD 5 = true ∧ (s.flatAt 0xFF4A).toNat ≤ ly ∧
        (s.flatAt 0xFF4B).toNat ≤ px + 7) →
      y = ((s.flatAt 0xFF42).toNat + ly) % 256 ∧ x = ((s.flatAt 0xFF43).toNat + px) % 256 ∧
      map = (if (s.flatAt 0xFF40).getLsbD 3 then 0x9C00 else 0x9800)) →
    tile = (s.flatAt (map + y / 8 * 32 + x / 8)).toNat →
    base = (if (s.flatAt 0xFF40).getLsbD 4 then 0x8000 + tile * 16
      else if tile < 128 then 0x9000 + tile * 16 else 0x8000 + tile * 16) →
    index = 2 * ((s.flatAt (base + 2 * (y % 8) + 1)).getLsbD (7 - x % 8)).toNat
      + ((s.flatAt (base + 2 * (y % 8))).getLsbD (7 - x % 8)).toNat →
    shade = (s.flatAt 0xFF47).toNat / 4 ^ index % 4 →
    (⟨(renderLine ly s).screenAt px ly 0, (renderLine ly s).screenAt px ly 1,
        (renderLine ly s).screenAt px ly 2⟩ : Config.Rgb)
      = (match shade with
          | 0 => s.params.rgb.shade0
          | 1 => s.params.rgb.shade1
          | 2 => s.params.rgb.shade2
          | _ => s.params.rgb.shade3)

/-- The sprite pass over any framebuffer: a pixel of the line that no sprite covers with a non-zero shade is
left alone (shade 0 never overwrites), and one that some do takes the colour of the last of them in OAM
order.  Drawing a line runs the background pass if LCDC bit 0 is set, and then the sprite pass over its
framebuffer if LCDC bit 1 is set (`61_ppu.md` sections 3 and 4; the test on the shade by conflict C4, the
picture layout by decision D35, log entry 20). -/
def Obligations.SpritePixel : Prop :=
  (∀ (s : State) (ly : Nat),
    let tiles := if (s.flatAt 0xFF40).getLsbD 0 then drawTiles s ly s.screen else s.screen
    (renderLine ly s).screen = if (s.flatAt 0xFF40).getLsbD 1 then drawSprites s ly tiles else tiles) ∧
  ∀ (s : State) (m : Memory) (ly x : Nat), ly < 144 → x < 160 →
    ((∀ n shade, n < 40 → SpriteShows s ly n x shade → shade = 0) →
      ∀ c, c < 3 → (drawSprites s ly m).read zeroInitial ((x * 144 + ly) * 3 + c)
        = m.read zeroInitial ((x * 144 + ly) * 3 + c)) ∧
    ∀ n shade, n < 40 → SpriteShows s ly n x shade → shade ≠ 0 →
      (∀ n' shade', n < n' → n' < 40 → SpriteShows s ly n' x shade' → shade' = 0) →
      (⟨(drawSprites s ly m).read zeroInitial ((x * 144 + ly) * 3),
          (drawSprites s ly m).read zeroInitial ((x * 144 + ly) * 3 + 1),
          (drawSprites s ly m).read zeroInitial ((x * 144 + ly) * 3 + 2)⟩ : Config.Rgb)
        = (match shade with
            | 0 => s.params.rgb.shade0
            | 1 => s.params.rgb.shade1
            | 2 => s.params.rgb.shade2
            | _ => s.params.rgb.shade3)

/-! ### The joypad and the host -/

/-- A read of 0xFF00 with exactly one group selected: the inverted select byte, with the four keys of the
group and-ed into the low nibble (`60_exceptions.md` section 6, decision D27).  With both or neither group
selected the value is open, and nothing is stated. -/
def Obligations.JoypadRead : Prop :=
  ∀ (s : State) (v : Byte), read8 s 0xFF00 = .ok v →
    ((s.flatAt 0xFF00).getLsbD 4 = false → (s.flatAt 0xFF00).getLsbD 5 = true →
      ∀ k, k < 8 → v.getLsbD k
        = (!(s.flatAt 0xFF00).getLsbD k && (decide (4 ≤ k) || s.joypadState.getLsbD k))) ∧
    ((s.flatAt 0xFF00).getLsbD 4 = true → (s.flatAt 0xFF00).getLsbD 5 = false →
      ∀ k, k < 8 → v.getLsbD k
        = (!(s.flatAt 0xFF00).getLsbD k && (decide (4 ≤ k) || s.joypadState.getLsbD (4 + k))))

/-- `keyPressed` clears the key's bit and requests interrupt 4 exactly when the key was released and its
group is selected; pressing a pressed key changes nothing.  `keyReleased` sets the key's bit and does
nothing else: no interrupt, and releasing a key that is not pressed changes nothing.  A key above 7 is
refused by both (`60_exceptions.md` section 6, decision D28). -/
def Obligations.KeyInputs : Prop :=
  ∀ (s : State) (key : Nat),
    (8 ≤ key → keyPressed key s = .refused (.keyOutOfRange key) ∧
      keyReleased key s = .refused (.keyOutOfRange key)) ∧
    (key < 8 → s.joypadState.getLsbD key = false → keyPressed key s = .next s) ∧
    (key < 8 → s.joypadState.getLsbD key = true →
      ∃ t, keyPressed key s = .next t ∧
        t = { s with flat := t.flat, joypadState := t.joypadState } ∧
        (∀ j, j < 8 → t.joypadState.getLsbD j = (s.joypadState.getLsbD j && decide (j ≠ key))) ∧
        (∀ k, k ≠ 0xFF0F → t.flatAt k = s.flatAt k) ∧
        ∀ j, j < 8 → (t.flatAt 0xFF0F).getLsbD j
          = ((s.flatAt 0xFF0F).getLsbD j ||
              (decide (j = 4) && !(s.flatAt 0xFF00).getLsbD (if key ≤ 3 then 4 else 5)))) ∧
    (key < 8 → ∃ keys : Byte,
      (∀ j, j < 8 → keys.getLsbD j = (s.joypadState.getLsbD j || decide (j = key))) ∧
      keyReleased key s = .next { s with joypadState := keys } ∧
      (s.joypadState.getLsbD key = true → keyReleased key s = .next s))

/-- `RunFrame` that answers a state has stepped until the costs reached the budget and no further: the costs
before its last step were below the budget; one that answers a fault has stepped, below the budget, to a
state whose step answers that fault; it never refuses (`60_exceptions.md` section 8, decision D37). -/
def Obligations.RunFrameMeetsItsBudget : Prop :=
  ∀ s : State,
    (∀ t, runFrame s = .next t → ∃ n acc u, RunsTo n s acc u ∧ acc < s.params.frameBudget.val ∧
      step u = .next t ∧ s.params.frameBudget.val ≤ acc + t.lastCost) ∧
    (∀ f, runFrame s = .fault f → ∃ n acc u, RunsTo n s acc u ∧ acc < s.params.frameBudget.val ∧
      step u = .fault f) ∧
    ∀ r, runFrame s ≠ .refused r
end

