-- ==== Sys2Proof/Laws/Flags.lean ====
section
/-!
SUPPORT. Bytes, words and flag bits: what the helpers of Machine/Bits.lean and Machine/Flags.lean do, bit
by bit.
-/

namespace Sys2Proof.Machine

/-! ### Words and their bytes -/

theorem wordOf_toNat (hi lo : Byte) : (wordOf hi lo).toNat = hi.toNat * 256 + lo.toNat := by
  have h := Nat.shiftLeft_add_eq_or_of_lt lo.isLt hi.toNat
  rw [wordOf, BitVec.toNat_append, ← h, Nat.shiftLeft_eq]

theorem hiByte_toNat (v : Word) : (hiByte v).toNat = v.toNat / 256 := by
  have h := v.isLt
  simp [hiByte, BitVec.extractLsb'_toNat, Nat.shiftRight_eq_div_pow]
  omega

theorem loByte_toNat (v : Word) : (loByte v).toNat = v.toNat % 256 := by
  simp [loByte, BitVec.extractLsb'_toNat]

@[simp] theorem hiByte_wordOf (hi lo : Byte) : hiByte (wordOf hi lo) = hi := by
  apply BitVec.eq_of_toNat_eq
  have h := lo.isLt
  rw [hiByte_toNat, wordOf_toNat]
  omega

@[simp] theorem loByte_wordOf (hi lo : Byte) : loByte (wordOf hi lo) = lo := by
  apply BitVec.eq_of_toNat_eq
  have h := lo.isLt
  rw [loByte_toNat, wordOf_toNat]
  omega

@[simp] theorem wordOf_hiByte_loByte (v : Word) : wordOf (hiByte v) (loByte v) = v := by
  apply BitVec.eq_of_toNat_eq
  rw [wordOf_toNat, hiByte_toNat, loByte_toNat]
  omega

/-! ### One bit -/

@[simp] theorem bitOf_withBit (v : Byte) (i : Nat) (b : Bool) (j : Nat) (hi : i < 8) :
    bitOf (withBit v i b) j = if j = i then b else bitOf v j := by
  by_cases hj : j < 8
  · unfold bitOf withBit
    by_cases h : j = i
    · subst h
      cases b <;> simp [hj]
    · by_cases hlt : j < i
      · cases b <;> simp [hj, h, hlt]
      · have : j - i ≠ 0 := by omega
        cases b <;> simp [hj, h, hlt, this]
  · have hne : j ≠ i := by omega
    simp only [bitOf, hne, if_false]
    rw [BitVec.getLsbD_of_ge _ _ (by omega), BitVec.getLsbD_of_ge _ _ (by omega)]

/-! ### `setFlags` -/

/-- The eight bits of F after `SetFlags` (`00_scope.md` R15). -/
theorem setFlags_bit (f : Byte) (z n h c : Option Bool) (j : Nat) :
    bitOf (setFlags f z n h c) j
      = match j with
        | 7 => z.getD (bitOf f 7)
        | 6 => n.getD (bitOf f 6)
        | 5 => h.getD (bitOf f 5)
        | 4 => c.getD (bitOf f 4)
        | j => bitOf f j := by
  cases z <;> cases n <;> cases h <;> cases c <;> simp only [setFlags, Option.getD] <;>
    (split <;> simp_all)

@[simp] theorem setFlags_z (f : Byte) (z n h c : Option Bool) :
    bitOf (setFlags f z n h c) 7 = z.getD (bitOf f 7) := setFlags_bit f z n h c 7

@[simp] theorem setFlags_n (f : Byte) (z n h c : Option Bool) :
    bitOf (setFlags f z n h c) 6 = n.getD (bitOf f 6) := setFlags_bit f z n h c 6

@[simp] theorem setFlags_h (f : Byte) (z n h c : Option Bool) :
    bitOf (setFlags f z n h c) 5 = h.getD (bitOf f 5) := setFlags_bit f z n h c 5

@[simp] theorem setFlags_c (f : Byte) (z n h c : Option Bool) :
    bitOf (setFlags f z n h c) 4 = c.getD (bitOf f 4) := setFlags_bit f z n h c 4

/-- A byte's low nibble is its four low bits. -/
theorem lowNibble_congr {f g : Byte} (h : ∀ j, j < 4 → bitOf f j = bitOf g j) :
    f.toNat % 16 = g.toNat % 16 := by
  have e : f.extractLsb' 0 4 = g.extractLsb' 0 4 := by
    ext j hj
    simpa [bitOf, BitVec.getLsbD_eq_getElem, show j < 8 by omega] using h j hj
  simpa [BitVec.extractLsb'_toNat] using congrArg BitVec.toNat e

/-- `SetFlags` leaves the low nibble of F alone (`00_scope.md` R15, `10_state.md` R25). -/
@[simp] theorem setFlags_lowNibble (f : Byte) (z n h c : Option Bool) :
    (setFlags f z n h c).toNat % 16 = f.toNat % 16 := by
  refine lowNibble_congr fun j hj => ?_
  rw [setFlags_bit]
  match j, hj with
  | 0, _ | 1, _ | 2, _ | 3, _ => rfl

end Sys2Proof.Machine
end

