-- ==== Sys2Proof/Laws/Decode.lean ====
section
/-!
SUPPORT. Decoding: the operand bytes of an instruction give its operand, the opcode byte everything else.
-/

namespace Sys2Proof

open Machine (wordOf hiByte loByte inBase)

/-- The instruction with its immediate operand made of the two bytes after the opcode byte. -/
def Instr.withOperands (n1 n2 : Byte) : Instr → Instr
  | .ldRN dst _ => .ldRN dst n1
  | .ldHlN _ => .ldHlN n1
  | .ldANn _ => .ldANn (wordOf n2 n1)
  | .ldNnA _ => .ldNnA (wordOf n2 n1)
  | .ldRrNn p _ => .ldRrNn p (wordOf n2 n1)
  | .ldNnSp _ => .ldNnSp (wordOf n2 n1)
  | .addN _ => .addN n1
  | .adcN _ => .adcN n1
  | .subN _ => .subN n1
  | .sbcN _ => .sbcN n1
  | .xorN _ => .xorN n1
  | .andN _ => .andN n1
  | .orN _ => .orN n1
  | .cpN _ => .cpN n1
  | .ldhNA _ => .ldhNA n1
  | .ldhAN _ => .ldhAN n1
  | .ldHlSpE _ => .ldHlSpE n1
  | .addSpE _ => .addSpE n1
  | .jpNn _ => .jpNn (wordOf n2 n1)
  | .jpCcNn cc _ => .jpCcNn cc (wordOf n2 n1)
  | .jrE _ => .jrE n1
  | .jrCcE cc _ => .jrCcE cc n1
  | .callNn _ => .callNn (wordOf n2 n1)
  | .callCcNn cc _ => .callCcNn cc (wordOf n2 n1)
  | i => i

theorem regOrHl_withOperands (n1 n2 : Byte) (f : Nat) (reg : Reg8 → Instr) (hl : Instr) :
    (regOrHl f reg hl).withOperands n1 n2
      = regOrHl f (fun r => (reg r).withOperands n1 n2) (hl.withOperands n1 n2) := by
  unfold regOrHl
  split <;> rfl

theorem decodeLow_operands (y z : Nat) (n1 n2 : Byte) :
    decodeLow y z n1 (wordOf n2 n1) = (decodeLow y z 0 (wordOf 0 0)).map (Instr.withOperands n1 n2) := by
  unfold decodeLow
  repeat' split
  all_goals simp only [Option.map_some, Option.map_none, regOrHl_withOperands]
  all_goals rfl

theorem decodeHigh_operands (y z : Nat) (n1 n2 : Byte) :
    decodeHigh y z n1 (wordOf n2 n1)
      = (decodeHigh y z 0 (wordOf 0 0)).map (Instr.withOperands n1 n2) := by
  unfold decodeHigh decodeAluImm
  repeat' split
  all_goals rfl

/-- The opcode byte selects the instruction, the operand bytes its operand. -/
theorem decodePlain_operands (op n1 n2 : Byte) :
    decodePlain op n1 n2 = (decodePlain op 0 0).map (Instr.withOperands n1 n2) := by
  simp only [decodePlain]
  split
  · exact decodeLow_operands _ _ _ _
  · simp only [Option.map_some, decodeLoadBlock]
    split
    · rw [regOrHl_withOperands]; rfl
    · rw [regOrHl_withOperands]; rfl
  · simp only [Option.map_some, decodeAlu]
    split <;> rw [regOrHl_withOperands] <;> rfl
  · exact decodeHigh_operands _ _ _ _

@[simp] theorem inBase_withOperands (n1 n2 : Byte) (i : Instr) :
    inBase (i.withOperands n1 n2) = inBase i := by
  cases i <;> rfl

@[simp] theorem length_withOperands (n1 n2 : Byte) (i : Instr) :
    (i.withOperands n1 n2).length = i.length := by
  cases i <;> rfl

@[simp] theorem wellFormed_withOperands (n1 n2 : Byte) (i : Instr) :
    (i.withOperands n1 n2).wellFormed = i.wellFormed := by
  cases i <;> rfl

/-- The length of an instruction is the number of its bytes. -/
@[simp] theorem encode_length (i : Instr) : (encode i).length = i.length := by
  cases i <;> rfl

/-- The bytes of an instruction that is not prefixed: its opcode byte and as many operand bytes as its
length leaves. -/
theorem encode_withOperands (n1 n2 : Byte) {i : Instr} {op : Byte} (h : (encode i).head? = some op)
    (hop : op ≠ prefixByte) :
    encode (i.withOperands n1 n2) = op :: [n1, n2].take (i.length - 1) := by
  cases i
  all_goals first
    | exact absurd (Option.some.inj h).symm hop
    | (cases Option.some.inj h; rfl)
    | (cases Option.some.inj h; simp [Instr.withOperands, encode, Instr.length])

set_option maxRecDepth 4096 in
/-- Every handled opcode byte is the one its instruction is encoded with. -/
theorem decodePlain_head : ∀ op : Fin 256,
    (decodePlain (BitVec.ofFin op) 0 0).all
      (fun i => decide ((encode i).head? = some (BitVec.ofFin op)) && i.wellFormed) = true := by
  decide

set_option maxRecDepth 4096 in
/-- Every byte after the prefix is the one its instruction is encoded with. -/
theorem decodePrefixed_encode : ∀ op : Fin 256,
    encode (decodePrefixed (BitVec.ofFin op)) = [prefixByte, BitVec.ofFin op]
      ∧ (decodePrefixed (BitVec.ofFin op)).wellFormed = true := by
  decide

theorem decodePlain_some {op n1 n2 : Byte} {i : Instr} (h : decodePlain op n1 n2 = some i) :
    ∃ head, decodePlain op 0 0 = some head ∧ i = head.withOperands n1 n2
      ∧ (encode head).head? = some op ∧ i.wellFormed = true ∧ i.length = head.length
      ∧ inBase i = inBase head := by
  rw [decodePlain_operands] at h
  obtain ⟨head, hh, rfl⟩ := Option.map_eq_some_iff.mp h
  have hd := decodePlain_head op.toFin
  have e : (BitVec.ofFin op.toFin : Byte) = op := rfl
  simp only [e, hh, Option.all_some, Bool.and_eq_true, decide_eq_true_eq] at hd
  exact ⟨head, hh, rfl, hd.1, by simpa using hd.2, by simp, by simp⟩

theorem instrLength_plain {op : Byte} (hop : op ≠ prefixByte) {head : Instr}
    (h : decodePlain op 0 0 = some head) : instrLength op = head.length := by
  rw [instrLength, if_neg hop, h]

theorem decodePrefixed_spec (op : Byte) :
    encode (decodePrefixed op) = [prefixByte, op] ∧ (decodePrefixed op).wellFormed = true :=
  decodePrefixed_encode op.toFin

theorem length_pos (i : Instr) : 1 ≤ i.length ∧ i.length ≤ 3 := by
  cases i <;> simp [Instr.length]

/-- What `decode` answers is well formed, and the bytes are the ones it is encoded with: each word has
one meaning. -/
theorem encode_of_decode {bytes rest : List Byte} {i : Instr} (h : decode bytes = .ok (i, rest)) :
    i.wellFormed = true ∧ bytes = encode i ++ rest := by
  match bytes with
  | [] => exact absurd h (by simp [decode])
  | op :: tail =>
    unfold decode at h
    simp only at h
    by_cases hop : op = prefixByte
    · rw [if_pos hop] at h
      match tail with
      | [] => exact absurd h (by simp)
      | op2 :: after =>
        simp only [Except.ok.injEq, Prod.mk.injEq] at h
        obtain ⟨rfl, rfl⟩ := h
        have hs := decodePrefixed_spec op2
        exact ⟨hs.2, by rw [hs.1, hop]; rfl⟩
    · rw [if_neg hop] at h
      have finish : ∀ (n1 n2 : Byte) (after : List Byte),
          (match decodePlain op n1 n2 with
            | some j => Except.ok (j, after)
            | none => Except.error (DecodeError.unsupportedOpcode op)) = .ok (i, rest) →
          i.wellFormed = true ∧ rest = after ∧ instrLength op = i.length ∧
            encode i = op :: [n1, n2].take (i.length - 1) := by
        intro n1 n2 after hm
        split at hm
        · rename_i j hj
          simp only [Except.ok.injEq, Prod.mk.injEq] at hm
          obtain ⟨rfl, rfl⟩ := hm
          obtain ⟨head, hh, rfl, he, hw, hl, -⟩ := decodePlain_some hj
          refine ⟨hw, rfl, ?_, ?_⟩
          · rw [instrLength_plain hop hh, hl]
          · rw [encode_withOperands n1 n2 he hop, hl]
        · exact absurd hm (by simp)
      split at h
      · rename_i n1 n2 after hlen
        obtain ⟨hw, rfl, hl, he⟩ := finish n1 n2 after h
        refine ⟨hw, ?_⟩
        rw [he, ← hl, hlen]; rfl
      · exact absurd h (by simp)
      · rename_i n1 after hlen
        obtain ⟨hw, rfl, hl, he⟩ := finish n1 0 after h
        refine ⟨hw, ?_⟩
        rw [he, ← hl, hlen]; rfl
      · exact absurd h (by simp)
      · rename_i h3 h3' h2 h2'
        obtain ⟨hw, rfl, hl, he⟩ := finish 0 0 _ h
        refine ⟨hw, ?_⟩
        have := length_pos i
        have l1 : i.length = 1 := by
          rcases Nat.lt_trichotomy i.length 2 with hlt | heq | hgt
          · omega
          · exfalso
            rw [heq] at hl
            cases rest with
            | nil => exact h2' hl rfl
            | cons x xs => exact h2 _ _ hl rfl
          · exact absurd (by omega) h3
        rw [he, l1]; rfl

/-- A 3-bit field has eight values. -/
theorem cases_lt_eight {P : Nat → Prop} {n : Nat} (hn : n < 8) (h0 : P 0) (h1 : P 1) (h2 : P 2)
    (h3 : P 3) (h4 : P 4) (h5 : P 5) (h6 : P 6) (h7 : P 7) : P n := by
  match n, hn with
  | 0, _ => exact h0
  | 1, _ => exact h1
  | 2, _ => exact h2
  | 3, _ => exact h3
  | 4, _ => exact h4
  | 5, _ => exact h5
  | 6, _ => exact h6
  | 7, _ => exact h7

end Sys2Proof
end

