-- ==== Sys2Proof/Laws/Memory.lean ====
section
/-!
SUPPORT. Reading after writing, and the canonical form of memories (Machine/Memory.lean).
-/

namespace Sys2Proof.Machine

variable {initial : Nat → Byte}

@[simp] theorem Memory.read_nil (k : Nat) : Memory.read initial [] k = initial k := rfl

theorem Memory.read_erase (m : Memory) (j k : Nat) :
    Memory.read initial (Memory.erase m j) k = if k = j then initial k else Memory.read initial m k := by
  induction m with
  | nil => simp [Memory.erase]
  | cons c rest ih =>
    obtain ⟨a, v⟩ := c
    simp only [Memory.erase] at ih
    by_cases haj : a = j
    · subst haj
      simp only [Memory.erase, List.filter_cons, ne_eq, not_true_eq_false, decide_false,
        Bool.false_eq_true, if_false, ih, Memory.read]
      split <;> simp_all
    · simp only [Memory.erase, List.filter_cons, ne_eq, haj, not_false_eq_true, decide_true, if_true,
        Memory.read, ih]
      split <;> simp_all

/-- A read gives the last value written at its address, and what it gave before at any other. -/
@[simp] theorem Memory.read_write (m : Memory) (a k : Nat) (x : Byte) :
    Memory.read initial (Memory.write initial m a x) k
      = if k = a then x else Memory.read initial m k := by
  induction m with
  | nil =>
    simp only [Memory.write]
    split <;> rename_i h
    · by_cases hk : k = a <;> simp_all [Memory.read]
    · simp [Memory.read]
  | cons c rest ih =>
    obtain ⟨b, v⟩ := c
    simp only [Memory.write]
    split
    · rename_i hlt
      simp only [Memory.read, ih]
      by_cases hk : k = b
      · subst hk
        simp [Nat.ne_of_lt hlt]
      · simp [hk]
    · split <;> rename_i hx
      · rw [Memory.read_erase]
        by_cases hk : k = a <;> simp_all
      · simp only [Memory.read]
        by_cases hk : k = a
        · simp [hk]
        · have h := Memory.read_erase (initial := initial) ((b, v) :: rest) a k
          simp only [Memory.read, hk, if_false] at h
          simp [hk, h]

theorem Memory.wfFrom_mono {m : Memory} {lo hi : Nat} (hle : lo ≤ hi)
    (h : Memory.wfFrom initial hi m = true) : Memory.wfFrom initial lo m = true := by
  cases m with
  | nil => rfl
  | cons c rest =>
    obtain ⟨a, v⟩ := c
    simp only [Memory.wfFrom, Bool.and_eq_true, decide_eq_true_eq] at h ⊢
    exact ⟨⟨by omega, h.1.2⟩, h.2⟩

theorem Memory.wfFrom_erase {m : Memory} {lo : Nat} (k : Nat)
    (h : Memory.wfFrom initial lo m = true) :
    Memory.wfFrom initial lo (Memory.erase m k) = true := by
  induction m generalizing lo with
  | nil => rfl
  | cons c rest ih =>
    obtain ⟨a, v⟩ := c
    simp only [Memory.wfFrom, Bool.and_eq_true, decide_eq_true_eq] at h
    have hrest := ih h.2
    by_cases hk : a = k
    · simpa [Memory.erase, List.filter_cons, hk] using Memory.wfFrom_mono (by omega) hrest
    · simpa [Memory.erase, List.filter_cons, hk, Memory.wfFrom, h.1.1, h.1.2] using hrest

/-- Erasing a cell at or below which nothing lies leaves only cells above it. -/
theorem Memory.wfFrom_erase_above {m : Memory} {k : Nat}
    (h : Memory.wfFrom initial k m = true) :
    Memory.wfFrom initial (k + 1) (Memory.erase m k) = true := by
  cases m with
  | nil => rfl
  | cons c rest =>
    obtain ⟨a, v⟩ := c
    simp only [Memory.wfFrom, Bool.and_eq_true, decide_eq_true_eq] at h
    by_cases hk : a = k
    · subst hk
      simpa [Memory.erase, List.filter_cons] using Memory.wfFrom_erase a h.2
    · have hlt : k + 1 ≤ a := by omega
      simpa [Memory.erase, List.filter_cons, hk, Memory.wfFrom, h.1.2, hlt]
        using Memory.wfFrom_erase k h.2

theorem Memory.wfFrom_write {m : Memory} {lo k : Nat} (x : Byte) (hlo : lo ≤ k)
    (h : Memory.wfFrom initial lo m = true) :
    Memory.wfFrom initial lo (Memory.write initial m k x) = true := by
  induction m generalizing lo with
  | nil =>
    simp only [Memory.write]
    split <;> simp_all [Memory.wfFrom]
  | cons c rest ih =>
    obtain ⟨a, v⟩ := c
    simp only [Memory.write]
    have h0 := h
    simp only [Memory.wfFrom, Bool.and_eq_true, decide_eq_true_eq] at h
    split
    · rename_i hlt
      simp [Memory.wfFrom, h.1.1, h.1.2, ih (by omega) h.2]
    · rename_i hge
      split
      · exact Memory.wfFrom_erase k h0
      · rename_i hx
        have hk : Memory.wfFrom initial k ((a, v) :: rest) = true := by
          simp [Memory.wfFrom, h.1.2, h.2]; omega
        simp [Memory.wfFrom, hlo, hx, Memory.wfFrom_erase_above hk]

/-- A write keeps the canonical form. -/
theorem Memory.wf_write {m : Memory} (k : Nat) (x : Byte) (h : Memory.wf initial m = true) :
    Memory.wf initial (Memory.write initial m k x) = true :=
  Memory.wfFrom_write x (Nat.zero_le k) h

theorem Memory.below_erase {m : Memory} {size : Nat} (k : Nat) (h : Memory.below size m = true) :
    Memory.below size (Memory.erase m k) = true := by
  simp only [Memory.below, Memory.erase, List.all_eq_true, List.mem_filter] at h ⊢
  exact fun c hc => h c hc.1

/-- A write inside the size keeps every cell inside it. -/
theorem Memory.below_write {m : Memory} {size k : Nat} (x : Byte) (hk : k < size)
    (h : Memory.below size m = true) :
    Memory.below size (Memory.write initial m k x) = true := by
  induction m with
  | nil =>
    simp only [Memory.write]
    split <;> simp_all [Memory.below]
  | cons c rest ih =>
    obtain ⟨a, v⟩ := c
    have h0 := h
    simp only [Memory.below, List.all_cons, Bool.and_eq_true, decide_eq_true_eq] at h
    simp only [Memory.write]
    split
    · simpa [Memory.below, h.1] using ih (by simpa [Memory.below] using h.2)
    · have he := Memory.below_erase k h0
      split
      · exact he
      · simpa [Memory.below, hk] using he

/-- An address below every cell reads as the initial value. -/
theorem Memory.read_of_wfFrom {m : Memory} {lo k : Nat} (h : Memory.wfFrom initial lo m = true)
    (hk : k < lo) : Memory.read initial m k = initial k := by
  induction m generalizing lo with
  | nil => rfl
  | cons c rest ih =>
    obtain ⟨a, v⟩ := c
    simp only [Memory.wfFrom, Bool.and_eq_true, decide_eq_true_eq] at h
    have hne : k ≠ a := by omega
    simp only [Memory.read, hne, if_false]
    exact ih h.2 (by omega)

/-- Two memories in canonical form with the same contents are the same list. -/
theorem Memory.ext_of_wfFrom {m n : Memory} {lo : Nat} (hm : Memory.wfFrom initial lo m = true)
    (hn : Memory.wfFrom initial lo n = true)
    (h : ∀ k, Memory.read initial m k = Memory.read initial n k) : m = n := by
  induction m generalizing n lo with
  | nil =>
    cases n with
    | nil => rfl
    | cons c rest =>
      obtain ⟨a, v⟩ := c
      simp only [Memory.wfFrom, Bool.and_eq_true, decide_eq_true_eq] at hn
      exact absurd (h a).symm (by simpa [Memory.read] using hn.1.2)
  | cons c rest ih =>
    obtain ⟨a, v⟩ := c
    have hm0 := hm
    simp only [Memory.wfFrom, Bool.and_eq_true, decide_eq_true_eq] at hm
    cases n with
    | nil => exact absurd (h a) (by simpa [Memory.read] using hm.1.2)
    | cons d rest' =>
      obtain ⟨b, w⟩ := d
      have hn0 := hn
      simp only [Memory.wfFrom, Bool.and_eq_true, decide_eq_true_eq] at hn
      rcases Nat.lt_trichotomy a b with hab | hab | hab
      · have hlow : Memory.wfFrom initial b ((b, w) :: rest') = true := by
          simp [Memory.wfFrom, hn.1.2, hn.2]
        have := h a
        rw [Memory.read_of_wfFrom hlow hab] at this
        exact absurd this (by simpa [Memory.read] using hm.1.2)
      · subst hab
        have hv : v = w := by simpa [Memory.read] using h a
        subst hv
        congr 1
        refine ih hm.2 hn.2 fun k => ?_
        by_cases hk : k = a
        · subst hk
          rw [Memory.read_of_wfFrom hm.2 (by omega), Memory.read_of_wfFrom hn.2 (by omega)]
        · simpa [Memory.read, hk] using h k
      · have hlow : Memory.wfFrom initial a ((a, v) :: rest) = true := by
          simp [Memory.wfFrom, hm.1.2, hm.2]
        have := (h b).symm
        rw [Memory.read_of_wfFrom hlow hab] at this
        exact absurd this (by simpa [Memory.read] using hn.1.2)

/-- See `Memory.ext_of_wfFrom`. -/
theorem Memory.ext_of_wf {m n : Memory} (hm : Memory.wf initial m = true)
    (hn : Memory.wf initial n = true)
    (h : ∀ k, Memory.read initial m k = Memory.read initial n k) : m = n :=
  Memory.ext_of_wfFrom hm hn h

/-- Writing the byte that is there changes nothing. -/
theorem Memory.write_read_self {m : Memory} (hm : Memory.wf initial m = true) (k : Nat) :
    Memory.write initial m k (Memory.read initial m k) = m := by
  refine Memory.ext_of_wf (Memory.wf_write k _ hm) hm fun j => ?_
  rw [Memory.read_write]
  split <;> simp_all

/-! ### A pixel -/

/-- Every byte of the framebuffer after one pixel is drawn. -/
theorem drawPixel_read (m : Memory) (x y k : Nat) (rgb : Config.Rgb) :
    Memory.read zeroInitial (drawPixel m x y rgb) k
      = if k = (x * 144 + y) * 3 + 2 then rgb.blue
        else if k = (x * 144 + y) * 3 + 1 then rgb.green
        else if k = (x * 144 + y) * 3 then rgb.red
        else Memory.read zeroInitial m k := by
  simp [drawPixel]

theorem drawPixel_wf {m : Memory} (x y : Nat) (rgb : Config.Rgb)
    (h : Memory.wf zeroInitial m = true) : Memory.wf zeroInitial (drawPixel m x y rgb) = true :=
  Memory.wf_write _ _ (Memory.wf_write _ _ (Memory.wf_write _ _ h))

theorem drawPixel_below {m : Memory} {x y : Nat} (rgb : Config.Rgb) (hx : x < 160) (hy : y < 144)
    (h : Memory.below screenSize m = true) :
    Memory.below screenSize (drawPixel m x y rgb) = true := by
  have hs : screenSize = 69120 := by decide
  exact Memory.below_write _ (by omega) (Memory.below_write _ (by omega)
    (Memory.below_write _ (by omega) h))

end Sys2Proof.Machine
end

