-- ==== Sys2Proof/Laws/State.lean ====
section
/-!
SUPPORT. What each update of the state leaves in each field: one lemma per field per update, true by
`rfl`, and the reads of memory after an update.
-/

namespace Sys2Proof.Machine

/-! ### `setFlat` -/

@[simp] theorem State.setFlat_regs (s : State) (a : Nat) (v : Byte) : (s.setFlat a v).regs = s.regs := rfl
@[simp] theorem State.setFlat_ime (s : State) (a : Nat) (v : Byte) : (s.setFlat a v).ime = s.ime := rfl
@[simp] theorem State.setFlat_eiPending (s : State) (a : Nat) (v : Byte) : (s.setFlat a v).eiPending = s.eiPending := rfl
@[simp] theorem State.setFlat_armed (s : State) (a : Nat) (v : Byte) : (s.setFlat a v).armed = s.armed := rfl
@[simp] theorem State.setFlat_cartridgeRom (s : State) (a : Nat) (v : Byte) : (s.setFlat a v).cartridgeRom = s.cartridgeRom := rfl
@[simp] theorem State.setFlat_bankingMode (s : State) (a : Nat) (v : Byte) : (s.setFlat a v).bankingMode = s.bankingMode := rfl
@[simp] theorem State.setFlat_ramBanks (s : State) (a : Nat) (v : Byte) : (s.setFlat a v).ramBanks = s.ramBanks := rfl
@[simp] theorem State.setFlat_currentRomBank (s : State) (a : Nat) (v : Byte) : (s.setFlat a v).currentRomBank = s.currentRomBank := rfl
@[simp] theorem State.setFlat_currentRamBank (s : State) (a : Nat) (v : Byte) : (s.setFlat a v).currentRamBank = s.currentRamBank := rfl
@[simp] theorem State.setFlat_ramEnabled (s : State) (a : Nat) (v : Byte) : (s.setFlat a v).ramEnabled = s.ramEnabled := rfl
@[simp] theorem State.setFlat_romBankingSelect (s : State) (a : Nat) (v : Byte) : (s.setFlat a v).romBankingSelect = s.romBankingSelect := rfl
@[simp] theorem State.setFlat_screen (s : State) (a : Nat) (v : Byte) : (s.setFlat a v).screen = s.screen := rfl
@[simp] theorem State.setFlat_dividerCounter (s : State) (a : Nat) (v : Byte) : (s.setFlat a v).dividerCounter = s.dividerCounter := rfl
@[simp] theorem State.setFlat_timerCounter (s : State) (a : Nat) (v : Byte) : (s.setFlat a v).timerCounter = s.timerCounter := rfl
@[simp] theorem State.setFlat_scanlineCounter (s : State) (a : Nat) (v : Byte) : (s.setFlat a v).scanlineCounter = s.scanlineCounter := rfl
@[simp] theorem State.setFlat_joypadState (s : State) (a : Nat) (v : Byte) : (s.setFlat a v).joypadState = s.joypadState := rfl
@[simp] theorem State.setFlat_fault (s : State) (a : Nat) (v : Byte) : (s.setFlat a v).fault = s.fault := rfl
@[simp] theorem State.setFlat_lastCost (s : State) (a : Nat) (v : Byte) : (s.setFlat a v).lastCost = s.lastCost := rfl
@[simp] theorem State.setFlat_params (s : State) (a : Nat) (v : Byte) : (s.setFlat a v).params = s.params := rfl

@[simp] theorem State.setFlat_flatAt (s : State) (a : Nat) (v : Byte) (k : Nat) :
    (s.setFlat a v).flatAt k = if k = a then v else s.flatAt k := Memory.read_write _ _ _ _

@[simp] theorem State.setFlat_ramAt (s : State) (a : Nat) (v : Byte) (k : Nat) :
    (s.setFlat a v).ramAt k = s.ramAt k := rfl

/-! ### `setRam` -/

@[simp] theorem State.setRam_regs (s : State) (i : Nat) (v : Byte) : (s.setRam i v).regs = s.regs := rfl
@[simp] theorem State.setRam_ime (s : State) (i : Nat) (v : Byte) : (s.setRam i v).ime = s.ime := rfl
@[simp] theorem State.setRam_eiPending (s : State) (i : Nat) (v : Byte) : (s.setRam i v).eiPending = s.eiPending := rfl
@[simp] theorem State.setRam_armed (s : State) (i : Nat) (v : Byte) : (s.setRam i v).armed = s.armed := rfl
@[simp] theorem State.setRam_flat (s : State) (i : Nat) (v : Byte) : (s.setRam i v).flat = s.flat := rfl
@[simp] theorem State.setRam_cartridgeRom (s : State) (i : Nat) (v : Byte) : (s.setRam i v).cartridgeRom = s.cartridgeRom := rfl
@[simp] theorem State.setRam_bankingMode (s : State) (i : Nat) (v : Byte) : (s.setRam i v).bankingMode = s.bankingMode := rfl
@[simp] theorem State.setRam_currentRomBank (s : State) (i : Nat) (v : Byte) : (s.setRam i v).currentRomBank = s.currentRomBank := rfl
@[simp] theorem State.setRam_currentRamBank (s : State) (i : Nat) (v : Byte) : (s.setRam i v).currentRamBank = s.currentRamBank := rfl
@[simp] theorem State.setRam_ramEnabled (s : State) (i : Nat) (v : Byte) : (s.setRam i v).ramEnabled = s.ramEnabled := rfl
@[simp] theorem State.setRam_romBankingSelect (s : State) (i : Nat) (v : Byte) : (s.setRam i v).romBankingSelect = s.romBankingSelect := rfl
@[simp] theorem State.setRam_screen (s : State) (i : Nat) (v : Byte) : (s.setRam i v).screen = s.screen := rfl
@[simp] theorem State.setRam_dividerCounter (s : State) (i : Nat) (v : Byte) : (s.setRam i v).dividerCounter = s.dividerCounter := rfl
@[simp] theorem State.setRam_timerCounter (s : State) (i : Nat) (v : Byte) : (s.setRam i v).timerCounter = s.timerCounter := rfl
@[simp] theorem State.setRam_scanlineCounter (s : State) (i : Nat) (v : Byte) : (s.setRam i v).scanlineCounter = s.scanlineCounter := rfl
@[simp] theorem State.setRam_joypadState (s : State) (i : Nat) (v : Byte) : (s.setRam i v).joypadState = s.joypadState := rfl
@[simp] theorem State.setRam_fault (s : State) (i : Nat) (v : Byte) : (s.setRam i v).fault = s.fault := rfl
@[simp] theorem State.setRam_lastCost (s : State) (i : Nat) (v : Byte) : (s.setRam i v).lastCost = s.lastCost := rfl
@[simp] theorem State.setRam_params (s : State) (i : Nat) (v : Byte) : (s.setRam i v).params = s.params := rfl

@[simp] theorem State.setRam_ramAt (s : State) (i : Nat) (v : Byte) (k : Nat) :
    (s.setRam i v).ramAt k = if k = i then v else s.ramAt k := Memory.read_write _ _ _ _

@[simp] theorem State.setRam_flatAt (s : State) (i : Nat) (v : Byte) (k : Nat) :
    (s.setRam i v).flatAt k = s.flatAt k := rfl

/-! ### `setReg` -/

@[simp] theorem State.setReg_ime (s : State) (r : Reg8) (v : Byte) : (s.setReg r v).ime = s.ime := rfl
@[simp] theorem State.setReg_eiPending (s : State) (r : Reg8) (v : Byte) : (s.setReg r v).eiPending = s.eiPending := rfl
@[simp] theorem State.setReg_armed (s : State) (r : Reg8) (v : Byte) : (s.setReg r v).armed = s.armed := rfl
@[simp] theorem State.setReg_flat (s : State) (r : Reg8) (v : Byte) : (s.setReg r v).flat = s.flat := rfl
@[simp] theorem State.setReg_cartridgeRom (s : State) (r : Reg8) (v : Byte) : (s.setReg r v).cartridgeRom = s.cartridgeRom := rfl
@[simp] theorem State.setReg_bankingMode (s : State) (r : Reg8) (v : Byte) : (s.setReg r v).bankingMode = s.bankingMode := rfl
@[simp] theorem State.setReg_ramBanks (s : State) (r : Reg8) (v : Byte) : (s.setReg r v).ramBanks = s.ramBanks := rfl
@[simp] theorem State.setReg_currentRomBank (s : State) (r : Reg8) (v : Byte) : (s.setReg r v).currentRomBank = s.currentRomBank := rfl
@[simp] theorem State.setReg_currentRamBank (s : State) (r : Reg8) (v : Byte) : (s.setReg r v).currentRamBank = s.currentRamBank := rfl
@[simp] theorem State.setReg_ramEnabled (s : State) (r : Reg8) (v : Byte) : (s.setReg r v).ramEnabled = s.ramEnabled := rfl
@[simp] theorem State.setReg_romBankingSelect (s : State) (r : Reg8) (v : Byte) : (s.setReg r v).romBankingSelect = s.romBankingSelect := rfl
@[simp] theorem State.setReg_screen (s : State) (r : Reg8) (v : Byte) : (s.setReg r v).screen = s.screen := rfl
@[simp] theorem State.setReg_dividerCounter (s : State) (r : Reg8) (v : Byte) : (s.setReg r v).dividerCounter = s.dividerCounter := rfl
@[simp] theorem State.setReg_timerCounter (s : State) (r : Reg8) (v : Byte) : (s.setReg r v).timerCounter = s.timerCounter := rfl
@[simp] theorem State.setReg_scanlineCounter (s : State) (r : Reg8) (v : Byte) : (s.setReg r v).scanlineCounter = s.scanlineCounter := rfl
@[simp] theorem State.setReg_joypadState (s : State) (r : Reg8) (v : Byte) : (s.setReg r v).joypadState = s.joypadState := rfl
@[simp] theorem State.setReg_fault (s : State) (r : Reg8) (v : Byte) : (s.setReg r v).fault = s.fault := rfl
@[simp] theorem State.setReg_lastCost (s : State) (r : Reg8) (v : Byte) : (s.setReg r v).lastCost = s.lastCost := rfl
@[simp] theorem State.setReg_params (s : State) (r : Reg8) (v : Byte) : (s.setReg r v).params = s.params := rfl
@[simp] theorem State.setReg_regs (s : State) (r : Reg8) (v : Byte) : (s.setReg r v).regs = s.regs.set r v := rfl

@[simp] theorem State.setReg_flatAt (s : State) (r : Reg8) (v : Byte) (k : Nat) : (s.setReg r v).flatAt k = s.flatAt k := rfl
@[simp] theorem State.setReg_ramAt (s : State) (r : Reg8) (v : Byte) (k : Nat) : (s.setReg r v).ramAt k = s.ramAt k := rfl

/-! ### `setPair` -/

@[simp] theorem State.setPair_ime (s : State) (p : RegPair) (v : Word) : (s.setPair p v).ime = s.ime := rfl
@[simp] theorem State.setPair_eiPending (s : State) (p : RegPair) (v : Word) : (s.setPair p v).eiPending = s.eiPending := rfl
@[simp] theorem State.setPair_armed (s : State) (p : RegPair) (v : Word) : (s.setPair p v).armed = s.armed := rfl
@[simp] theorem State.setPair_flat (s : State) (p : RegPair) (v : Word) : (s.setPair p v).flat = s.flat := rfl
@[simp] theorem State.setPair_cartridgeRom (s : State) (p : RegPair) (v : Word) : (s.setPair p v).cartridgeRom = s.cartridgeRom := rfl
@[simp] theorem State.setPair_bankingMode (s : State) (p : RegPair) (v : Word) : (s.setPair p v).bankingMode = s.bankingMode := rfl
@[simp] theorem State.setPair_ramBanks (s : State) (p : RegPair) (v : Word) : (s.setPair p v).ramBanks = s.ramBanks := rfl
@[simp] theorem State.setPair_currentRomBank (s : State) (p : RegPair) (v : Word) : (s.setPair p v).currentRomBank = s.currentRomBank := rfl
@[simp] theorem State.setPair_currentRamBank (s : State) (p : RegPair) (v : Word) : (s.setPair p v).currentRamBank = s.currentRamBank := rfl
@[simp] theorem State.setPair_ramEnabled (s : State) (p : RegPair) (v : Word) : (s.setPair p v).ramEnabled = s.ramEnabled := rfl
@[simp] theorem State.setPair_romBankingSelect (s : State) (p : RegPair) (v : Word) : (s.setPair p v).romBankingSelect = s.romBankingSelect := rfl
@[simp] theorem State.setPair_screen (s : State) (p : RegPair) (v : Word) : (s.setPair p v).screen = s.screen := rfl
@[simp] theorem State.setPair_dividerCounter (s : State) (p : RegPair) (v : Word) : (s.setPair p v).dividerCounter = s.dividerCounter := rfl
@[simp] theorem State.setPair_timerCounter (s : State) (p : RegPair) (v : Word) : (s.setPair p v).timerCounter = s.timerCounter := rfl
@[simp] theorem State.setPair_scanlineCounter (s : State) (p : RegPair) (v : Word) : (s.setPair p v).scanlineCounter = s.scanlineCounter := rfl
@[simp] theorem State.setPair_joypadState (s : State) (p : RegPair) (v : Word) : (s.setPair p v).joypadState = s.joypadState := rfl
@[simp] theorem State.setPair_fault (s : State) (p : RegPair) (v : Word) : (s.setPair p v).fault = s.fault := rfl
@[simp] theorem State.setPair_lastCost (s : State) (p : RegPair) (v : Word) : (s.setPair p v).lastCost = s.lastCost := rfl
@[simp] theorem State.setPair_params (s : State) (p : RegPair) (v : Word) : (s.setPair p v).params = s.params := rfl
@[simp] theorem State.setPair_regs (s : State) (p : RegPair) (v : Word) : (s.setPair p v).regs = s.regs.setPair p v := rfl

@[simp] theorem State.setPair_flatAt (s : State) (p : RegPair) (v : Word) (k : Nat) : (s.setPair p v).flatAt k = s.flatAt k := rfl
@[simp] theorem State.setPair_ramAt (s : State) (p : RegPair) (v : Word) (k : Nat) : (s.setPair p v).ramAt k = s.ramAt k := rfl

/-! ### `setStackPair` -/

@[simp] theorem State.setStackPair_ime (s : State) (q : StackPair) (v : Word) : (s.setStackPair q v).ime = s.ime := rfl
@[simp] theorem State.setStackPair_eiPending (s : State) (q : StackPair) (v : Word) : (s.setStackPair q v).eiPending = s.eiPending := rfl
@[simp] theorem State.setStackPair_armed (s : State) (q : StackPair) (v : Word) : (s.setStackPair q v).armed = s.armed := rfl
@[simp] theorem State.setStackPair_flat (s : State) (q : StackPair) (v : Word) : (s.setStackPair q v).flat = s.flat := rfl
@[simp] theorem State.setStackPair_cartridgeRom (s : State) (q : StackPair) (v : Word) : (s.setStackPair q v).cartridgeRom = s.cartridgeRom := rfl
@[simp] theorem State.setStackPair_bankingMode (s : State) (q : StackPair) (v : Word) : (s.setStackPair q v).bankingMode = s.bankingMode := rfl
@[simp] theorem State.setStackPair_ramBanks (s : State) (q : StackPair) (v : Word) : (s.setStackPair q v).ramBanks = s.ramBanks := rfl
@[simp] theorem State.setStackPair_currentRomBank (s : State) (q : StackPair) (v : Word) : (s.setStackPair q v).currentRomBank = s.currentRomBank := rfl
@[simp] theorem State.setStackPair_currentRamBank (s : State) (q : StackPair) (v : Word) : (s.setStackPair q v).currentRamBank = s.currentRamBank := rfl
@[simp] theorem State.setStackPair_ramEnabled (s : State) (q : StackPair) (v : Word) : (s.setStackPair q v).ramEnabled = s.ramEnabled := rfl
@[simp] theorem State.setStackPair_romBankingSelect (s : State) (q : StackPair) (v : Word) : (s.setStackPair q v).romBankingSelect = s.romBankingSelect := rfl
@[simp] theorem State.setStackPair_screen (s : State) (q : StackPair) (v : Word) : (s.setStackPair q v).screen = s.screen := rfl
@[simp] theorem State.setStackPair_dividerCounter (s : State) (q : StackPair) (v : Word) : (s.setStackPair q v).dividerCounter = s.dividerCounter := rfl
@[simp] theorem State.setStackPair_timerCounter (s : State) (q : StackPair) (v : Word) : (s.setStackPair q v).timerCounter = s.timerCounter := rfl
@[simp] theorem State.setStackPair_scanlineCounter (s : State) (q : StackPair) (v : Word) : (s.setStackPair q v).scanlineCounter = s.scanlineCounter := rfl
@[simp] theorem State.setStackPair_joypadState (s : State) (q : StackPair) (v : Word) : (s.setStackPair q v).joypadState = s.joypadState := rfl
@[simp] theorem State.setStackPair_fault (s : State) (q : StackPair) (v : Word) : (s.setStackPair q v).fault = s.fault := rfl
@[simp] theorem State.setStackPair_lastCost (s : State) (q : StackPair) (v : Word) : (s.setStackPair q v).lastCost = s.lastCost := rfl
@[simp] theorem State.setStackPair_params (s : State) (q : StackPair) (v : Word) : (s.setStackPair q v).params = s.params := rfl
@[simp] theorem State.setStackPair_regs (s : State) (q : StackPair) (v : Word) : (s.setStackPair q v).regs = s.regs.setStackPair q v := rfl

@[simp] theorem State.setStackPair_flatAt (s : State) (q : StackPair) (v : Word) (k : Nat) : (s.setStackPair q v).flatAt k = s.flatAt k := rfl
@[simp] theorem State.setStackPair_ramAt (s : State) (q : StackPair) (v : Word) (k : Nat) : (s.setStackPair q v).ramAt k = s.ramAt k := rfl

/-! ### `setA` -/

@[simp] theorem State.setA_ime (s : State) (v : Byte) : (s.setA v).ime = s.ime := rfl
@[simp] theorem State.setA_eiPending (s : State) (v : Byte) : (s.setA v).eiPending = s.eiPending := rfl
@[simp] theorem State.setA_armed (s : State) (v : Byte) : (s.setA v).armed = s.armed := rfl
@[simp] theorem State.setA_flat (s : State) (v : Byte) : (s.setA v).flat = s.flat := rfl
@[simp] theorem State.setA_cartridgeRom (s : State) (v : Byte) : (s.setA v).cartridgeRom = s.cartridgeRom := rfl
@[simp] theorem State.setA_bankingMode (s : State) (v : Byte) : (s.setA v).bankingMode = s.bankingMode := rfl
@[simp] theorem State.setA_ramBanks (s : State) (v : Byte) : (s.setA v).ramBanks = s.ramBanks := rfl
@[simp] theorem State.setA_currentRomBank (s : State) (v : Byte) : (s.setA v).currentRomBank = s.currentRomBank := rfl
@[simp] theorem State.setA_currentRamBank (s : State) (v : Byte) : (s.setA v).currentRamBank = s.currentRamBank := rfl
@[simp] theorem State.setA_ramEnabled (s : State) (v : Byte) : (s.setA v).ramEnabled = s.ramEnabled := rfl
@[simp] theorem State.setA_romBankingSelect (s : State) (v : Byte) : (s.setA v).romBankingSelect = s.romBankingSelect := rfl
@[simp] theorem State.setA_screen (s : State) (v : Byte) : (s.setA v).screen = s.screen := rfl
@[simp] theorem State.setA_dividerCounter (s : State) (v : Byte) : (s.setA v).dividerCounter = s.dividerCounter := rfl
@[simp] theorem State.setA_timerCounter (s : State) (v : Byte) : (s.setA v).timerCounter = s.timerCounter := rfl
@[simp] theorem State.setA_scanlineCounter (s : State) (v : Byte) : (s.setA v).scanlineCounter = s.scanlineCounter := rfl
@[simp] theorem State.setA_joypadState (s : State) (v : Byte) : (s.setA v).joypadState = s.joypadState := rfl
@[simp] theorem State.setA_fault (s : State) (v : Byte) : (s.setA v).fault = s.fault := rfl
@[simp] theorem State.setA_lastCost (s : State) (v : Byte) : (s.setA v).lastCost = s.lastCost := rfl
@[simp] theorem State.setA_params (s : State) (v : Byte) : (s.setA v).params = s.params := rfl
@[simp] theorem State.setA_regs (s : State) (v : Byte) : (s.setA v).regs = { s.regs with a := v } := rfl

@[simp] theorem State.setA_flatAt (s : State) (v : Byte) (k : Nat) : (s.setA v).flatAt k = s.flatAt k := rfl
@[simp] theorem State.setA_ramAt (s : State) (v : Byte) (k : Nat) : (s.setA v).ramAt k = s.ramAt k := rfl

/-! ### `setF` -/

@[simp] theorem State.setF_ime (s : State) (v : Byte) : (s.setF v).ime = s.ime := rfl
@[simp] theorem State.setF_eiPending (s : State) (v : Byte) : (s.setF v).eiPending = s.eiPending := rfl
@[simp] theorem State.setF_armed (s : State) (v : Byte) : (s.setF v).armed = s.armed := rfl
@[simp] theorem State.setF_flat (s : State) (v : Byte) : (s.setF v).flat = s.flat := rfl
@[simp] theorem State.setF_cartridgeRom (s : State) (v : Byte) : (s.setF v).cartridgeRom = s.cartridgeRom := rfl
@[simp] theorem State.setF_bankingMode (s : State) (v : Byte) : (s.setF v).bankingMode = s.bankingMode := rfl
@[simp] theorem State.setF_ramBanks (s : State) (v : Byte) : (s.setF v).ramBanks = s.ramBanks := rfl
@[simp] theorem State.setF_currentRomBank (s : State) (v : Byte) : (s.setF v).currentRomBank = s.currentRomBank := rfl
@[simp] theorem State.setF_currentRamBank (s : State) (v : Byte) : (s.setF v).currentRamBank = s.currentRamBank := rfl
@[simp] theorem State.setF_ramEnabled (s : State) (v : Byte) : (s.setF v).ramEnabled = s.ramEnabled := rfl
@[simp] theorem State.setF_romBankingSelect (s : State) (v : Byte) : (s.setF v).romBankingSelect = s.romBankingSelect := rfl
@[simp] theorem State.setF_screen (s : State) (v : Byte) : (s.setF v).screen = s.screen := rfl
@[simp] theorem State.setF_dividerCounter (s : State) (v : Byte) : (s.setF v).dividerCounter = s.dividerCounter := rfl
@[simp] theorem State.setF_timerCounter (s : State) (v : Byte) : (s.setF v).timerCounter = s.timerCounter := rfl
@[simp] theorem State.setF_scanlineCounter (s : State) (v : Byte) : (s.setF v).scanlineCounter = s.scanlineCounter := rfl
@[simp] theorem State.setF_joypadState (s : State) (v : Byte) : (s.setF v).joypadState = s.joypadState := rfl
@[simp] theorem State.setF_fault (s : State) (v : Byte) : (s.setF v).fault = s.fault := rfl
@[simp] theorem State.setF_lastCost (s : State) (v : Byte) : (s.setF v).lastCost = s.lastCost := rfl
@[simp] theorem State.setF_params (s : State) (v : Byte) : (s.setF v).params = s.params := rfl
@[simp] theorem State.setF_regs (s : State) (v : Byte) : (s.setF v).regs = { s.regs with f := v } := rfl

@[simp] theorem State.setF_flatAt (s : State) (v : Byte) (k : Nat) : (s.setF v).flatAt k = s.flatAt k := rfl
@[simp] theorem State.setF_ramAt (s : State) (v : Byte) (k : Nat) : (s.setF v).ramAt k = s.ramAt k := rfl

/-! ### `setHl` -/

@[simp] theorem State.setHl_ime (s : State) (v : Word) : (s.setHl v).ime = s.ime := rfl
@[simp] theorem State.setHl_eiPending (s : State) (v : Word) : (s.setHl v).eiPending = s.eiPending := rfl
@[simp] theorem State.setHl_armed (s : State) (v : Word) : (s.setHl v).armed = s.armed := rfl
@[simp] theorem State.setHl_flat (s : State) (v : Word) : (s.setHl v).flat = s.flat := rfl
@[simp] theorem State.setHl_cartridgeRom (s : State) (v : Word) : (s.setHl v).cartridgeRom = s.cartridgeRom := rfl
@[simp] theorem State.setHl_bankingMode (s : State) (v : Word) : (s.setHl v).bankingMode = s.bankingMode := rfl
@[simp] theorem State.setHl_ramBanks (s : State) (v : Word) : (s.setHl v).ramBanks = s.ramBanks := rfl
@[simp] theorem State.setHl_currentRomBank (s : State) (v : Word) : (s.setHl v).currentRomBank = s.currentRomBank := rfl
@[simp] theorem State.setHl_currentRamBank (s : State) (v : Word) : (s.setHl v).currentRamBank = s.currentRamBank := rfl
@[simp] theorem State.setHl_ramEnabled (s : State) (v : Word) : (s.setHl v).ramEnabled = s.ramEnabled := rfl
@[simp] theorem State.setHl_romBankingSelect (s : State) (v : Word) : (s.setHl v).romBankingSelect = s.romBankingSelect := rfl
@[simp] theorem State.setHl_screen (s : State) (v : Word) : (s.setHl v).screen = s.screen := rfl
@[simp] theorem State.setHl_dividerCounter (s : State) (v : Word) : (s.setHl v).dividerCounter = s.dividerCounter := rfl
@[simp] theorem State.setHl_timerCounter (s : State) (v : Word) : (s.setHl v).timerCounter = s.timerCounter := rfl
@[simp] theorem State.setHl_scanlineCounter (s : State) (v : Word) : (s.setHl v).scanlineCounter = s.scanlineCounter := rfl
@[simp] theorem State.setHl_joypadState (s : State) (v : Word) : (s.setHl v).joypadState = s.joypadState := rfl
@[simp] theorem State.setHl_fault (s : State) (v : Word) : (s.setHl v).fault = s.fault := rfl
@[simp] theorem State.setHl_lastCost (s : State) (v : Word) : (s.setHl v).lastCost = s.lastCost := rfl
@[simp] theorem State.setHl_params (s : State) (v : Word) : (s.setHl v).params = s.params := rfl
@[simp] theorem State.setHl_regs (s : State) (v : Word) : (s.setHl v).regs = s.regs.setPair .hl v := rfl

@[simp] theorem State.setHl_flatAt (s : State) (v : Word) (k : Nat) : (s.setHl v).flatAt k = s.flatAt k := rfl
@[simp] theorem State.setHl_ramAt (s : State) (v : Word) (k : Nat) : (s.setHl v).ramAt k = s.ramAt k := rfl

/-! ### `setSp` -/

@[simp] theorem State.setSp_ime (s : State) (v : Word) : (s.setSp v).ime = s.ime := rfl
@[simp] theorem State.setSp_eiPending (s : State) (v : Word) : (s.setSp v).eiPending = s.eiPending := rfl
@[simp] theorem State.setSp_armed (s : State) (v : Word) : (s.setSp v).armed = s.armed := rfl
@[simp] theorem State.setSp_flat (s : State) (v : Word) : (s.setSp v).flat = s.flat := rfl
@[simp] theorem State.setSp_cartridgeRom (s : State) (v : Word) : (s.setSp v).cartridgeRom = s.cartridgeRom := rfl
@[simp] theorem State.setSp_bankingMode (s : State) (v : Word) : (s.setSp v).bankingMode = s.bankingMode := rfl
@[simp] theorem State.setSp_ramBanks (s : State) (v : Word) : (s.setSp v).ramBanks = s.ramBanks := rfl
@[simp] theorem State.setSp_currentRomBank (s : State) (v : Word) : (s.setSp v).currentRomBank = s.currentRomBank := rfl
@[simp] theorem State.setSp_currentRamBank (s : State) (v : Word) : (s.setSp v).currentRamBank = s.currentRamBank := rfl
@[simp] theorem State.setSp_ramEnabled (s : State) (v : Word) : (s.setSp v).ramEnabled = s.ramEnabled := rfl
@[simp] theorem State.setSp_romBankingSelect (s : State) (v : Word) : (s.setSp v).romBankingSelect = s.romBankingSelect := rfl
@[simp] theorem State.setSp_screen (s : State) (v : Word) : (s.setSp v).screen = s.screen := rfl
@[simp] theorem State.setSp_dividerCounter (s : State) (v : Word) : (s.setSp v).dividerCounter = s.dividerCounter := rfl
@[simp] theorem State.setSp_timerCounter (s : State) (v : Word) : (s.setSp v).timerCounter = s.timerCounter := rfl
@[simp] theorem State.setSp_scanlineCounter (s : State) (v : Word) : (s.setSp v).scanlineCounter = s.scanlineCounter := rfl
@[simp] theorem State.setSp_joypadState (s : State) (v : Word) : (s.setSp v).joypadState = s.joypadState := rfl
@[simp] theorem State.setSp_fault (s : State) (v : Word) : (s.setSp v).fault = s.fault := rfl
@[simp] theorem State.setSp_lastCost (s : State) (v : Word) : (s.setSp v).lastCost = s.lastCost := rfl
@[simp] theorem State.setSp_params (s : State) (v : Word) : (s.setSp v).params = s.params := rfl
@[simp] theorem State.setSp_regs (s : State) (v : Word) : (s.setSp v).regs = { s.regs with sp := v } := rfl

@[simp] theorem State.setSp_flatAt (s : State) (v : Word) (k : Nat) : (s.setSp v).flatAt k = s.flatAt k := rfl
@[simp] theorem State.setSp_ramAt (s : State) (v : Word) (k : Nat) : (s.setSp v).ramAt k = s.ramAt k := rfl

/-! ### `setPc` -/

@[simp] theorem State.setPc_ime (s : State) (v : Word) : (s.setPc v).ime = s.ime := rfl
@[simp] theorem State.setPc_eiPending (s : State) (v : Word) : (s.setPc v).eiPending = s.eiPending := rfl
@[simp] theorem State.setPc_armed (s : State) (v : Word) : (s.setPc v).armed = s.armed := rfl
@[simp] theorem State.setPc_flat (s : State) (v : Word) : (s.setPc v).flat = s.flat := rfl
@[simp] theorem State.setPc_cartridgeRom (s : State) (v : Word) : (s.setPc v).cartridgeRom = s.cartridgeRom := rfl
@[simp] theorem State.setPc_bankingMode (s : State) (v : Word) : (s.setPc v).bankingMode = s.bankingMode := rfl
@[simp] theorem State.setPc_ramBanks (s : State) (v : Word) : (s.setPc v).ramBanks = s.ramBanks := rfl
@[simp] theorem State.setPc_currentRomBank (s : State) (v : Word) : (s.setPc v).currentRomBank = s.currentRomBank := rfl
@[simp] theorem State.setPc_currentRamBank (s : State) (v : Word) : (s.setPc v).currentRamBank = s.currentRamBank := rfl
@[simp] theorem State.setPc_ramEnabled (s : State) (v : Word) : (s.setPc v).ramEnabled = s.ramEnabled := rfl
@[simp] theorem State.setPc_romBankingSelect (s : State) (v : Word) : (s.setPc v).romBankingSelect = s.romBankingSelect := rfl
@[simp] theorem State.setPc_screen (s : State) (v : Word) : (s.setPc v).screen = s.screen := rfl
@[simp] theorem State.setPc_dividerCounter (s : State) (v : Word) : (s.setPc v).dividerCounter = s.dividerCounter := rfl
@[simp] theorem State.setPc_timerCounter (s : State) (v : Word) : (s.setPc v).timerCounter = s.timerCounter := rfl
@[simp] theorem State.setPc_scanlineCounter (s : State) (v : Word) : (s.setPc v).scanlineCounter = s.scanlineCounter := rfl
@[simp] theorem State.setPc_joypadState (s : State) (v : Word) : (s.setPc v).joypadState = s.joypadState := rfl
@[simp] theorem State.setPc_fault (s : State) (v : Word) : (s.setPc v).fault = s.fault := rfl
@[simp] theorem State.setPc_lastCost (s : State) (v : Word) : (s.setPc v).lastCost = s.lastCost := rfl
@[simp] theorem State.setPc_params (s : State) (v : Word) : (s.setPc v).params = s.params := rfl
@[simp] theorem State.setPc_regs (s : State) (v : Word) : (s.setPc v).regs = { s.regs with pc := v } := rfl

@[simp] theorem State.setPc_flatAt (s : State) (v : Word) (k : Nat) : (s.setPc v).flatAt k = s.flatAt k := rfl
@[simp] theorem State.setPc_ramAt (s : State) (v : Word) (k : Nat) : (s.setPc v).ramAt k = s.ramAt k := rfl

/-! ### Reads depend on their memory alone -/

theorem State.flatAt_congr {s t : State} (h : s.flat = t.flat) (k : Nat) : s.flatAt k = t.flatAt k := by
  rw [State.flatAt, State.flatAt, h]

theorem State.ramAt_congr {s t : State} (h : s.ramBanks = t.ramBanks) (k : Nat) :
    s.ramAt k = t.ramAt k := by
  rw [State.ramAt, State.ramAt, h]

/-! ### Registers -/

@[simp] theorem Registers.get_set (r : Registers) (i j : Reg8) (v : Byte) :
    (r.set i v).get j = if j = i then v else r.get j := by
  cases i <;> cases j <;> rfl

@[simp] theorem Registers.set_f (r : Registers) (i : Reg8) (v : Byte) : (r.set i v).f = r.f := by
  cases i <;> rfl

@[simp] theorem Registers.set_sp (r : Registers) (i : Reg8) (v : Byte) : (r.set i v).sp = r.sp := by
  cases i <;> rfl

@[simp] theorem Registers.set_pc (r : Registers) (i : Reg8) (v : Byte) : (r.set i v).pc = r.pc := by
  cases i <;> rfl

@[simp] theorem Registers.setPair_f (r : Registers) (p : RegPair) (v : Word) :
    (r.setPair p v).f = r.f := by
  cases p <;> rfl

@[simp] theorem Registers.setPair_pc (r : Registers) (p : RegPair) (v : Word) :
    (r.setPair p v).pc = r.pc := by
  cases p <;> rfl

@[simp] theorem Registers.setStackPair_pc (r : Registers) (q : StackPair) (v : Word) :
    (r.setStackPair q v).pc = r.pc := by
  cases q <;> rfl

@[simp] theorem Registers.setStackPair_sp (r : Registers) (q : StackPair) (v : Word) :
    (r.setStackPair q v).sp = r.sp := by
  cases q <;> rfl

/-- Two register files are the same when they agree on the seven selectable registers, F and the two
pointers. -/
theorem Registers.ext_get {r t : Registers} (h : ∀ i, r.get i = t.get i) (hf : r.f = t.f)
    (hsp : r.sp = t.sp) (hpc : r.pc = t.pc) : r = t := by
  have ha := h .a
  have hb := h .b
  have hc := h .c
  have hd := h .d
  have he := h .e
  have hh := h .h
  have hl := h .l
  cases r
  cases t
  simp only [Registers.get] at ha hb hc hd he hh hl
  simp_all

end Sys2Proof.Machine
end

