-- ==== Sys2Proof/Laws/Ops.lean ====
section
/-!
SUPPORT. The shared operations of Machine/Ops.lean: what each can do, said once.
-/

namespace Sys2Proof.Machine

/-! ### Outcomes -/

/-- The operation ends in a next state with `P`, or in the fault `RomIndexOutOfRange`; it is never
refused. -/
def Ends (o : Out) (P : State → Prop) : Prop :=
  match o with
  | .next t => P t
  | .fault f => ∃ index u, f = faultOf (.romIndexOutOfRange index) u
  | .refused _ => False

theorem Ends.mono {o : Out} {P Q : State → Prop} (h : Ends o P) (hpq : ∀ t, P t → Q t) :
    Ends o Q := by
  cases o with
  | next t => exact hpq t h
  | fault f => exact h
  | refused r => exact h

theorem Ends.of_next {o : Out} {P : State → Prop} (h : Ends o P) {t : State} (ho : o = .next t) :
    P t := by
  subst ho
  exact h

theorem Ends.andThen {o : Out} {k : State → Out} {P Q : State → Prop} (h : Ends o P)
    (hk : ∀ t, P t → Ends (k t) Q) : Ends (andThen o k) Q := by
  cases o with
  | next t => exact hk t h
  | fault f => exact h
  | refused r => exact h

theorem Ends.withByte {s : State} {a : Word} {k : Byte → Out} {Q : State → Prop}
    (hk : ∀ v, read8 s a = .ok v → Ends (k v) Q) : Ends (withByte s a k) Q := by
  unfold Machine.withByte
  split
  · rename_i v h
    exact hk v h
  · exact ⟨_, _, rfl⟩

theorem Ends.done {cost : Nat} {s : State} {P : State → Prop} (h : P { s with lastCost := cost }) :
    Ends (done cost s) P := h

@[simp] theorem andThen_next (s : State) (k : State → Out) : andThen (.next s) k = k s := rfl

@[simp] theorem andThen_fault (f : Fault) (k : State → Out) : andThen (.fault f) k = .fault f := rfl

theorem andThen_eq_next {o : Out} {k : State → Out} {t : State} :
    andThen o k = .next t ↔ ∃ u, o = .next u ∧ k u = .next t := by
  cases o <;> simp [andThen]

theorem withByte_ok {s : State} {a : Word} {v : Byte} (h : read8 s a = .ok v) (k : Byte → Out) :
    withByte s a k = k v := by
  simp [withByte, h]

theorem withByte_error {s : State} {a : Word} {index : Nat} (h : read8 s a = .error index)
    (k : Byte → Out) : withByte s a k = raise (.romIndexOutOfRange index) s := by
  simp [withByte, h]

/-! ### The read path -/

/-- A read depends on the stores, the bank registers and the keys alone. -/
theorem read8_congr {s t : State} (hf : ∀ k, t.flatAt k = s.flatAt k)
    (hr : ∀ k, t.ramAt k = s.ramAt k) (hc : t.cartridgeRom = s.cartridgeRom)
    (hb : t.currentRomBank = s.currentRomBank) (hm : t.currentRamBank = s.currentRamBank)
    (hj : t.joypadState = s.joypadState) (a : Word) : read8 t a = read8 s a := by
  have h1 : romIndex t a = romIndex s a := by rw [romIndex, romIndex, hb]
  have h2 : ramIndex t a = ramIndex s a := by rw [ramIndex, ramIndex, hm]
  have h3 : joypRead t = joypRead s := by simp only [joypRead, hf, hj]
  simp only [read8, h1, h2, h3, hf, hr, hc]

@[simp] theorem read8_regs (s : State) (r : Registers) (a : Word) :
    read8 { s with regs := r } a = read8 s a := rfl

@[simp] theorem read8_setSp (s : State) (v a : Word) : read8 (s.setSp v) a = read8 s a := rfl

@[simp] theorem read8_setPc (s : State) (v a : Word) : read8 (s.setPc v) a = read8 s a := rfl

/-- Outside the switchable ROM window a read cannot fault (`20_memory.md` R63). -/
theorem read8_ok {s : State} {a : Word} (h : a.toNat < 0x4000 ∨ 0x7FFF < a.toNat) :
    ∃ v, read8 s a = .ok v := by
  have h' : ¬ (0x4000 ≤ a.toNat ∧ a.toNat ≤ 0x7FFF) := by omega
  unfold read8
  rw [if_neg h']
  split
  · exact ⟨_, rfl⟩
  · split <;> exact ⟨_, rfl⟩

/-- A read in the plain areas gives the cell of `flat` (`20_memory.md` R68, R69). -/
theorem read8_flat {s : State} {a : Word} (hrom : ¬ (0x4000 ≤ a.toNat ∧ a.toNat ≤ 0x7FFF))
    (hram : ¬ (0xA000 ≤ a.toNat ∧ a.toNat ≤ 0xBFFF)) (hjoy : a.toNat ≠ 0xFF00) :
    read8 s a = .ok (s.flatAt a.toNat) := by
  simp [read8, hrom, hram, hjoy]

/-! ### One write -/

theorem bankWrite_onlyStores (s : State) (a : Word) (v : Byte) : OnlyStores s (bankWrite s a v) := by
  unfold bankWrite
  repeat' split
  all_goals rfl

theorem tacWrite_onlyStores (s : State) (v : Byte) : OnlyStores s (tacWrite s v) := by
  simp only [tacWrite]
  split <;> rfl

/-- A write changes the stores, the bank registers and `timerCounter` at most. -/
theorem storeByte_onlyStores (s : State) (a : Word) (v : Byte) : OnlyStores s (storeByte s a v) := by
  unfold storeByte
  split
  · exact bankWrite_onlyStores s a v
  · repeat' split
    all_goals first | rfl | exact tacWrite_onlyStores s v

theorem OnlyStores.refl (s : State) : OnlyStores s s := rfl

theorem OnlyStores.trans {s t u : State} (h : OnlyStores s t) (k : OnlyStores t u) :
    OnlyStores s u := by
  rw [OnlyStores] at h k ⊢
  rw [k, h]

theorem OnlyStores.regs {s t : State} (h : OnlyStores s t) : t.regs = s.regs := by rw [h]
theorem OnlyStores.ime {s t : State} (h : OnlyStores s t) : t.ime = s.ime := by rw [h]
theorem OnlyStores.eiPending {s t : State} (h : OnlyStores s t) : t.eiPending = s.eiPending := by
  rw [h]
theorem OnlyStores.armed {s t : State} (h : OnlyStores s t) : t.armed = s.armed := by rw [h]
theorem OnlyStores.cartridgeRom {s t : State} (h : OnlyStores s t) :
    t.cartridgeRom = s.cartridgeRom := by rw [h]
theorem OnlyStores.bankingMode {s t : State} (h : OnlyStores s t) :
    t.bankingMode = s.bankingMode := by rw [h]
theorem OnlyStores.screen {s t : State} (h : OnlyStores s t) : t.screen = s.screen := by rw [h]
theorem OnlyStores.dividerCounter {s t : State} (h : OnlyStores s t) :
    t.dividerCounter = s.dividerCounter := by rw [h]
theorem OnlyStores.scanlineCounter {s t : State} (h : OnlyStores s t) :
    t.scanlineCounter = s.scanlineCounter := by rw [h]
theorem OnlyStores.joypadState {s t : State} (h : OnlyStores s t) :
    t.joypadState = s.joypadState := by rw [h]
theorem OnlyStores.fault {s t : State} (h : OnlyStores s t) : t.fault = s.fault := by rw [h]
theorem OnlyStores.lastCost {s t : State} (h : OnlyStores s t) : t.lastCost = s.lastCost := by rw [h]
theorem OnlyStores.params {s t : State} (h : OnlyStores s t) : t.params = s.params := by rw [h]

@[simp] theorem bankWrite_flat (s : State) (a : Word) (v : Byte) : (bankWrite s a v).flat = s.flat := by
  unfold bankWrite
  repeat' split
  all_goals rfl

@[simp] theorem bankWrite_ramBanks (s : State) (a : Word) (v : Byte) :
    (bankWrite s a v).ramBanks = s.ramBanks := by
  unfold bankWrite
  repeat' split
  all_goals rfl

@[simp] theorem bankWrite_timerCounter (s : State) (a : Word) (v : Byte) :
    (bankWrite s a v).timerCounter = s.timerCounter := by
  unfold bankWrite
  repeat' split
  all_goals rfl

@[simp] theorem tacWrite_flat (s : State) (v : Byte) :
    (tacWrite s v).flat = s.flat.write flatInitial 0xFF07 v := by
  unfold tacWrite
  simp only
  split <;> rfl

theorem bankWrite_setRegs (s : State) (r : Registers) (a : Word) (v : Byte) :
    bankWrite { s with regs := r } a v = { bankWrite s a v with regs := r } := by
  cases h : s.bankingMode <;> simp only [bankWrite, h] <;> repeat' split
  all_goals first | rfl | simp [h]

theorem tacWrite_setRegs (s : State) (r : Registers) (v : Byte) :
    tacWrite { s with regs := r } v = { tacWrite s v with regs := r } := by
  have e : ({ s with regs := r } : State).flatAt 0xFF07 = s.flatAt 0xFF07 := rfl
  simp only [tacWrite, e]
  by_cases h : fieldOf v 0 2 = fieldOf (s.flatAt 0xFF07) 0 2
  · rw [if_pos h, if_pos h]; rfl
  · rw [if_neg h, if_neg h]; rfl

/-- A write does not read the register file. -/
theorem storeByte_setRegs (s : State) (r : Registers) (a : Word) (v : Byte) :
    storeByte { s with regs := r } a v = { storeByte s a v with regs := r } := by
  have hflat : ∀ (u : State) (k : Nat) (x : Byte),
      ({ u with regs := r } : State).setFlat k x = { u.setFlat k x with regs := r } := fun _ _ _ => rfl
  have hram : ∀ (u : State) (k : Nat) (x : Byte),
      ({ u with regs := r } : State).setRam k x = { u.setRam k x with regs := r } := fun _ _ _ => rfl
  have hindex : ramIndex { s with regs := r } a = ramIndex s a := rfl
  simp only [storeByte, bankWrite_setRegs, tacWrite_setRegs, hflat, hram, hindex]
  repeat' split
  all_goals rfl

/-- Every cell of `flat` after a write (`20_memory.md` R70 to R79). -/
theorem storeByte_flatAt (s : State) (a : Word) (v : Byte) (k : Nat) :
    (storeByte s a v).flatAt k
      = if a.toNat < 0x8000 then s.flatAt k
        else if 0xE000 ≤ a.toNat ∧ a.toNat ≤ 0xFDFF then
          if k = a.toNat ∨ k + 0x2000 = a.toNat then v else s.flatAt k
        else if 0xFEA0 ≤ a.toNat ∧ a.toNat ≤ 0xFEFE then s.flatAt k
        else if 0xA000 ≤ a.toNat ∧ a.toNat ≤ 0xBFFF then s.flatAt k
        else if a.toNat = 0xFF04 ∨ a.toNat = 0xFF44 then
          if k = a.toNat then 0 else s.flatAt k
        else if k = a.toNat then v else s.flatAt k := by
  unfold storeByte
  split
  · exact State.flatAt_congr (bankWrite_flat s a v) k
  · rename_i hrom
    split
    · rename_i h
      simp only [State.setFlat_flatAt]
      by_cases h1 : k = a.toNat - 0x2000
      · have : k + 0x2000 = a.toNat := by omega
        simp [h1, show a.toNat - 8192 + 8192 = a.toNat by omega]
      · have : k + 0x2000 ≠ a.toNat := by omega
        simp [h1, this]
    · split
      · rfl
      · split
        · rename_i h
          simp only [h, State.flatAt, tacWrite_flat, Memory.read_write]
          simp
        · split
          · rename_i h
            simp [h]
          · split
            · split <;> simp
            · split
              · rename_i h
                simp [h]
              · rename_i h1 h2 h3 h4
                simp [h2, h4]

/-- Every cell of `ramBanks` after a write (`20_memory.md` R76). -/
theorem storeByte_ramAt (s : State) (a : Word) (v : Byte) (k : Nat) :
    (storeByte s a v).ramAt k
      = if (0xA000 ≤ a.toNat ∧ a.toNat ≤ 0xBFFF) ∧ s.ramEnabled = true ∧ k = ramIndex s a then v
        else s.ramAt k := by
  unfold storeByte
  split
  · rename_i h
    have : ¬ (0xA000 ≤ a.toNat ∧ a.toNat ≤ 0xBFFF) := by omega
    simp only [this, false_and, if_false]
    exact State.ramAt_congr (bankWrite_ramBanks s a v) k
  · split
    · have : ¬ (0xA000 ≤ a.toNat ∧ a.toNat ≤ 0xBFFF) := by omega
      simp [this]
    · split
      · have : ¬ (0xA000 ≤ a.toNat ∧ a.toNat ≤ 0xBFFF) := by omega
        simp [this]
      · split
        · have : ¬ (0xA000 ≤ a.toNat ∧ a.toNat ≤ 0xBFFF) := by omega
          simp only [this, false_and, if_false, tacWrite]
          split <;> simp [State.ramAt]
        · split
          · have : ¬ (0xA000 ≤ a.toNat ∧ a.toNat ≤ 0xBFFF) := by omega
            simp [this]
          · split
            · rename_i h
              split <;> rename_i he <;> simp [h, he]
            · rename_i h
              simp only [h, false_and, if_false]
              split <;> simp

/-- At 0x8000 and above a write leaves the bank registers alone. -/
theorem storeByte_banks {s : State} {a : Word} (h : 0x8000 ≤ a.toNat) (v : Byte) :
    (storeByte s a v).currentRomBank = s.currentRomBank
      ∧ (storeByte s a v).currentRamBank = s.currentRamBank
      ∧ (storeByte s a v).ramEnabled = s.ramEnabled
      ∧ (storeByte s a v).romBankingSelect = s.romBankingSelect := by
  have h' : ¬ a.toNat < 0x8000 := by omega
  have ht : (tacWrite s v).currentRomBank = s.currentRomBank
      ∧ (tacWrite s v).currentRamBank = s.currentRamBank
      ∧ (tacWrite s v).ramEnabled = s.ramEnabled
      ∧ (tacWrite s v).romBankingSelect = s.romBankingSelect := by
    simp only [tacWrite]
    split <;> exact ⟨rfl, rfl, rfl, rfl⟩
  unfold storeByte
  rw [if_neg h']
  repeat' split
  all_goals first | exact ⟨rfl, rfl, rfl, rfl⟩ | exact ht

/-- A write leaves every byte that it does not reach as it was. -/
theorem storeByte_read8 {s : State} {a : Word} (ha : a.toNat ≠ 0xFF46) (v : Byte) {b : Word}
    (hb : ¬ storeReaches a b) : read8 (storeByte s a v) b = read8 s b := by
  have hrom : (storeByte s a v).cartridgeRom = s.cartridgeRom := (storeByte_onlyStores s a v).cartridgeRom
  have hjoy : (storeByte s a v).joypadState = s.joypadState := (storeByte_onlyStores s a v).joypadState
  have hf := storeByte_flatAt s a v
  have hr := storeByte_ramAt s a v
  have hab : ∀ {x y : Word}, x.toNat = y.toNat ↔ x = y := fun {x y} => BitVec.toNat_inj
  unfold storeReaches at hb
  by_cases h8 : a.toNat < 0x8000
  · rw [if_pos h8] at hb
    have h1 : ¬ (0x4000 ≤ b.toNat ∧ b.toNat ≤ 0x7FFF) := by omega
    have h2 : ¬ (0xA000 ≤ b.toNat ∧ b.toNat ≤ 0xBFFF) := by omega
    simp [read8, h1, h2, joypRead, hf, h8, hjoy]
  · obtain ⟨hb1, hb2, -, -⟩ := storeByte_banks (s := s) (a := a) (by omega) v
    rw [if_neg h8] at hb
    have key : ∀ k, k = b.toNat ∨ k = 0xFF00 → (b.toNat = 0xFF00 ∨ k = b.toNat) →
        (storeByte s a v).flatAt k = s.flatAt k := by
      intro k hk hk'
      have hkb : k = b.toNat := by omega
      rw [hf, if_neg h8]
      split
      · rename_i he
        rw [if_pos he] at hb
        have hne : k ≠ a.toNat := by
          rw [hkb]; intro hh; exact hb (.inl (hab.mp hh))
        have : ¬ (k + 0x2000 = a.toNat) := by omega
        simp [hne, this]
      · rename_i he
        rw [if_neg he] at hb
        split
        · rfl
        · rename_i hx
          rw [if_neg hx, if_neg ha] at hb
          have hne : k ≠ a.toNat := by
            rw [hkb]; intro hh; exact hb (hab.mp hh)
          split
          · rfl
          · split <;> rfl
    unfold read8
    simp only [romIndex, ramIndex, hrom, hb1, hb2]
    split
    · rfl
    · split
      · rename_i hram
        rw [hr]
        split
        · rename_i hh
          obtain ⟨hA, -, hk⟩ := hh
          have h1 : ¬ (0xE000 ≤ a.toNat ∧ a.toNat ≤ 0xFDFF) := by omega
          have h2 : ¬ (0xFEA0 ≤ a.toNat ∧ a.toNat ≤ 0xFEFE) := by omega
          rw [if_neg h1, if_neg h2, if_neg ha] at hb
          have : b.toNat = a.toNat := by
            simp only [ramIndex] at hk
            omega
          exact absurd (hab.mp this) hb
        · rfl
      · split
        · rename_i hj
          have := key 0xFF00 (.inr rfl) (.inl hj)
          simp [joypRead, hjoy, this]
        · rw [key b.toNat (.inl rfl) (.inr rfl)]

end Sys2Proof.Machine
end

