-- ==== Sys2Proof/Laws/Write.lean ====
section
/-!
SUPPORT. The write path with the DMA copy, the stack, and the invariants that they keep.
-/

namespace Sys2Proof.Machine

/-! ### `Sound` is kept -/

/-- `Sound` depends on the memories, the banks and the counters alone. -/
theorem State.Sound.congr {s t : State} (h : s.Sound) (hf : t.flat = s.flat)
    (hr : t.ramBanks = s.ramBanks) (hc : t.cartridgeRom = s.cartridgeRom) (hs : t.screen = s.screen)
    (hb : t.currentRomBank = s.currentRomBank) (hm : t.currentRamBank = s.currentRamBank)
    (hd : t.dividerCounter = s.dividerCounter) (ht : t.timerCounter = s.timerCounter)
    (hl : t.scanlineCounter = s.scanlineCounter) : t.Sound := by
  have hfa : ∀ k, t.flatAt k = s.flatAt k := State.flatAt_congr hf
  obtain ⟨⟨a1, a2, a3, a4, a5, a6, a7⟩, ⟨b1, b2⟩, ⟨c1, c2, c3, c4⟩, ⟨d1, d2⟩⟩ := h
  refine ⟨⟨?_, ?_, ?_, ?_, ?_, ?_, ?_⟩, ⟨?_, ?_⟩, ⟨?_, ?_, ?_, ?_⟩, ⟨?_, fun k hk hk' => ?_⟩⟩ <;>
    simp only [hf, hr, hc, hs, hb, hm, hd, ht, hl, hfa] <;> first | assumption | exact d2 k hk hk'

/-- A direct store below 0x10000 that is not to a dead cell, and keeps the line in range, keeps
`Sound`. -/
theorem State.Sound.setFlat {s : State} (h : s.Sound) {k : Nat} {v : Byte} (hk : k < 0x10000)
    (hdma : k ≠ 0xFF46) (hdead : ¬ (0xFEA0 ≤ k ∧ k ≤ 0xFEFE)) (hly : k = 0xFF44 → v.toNat ≤ 153) :
    (s.setFlat k v).Sound := by
  obtain ⟨⟨a1, a2, a3, a4, a5, a6, a7⟩, hb, ⟨c1, c2, c3, c4⟩, ⟨d1, d2⟩⟩ := h
  refine ⟨⟨Memory.wf_write _ _ a1, Memory.below_write _ hk a2, a3, a4, a5, a6, a7⟩,
    ⟨hb.rom_pos, hb.ram_le⟩,
    ⟨c1, c2, c3, ?_⟩, ⟨?_, fun j hj hj' => ?_⟩⟩
  · rw [State.setFlat_flatAt]
    split
    · rename_i he
      exact hly he.symm
    · exact c4
  · rw [State.setFlat_flatAt, if_neg (Ne.symm hdma), d1]
  · rw [State.setFlat_flatAt, if_neg (by omega), d2 j hj hj']

theorem timerPeriod_range (tac : Byte) : 1 ≤ timerPeriod tac ∧ timerPeriod tac ≤ 1024 := by
  unfold timerPeriod
  split <;> omega

theorem coerceBank_pos (bank : Byte) : 1 ≤ (coerceBank bank).toNat := by
  unfold coerceBank
  split
  · decide
  · rename_i h
    have : bank.toNat ≠ 0 := fun h0 => h (BitVec.eq_of_toNat_eq h0)
    omega

theorem bankWrite_banks {s : State} (h : s.BanksInRange) (a : Word) (v : Byte) :
    (bankWrite s a v).BanksInRange := by
  have hand : (v &&& 0x03).toNat ≤ 3 := by
    rw [BitVec.toNat_and]
    exact Nat.and_le_right
  obtain ⟨h1, h2⟩ := h
  unfold bankWrite
  repeat' split
  all_goals first
    | exact ⟨h1, h2⟩
    | exact ⟨coerceBank_pos _, h2⟩
    | exact ⟨h1, hand⟩
    | exact ⟨h1, Nat.zero_le 3⟩

/-- A write other than to 0xFF46 keeps `Sound`. -/
theorem storeByte_sound {s : State} (h : s.Sound) {a : Word} (ha : a.toNat ≠ 0xFF46) (v : Byte) :
    (storeByte s a v).Sound := by
  have hlt := a.isLt
  unfold storeByte
  split
  · obtain ⟨⟨a1, a2, a3, a4, a5, a6, a7⟩, hb, ⟨c1, c2, c3, c4⟩, ⟨d1, d2⟩⟩ := h
    have o := bankWrite_onlyStores s a v
    have hf := State.flatAt_congr (bankWrite_flat s a v)
    refine ⟨⟨?_, ?_, ?_, ?_, ?_, ?_, ?_⟩, bankWrite_banks hb a v, ⟨?_, ?_, ?_, ?_⟩,
      ⟨?_, fun k hk hk' => ?_⟩⟩ <;>
      simp only [bankWrite_flat, bankWrite_ramBanks, bankWrite_timerCounter, o.cartridgeRom, o.screen,
        o.dividerCounter, o.scanlineCounter, hf] <;>
      first | assumption | exact d2 k hk hk'
  · split
    · exact (h.setFlat (by omega) (by omega) (by omega) (by omega)).setFlat (by omega) (by omega)
        (by omega) (by omega)
    · split
      · exact h
      · split
        · have h' : (s.setFlat 0xFF07 v).Sound :=
            h.setFlat (by omega) (by omega) (by omega) (by omega)
          simp only [tacWrite]
          split
          · exact h'
          · obtain ⟨⟨a1, a2, a3, a4, a5, a6, a7⟩, ⟨b1, b2⟩, ⟨c1, c2, c3, c4⟩, ⟨d1, d2⟩⟩ := h'
            exact ⟨⟨a1, a2, a3, a4, a5, a6, a7⟩, ⟨b1, b2⟩, ⟨c1, timerPeriod_range v, c3, c4⟩,
              ⟨d1, d2⟩⟩
        · split
          · exact h.setFlat (by omega) (by omega) (by omega) (by omega)
          · split
            · rename_i hx
              split
              · have hi : ramIndex s a < ramSize := by
                  have := h.banks.ram_le
                  have hs : ramSize = 0x8000 := rfl
                  unfold ramIndex
                  omega
                obtain ⟨⟨a1, a2, a3, a4, a5, a6, a7⟩, ⟨b1, b2⟩, ⟨c1, c2, c3, c4⟩, ⟨d1, d2⟩⟩ := h
                exact ⟨⟨a1, a2, a3, Memory.wf_write _ _ a4, Memory.below_write _ hi a5, a6, a7⟩,
                  ⟨b1, b2⟩, ⟨c1, c2, c3, c4⟩, ⟨d1, d2⟩⟩
              · exact h
            · split
              · exact h.setFlat (by omega) (by omega) (by omega) (by decide)
              · exact h.setFlat hlt ha (by omega) (by omega)

/-! ### What a write may change, and what every part of a program's instruction may -/

/-- The cells of `flat` that no write reaches: the copy of the image, the restricted range, and 0xFF46
(`20_memory.md` R71, R73, R78). -/
def Unwritten (k : Nat) : Prop := k < 0x8000 ∨ (0xFEA0 ≤ k ∧ k ≤ 0xFEFE) ∨ k = 0xFF46

/-- What the accesses of an instruction leave alone and keep: the construction inputs, the devices'
counters but for `timerCounter`, the framebuffer, the keys, the fault latch, the cells that no write reaches,
and `Sound`. -/
structure Kept (s t : State) : Prop where
  rom : t.cartridgeRom = s.cartridgeRom
  mode : t.bankingMode = s.bankingMode
  params : t.params = s.params
  screen : t.screen = s.screen
  divider : t.dividerCounter = s.dividerCounter
  scanline : t.scanlineCounter = s.scanlineCounter
  joypad : t.joypadState = s.joypadState
  fault : t.fault = s.fault
  unwritten : ∀ k, Unwritten k → t.flatAt k = s.flatAt k
  sound : s.Sound → t.Sound

theorem Kept.refl (s : State) : Kept s s :=
  ⟨rfl, rfl, rfl, rfl, rfl, rfl, rfl, rfl, fun _ _ => rfl, id⟩

theorem Kept.trans {s t u : State} (h : Kept s t) (k : Kept t u) : Kept s u where
  rom := k.rom.trans h.rom
  mode := k.mode.trans h.mode
  params := k.params.trans h.params
  screen := k.screen.trans h.screen
  divider := k.divider.trans h.divider
  scanline := k.scanline.trans h.scanline
  joypad := k.joypad.trans h.joypad
  fault := k.fault.trans h.fault
  unwritten := fun a ha => (k.unwritten a ha).trans (h.unwritten a ha)
  sound := fun hs => k.sound (h.sound hs)

/-- Registers, the enables and the returned cost are outside of what `Kept` speaks of. -/
theorem Kept.control {s t : State} (h : Kept s t) (r : Registers) (ime ei ar : Bool) (c : Nat) :
    Kept s { t with regs := r, ime := ime, eiPending := ei, armed := ar, lastCost := c } :=
  ⟨h.rom, h.mode, h.params, h.screen, h.divider, h.scanline, h.joypad, h.fault, h.unwritten,
    fun hs => (h.sound hs).congr rfl rfl rfl rfl rfl rfl rfl rfl rfl⟩

theorem storeByte_kept (s : State) {a : Word} (ha : a.toNat ≠ 0xFF46) (v : Byte) :
    Kept s (storeByte s a v) := by
  have o := storeByte_onlyStores s a v
  refine ⟨o.cartridgeRom, o.bankingMode, o.params, o.screen, o.dividerCounter, o.scanlineCounter,
    o.joypadState, o.fault, fun k hk => ?_, fun hs => storeByte_sound hs ha v⟩
  unfold Unwritten at hk
  rw [storeByte_flatAt]
  repeat' split
  all_goals first | rfl | omega

/-! ### The DMA copy -/

/-- A store to the sprite table is a plain one. -/
theorem storeByte_oam {s : State} {i : Nat} (hi : i < 0xA0) (v : Byte) :
    storeByte s (BitVec.ofNat 16 (0xFE00 + i)) v = s.setFlat (0xFE00 + i) v := by
  have e : (BitVec.ofNat 16 (0xFE00 + i)).toNat = 0xFE00 + i := by
    simp; omega
  unfold storeByte
  rw [e]
  repeat' rw [if_neg (by omega)]

/-- The source address of byte `i` of a copy. -/
theorem dmaSource_toNat (page : Byte) {i : Nat} (hi : i < 0xA0) :
    (BitVec.ofNat 16 (page.toNat * 256 + i)).toNat = page.toNat * 256 + i := by
  have := page.isLt
  simp; omega

/-- A copy whose remaining source bytes can all be read ends in a next state: the sprite table gets the
bytes, nothing else changes (`20_memory.md` R96, R97). -/
theorem dmaFrom_next (page : Byte) (src : Nat → Byte) (n i : Nat) (s : State) (hi : i + n ≤ 0xA0)
    (h : ∀ j, i ≤ j → j < i + n → read8 s (BitVec.ofNat 16 (page.toNat * 256 + j)) = .ok (src j)) :
    ∃ t, dmaFrom page n i s = .next t ∧ t = { s with flat := t.flat } ∧
      ∀ k, t.flatAt k
        = if 0xFE00 + i ≤ k ∧ k < 0xFE00 + i + n then src (k - 0xFE00) else s.flatAt k := by
  induction n generalizing i s with
  | zero =>
    refine ⟨s, rfl, rfl, fun k => ?_⟩
    rw [if_neg (by omega)]
  | succ n ih =>
    have h0 := h i (Nat.le_refl i) (by omega)
    have hstep : ∀ j, i + 1 ≤ j → j < i + 1 + n →
        read8 (s.setFlat (0xFE00 + i) (src i)) (BitVec.ofNat 16 (page.toNat * 256 + j))
          = .ok (src j) := by
      intro j hj hj'
      have ej := dmaSource_toNat page (i := j) (by omega)
      have ei : (BitVec.ofNat 16 (0xFE00 + i)).toNat = 0xFE00 + i := by
        simp; omega
      rw [← h j (by omega) (by omega), ← storeByte_oam (by omega) (src i)]
      refine storeByte_read8 (by omega) _ ?_
      unfold storeReaches
      rw [ei]
      repeat' rw [if_neg (by omega)]
      intro hc
      have := congrArg BitVec.toNat hc
      rw [ej, ei] at this
      omega
    obtain ⟨t, ht, hto, htf⟩ := ih (i + 1) (s.setFlat (0xFE00 + i) (src i)) (by omega) hstep
    refine ⟨t, ?_, ?_, fun k => ?_⟩
    · unfold dmaFrom
      rw [withByte_ok h0, storeByte_oam (by omega), ht]
    · rw [hto]; rfl
    · rw [htf k, State.setFlat_flatAt]
      by_cases hk : k = 0xFE00 + i
      · rw [if_neg (by omega), if_pos hk, if_pos (by omega), show k - 0xFE00 = i by omega]
      · rw [if_neg hk]
        by_cases hr : 0xFE00 + (i + 1) ≤ k ∧ k < 0xFE00 + (i + 1) + n
        · rw [if_pos hr, if_pos (by omega)]
        · rw [if_neg hr, if_neg (by omega)]

/-- A copy that reaches an unreadable source byte stops there, with the bytes before it copied
(`70_reset_and_hazards.md` R455). -/
theorem dmaFrom_fault (page : Byte) (src : Nat → Byte) (index n i m : Nat) (s : State)
    (hi : i + n ≤ 0xA0) (hm : m < n)
    (h : ∀ j, i ≤ j → j < i + m → read8 s (BitVec.ofNat 16 (page.toNat * 256 + j)) = .ok (src j))
    (hbad : read8 s (BitVec.ofNat 16 (page.toNat * 256 + (i + m))) = .error index) :
    ∃ t, dmaFrom page n i s = raise (.romIndexOutOfRange index) t ∧ t = { s with flat := t.flat } ∧
      ∀ k, t.flatAt k
        = if 0xFE00 + i ≤ k ∧ k < 0xFE00 + i + m then src (k - 0xFE00) else s.flatAt k := by
  have hkeep : ∀ (x : Byte) (j : Nat), i < j → j < 0xA0 →
      read8 (s.setFlat (0xFE00 + i) x) (BitVec.ofNat 16 (page.toNat * 256 + j))
        = read8 s (BitVec.ofNat 16 (page.toNat * 256 + j)) := by
    intro x j hj hj'
    have ej := dmaSource_toNat page (i := j) (by omega)
    have ei : (BitVec.ofNat 16 (0xFE00 + i)).toNat = 0xFE00 + i := by
      simp; omega
    rw [← storeByte_oam (by omega) x]
    refine storeByte_read8 (by omega) _ ?_
    unfold storeReaches
    rw [ei]
    repeat' rw [if_neg (by omega)]
    intro hc
    have := congrArg BitVec.toNat hc
    rw [ej, ei] at this
    omega
  induction m generalizing n i s with
  | zero =>
    obtain ⟨n, rfl⟩ : ∃ n', n = n' + 1 := ⟨n - 1, by omega⟩
    refine ⟨s, ?_, rfl, fun k => by rw [if_neg (by omega)]⟩
    unfold dmaFrom
    rw [withByte_error (by simpa using hbad)]
  | succ m ih =>
    obtain ⟨n, rfl⟩ : ∃ n', n = n' + 1 := ⟨n - 1, by omega⟩
    have h0 := h i (Nat.le_refl i) (by omega)
    obtain ⟨t, ht, hto, htf⟩ := ih n (i + 1) (s.setFlat (0xFE00 + i) (src i)) (by omega) (by omega)
      (fun j hj hj' => by rw [hkeep _ j (by omega) (by omega)]; exact h j (by omega) (by omega))
      (by rw [hkeep _ _ (by omega) (by omega), show i + 1 + m = i + (m + 1) by omega]; exact hbad)
      (fun x j hj hj' => by
        have ej := dmaSource_toNat page (i := j) (by omega)
        have ei : (BitVec.ofNat 16 (0xFE00 + (i + 1))).toNat = 0xFE00 + (i + 1) := by
          simp; omega
        rw [← storeByte_oam (by omega) x]
        refine storeByte_read8 (by omega) _ ?_
        unfold storeReaches
        rw [ei]
        repeat' rw [if_neg (by omega)]
        intro hc
        have := congrArg BitVec.toNat hc
        rw [ej, ei] at this
        omega)
    refine ⟨t, ?_, ?_, fun k => ?_⟩
    · unfold dmaFrom
      rw [withByte_ok h0, storeByte_oam (by omega), ht]
    · rw [hto]; rfl
    · rw [htf k, State.setFlat_flatAt]
      by_cases hk : k = 0xFE00 + i
      · rw [if_neg (by omega), if_pos hk, if_pos (by omega), show k - 0xFE00 = i by omega]
      · rw [if_neg hk]
        by_cases hr : 0xFE00 + (i + 1) ≤ k ∧ k < 0xFE00 + (i + 1) + m
        · rw [if_pos hr, if_pos (by omega)]
        · rw [if_neg hr, if_neg (by omega)]

/-- Whatever it copies, a copy keeps what writes keep and changes `flat` alone. -/
theorem dmaFrom_ends (page : Byte) (n i : Nat) (s : State) (hi : i + n ≤ 0xA0) :
    Ends (dmaFrom page n i s) fun t => Kept s t ∧ t = { s with flat := t.flat } := by
  induction n generalizing i s with
  | zero => exact ⟨Kept.refl s, rfl⟩
  | succ n ih =>
    unfold dmaFrom
    refine Ends.withByte fun v _ => ?_
    rw [storeByte_oam (by omega)]
    refine (ih (i + 1) _ (by omega)).mono fun t ht => ?_
    have ei : (BitVec.ofNat 16 (0xFE00 + i)).toNat = 0xFE00 + i := by
      simp; omega
    refine ⟨Kept.trans ?_ ht.1, by rw [ht.2]; rfl⟩
    rw [← storeByte_oam (by omega) v]
    exact storeByte_kept s (by omega) v

/-! ### `Write8` -/

theorem write8_store {a : Word} (ha : a.toNat ≠ 0xFF46) (v : Byte) (s : State) :
    write8 a v s = .next (storeByte s a v) := by
  rw [write8, if_neg ha]

/-- A write ends in a state that differs in what a write may change, and keeps what writes keep. -/
theorem write8_ends (a : Word) (v : Byte) (s : State) :
    Ends (write8 a v s) fun t => Kept s t ∧ OnlyStores s t := by
  unfold write8
  split
  · refine (dmaFrom_ends v 0xA0 0 s (by omega)).mono fun t ht => ⟨ht.1, ?_⟩
    rw [ht.2]
  · rename_i ha
    exact ⟨storeByte_kept s ha v, storeByte_onlyStores s a v⟩

/-! ### The stack -/

/-- A push whose two bytes do not land on 0xFF46 (`60_exceptions.md` R346). -/
theorem push16_next {s : State} (v : Word) (h1 : (s.regs.sp - 1).toNat ≠ 0xFF46)
    (h2 : (s.regs.sp - 2).toNat ≠ 0xFF46) :
    push16 v s = .next
      { storeByte (storeByte s (s.regs.sp - 1) (hiByte v)) (s.regs.sp - 2) (loByte v)
        with regs := { s.regs with sp := s.regs.sp - 2 } } := by
  have e : s.regs.sp - 1 - 1 = s.regs.sp - 2 := by
    rw [BitVec.sub_sub]; rfl
  simp only [push16, State.setSp, write8_store h1, andThen_next, storeByte_setRegs]
  simp only [e, write8_store h2, storeByte_setRegs]

/-- A pop whose two bytes can be read (`60_exceptions.md` R346). -/
theorem pop16_next {s : State} {lo hi : Byte} (h1 : read8 s s.regs.sp = .ok lo)
    (h2 : read8 s (s.regs.sp + 1) = .ok hi) (k : Word → State → Out) :
    pop16 s k = k (wordOf hi lo) { s with regs := { s.regs with sp := s.regs.sp + 2 } } := by
  have e : s.regs.sp + 1 + 1 = s.regs.sp + 2 := by
    rw [BitVec.add_assoc]; rfl
  have h2' : read8 (s.setSp (s.regs.sp + 1)) (s.setSp (s.regs.sp + 1)).regs.sp = .ok hi := h2
  rw [pop16, withByte_ok h1]
  simp only
  rw [withByte_ok h2', ← e]
  rfl

theorem push16_ends {s : State} {P : State → Prop} (v : Word)
    (hregs : ∀ (t : State) (r : Registers), P t → P { t with regs := r })
    (hwrite : ∀ (t : State) (a : Word) (x : Byte), P t → Ends (write8 a x t) P) (hs : P s) :
    Ends (push16 v s) P :=
  (hwrite _ _ _ (hregs s _ hs)).andThen fun t ht => hwrite _ _ _ (hregs t _ ht)

theorem pop16_ends {s : State} {P : State → Prop} {k : Word → State → Out}
    (hk : ∀ w, Ends (k w { s with regs := { s.regs with sp := s.regs.sp + 1 + 1 } }) P) :
    Ends (pop16 s k) P :=
  Ends.withByte fun _ _ => Ends.withByte fun _ _ => hk _

end Sys2Proof.Machine
end

