-- ==== Sys2Proof/Laws/Devices.lean ====
section
/-!
SUPPORT. The timer and the PPU: what they leave alone, and that they keep `Sound`.
-/

namespace Sys2Proof.Machine

/-- What a device's advance leaves alone and keeps. -/
structure DeviceKept (s t : State) : Prop where
  only : OnlyDevices s t
  flat : ∀ k, k ∉ deviceRegisters → t.flatAt k = s.flatAt k
  sound : s.Sound → t.Sound

theorem DeviceKept.refl (s : State) : DeviceKept s s := ⟨rfl, fun _ _ => rfl, id⟩

theorem DeviceKept.trans {s t u : State} (h : DeviceKept s t) (k : DeviceKept t u) :
    DeviceKept s u where
  only := by
    have h1 := h.only
    have h2 := k.only
    rw [OnlyDevices] at h1 h2 ⊢
    rw [h2, h1]
  flat := fun a ha => (k.flat a ha).trans (h.flat a ha)
  sound := fun hs => k.sound (h.sound hs)

/-- A direct store to a device register. -/
theorem DeviceKept.setFlat (s : State) {k : Nat} {v : Byte} (hk : k ∈ deviceRegisters)
    (hly : k = 0xFF44 → v.toNat ≤ 153) : DeviceKept s (s.setFlat k v) where
  only := rfl
  flat := fun j hj => by
    have hne : j ≠ k := fun h => hj (h ▸ hk)
    rw [State.setFlat_flatAt, if_neg hne]
  sound := fun hs => by
    simp only [deviceRegisters, List.mem_cons, List.not_mem_nil, or_false] at hk
    exact hs.setFlat (by omega) (by omega) (by omega) hly

theorem requestInterrupt_kept (i : Interrupt) (s : State) : DeviceKept s (requestInterrupt i s) :=
  DeviceKept.setFlat s (by decide) (fun h => absurd h (by decide))

/-! ### Timers -/

theorem advanceDivider_kept (cost : Nat) (s : State) : DeviceKept s (advanceDivider cost s) := by
  unfold advanceDivider
  split
  · have h := DeviceKept.setFlat s (k := 0xFF04) (v := s.flatAt 0xFF04 + 1) (by decide)
      (fun h => absurd h (by decide))
    refine ⟨rfl, h.flat, fun hs => ?_⟩
    obtain ⟨⟨a1, a2, a3, a4, a5, a6, a7⟩, ⟨b1, b2⟩, ⟨c1, c2, c3, c4⟩, ⟨d1, d2⟩⟩ := h.sound hs
    exact ⟨⟨a1, a2, a3, a4, a5, a6, a7⟩, ⟨b1, b2⟩, ⟨⟨Int.le_refl 0, (by decide : (0 : Int) ≤ 254)⟩, c2, c3, c4⟩, ⟨d1, d2⟩⟩
  · rename_i hlt
    refine ⟨rfl, fun _ _ => rfl, fun hs => ?_⟩
    obtain ⟨⟨a1, a2, a3, a4, a5, a6, a7⟩, ⟨b1, b2⟩, ⟨c1, c2, c3, c4⟩, ⟨d1, d2⟩⟩ := hs
    refine ⟨⟨a1, a2, a3, a4, a5, a6, a7⟩, ⟨b1, b2⟩, ⟨⟨?_, ?_⟩, c2, c3, c4⟩, ⟨d1, d2⟩⟩
    · show 0 ≤ s.dividerCounter + cost
      omega
    · show s.dividerCounter + cost ≤ 254
      omega

theorem tickTima_kept (s : State) : DeviceKept s (tickTima s) := by
  unfold tickTima
  split
  · exact (DeviceKept.setFlat s (by decide) (fun h => absurd h (by decide))).trans (requestInterrupt_kept _ _)
  · exact DeviceKept.setFlat s (by decide) (fun h => absurd h (by decide))

theorem advanceMainTimer_kept (cost : Nat) (s : State) : DeviceKept s (advanceMainTimer cost s) := by
  unfold advanceMainTimer
  split
  · split
    · refine DeviceKept.trans (t := { s with timerCounter := timerPeriod (s.flatAt 0xFF07) })
        ⟨rfl, fun _ _ => rfl, fun hs => ?_⟩ (tickTima_kept _)
      obtain ⟨⟨a1, a2, a3, a4, a5, a6, a7⟩, ⟨b1, b2⟩, ⟨c1, c2, c3, c4⟩, ⟨d1, d2⟩⟩ := hs
      exact ⟨⟨a1, a2, a3, a4, a5, a6, a7⟩, ⟨b1, b2⟩, ⟨c1, timerPeriod_range _, c3, c4⟩, ⟨d1, d2⟩⟩
    · refine ⟨rfl, fun _ _ => rfl, fun hs => ?_⟩
      obtain ⟨⟨a1, a2, a3, a4, a5, a6, a7⟩, ⟨b1, b2⟩, ⟨c1, c2, c3, c4⟩, ⟨d1, d2⟩⟩ := hs
      refine ⟨⟨a1, a2, a3, a4, a5, a6, a7⟩, ⟨b1, b2⟩, ⟨c1, ⟨?_, ?_⟩, c3, c4⟩, ⟨d1, d2⟩⟩
      · show 1 ≤ s.timerCounter - cost
        omega
      · show s.timerCounter - cost ≤ 1024
        omega
  · exact DeviceKept.refl s

theorem advanceTimers_kept (cost : Nat) (s : State) : DeviceKept s (advanceTimers cost s) :=
  (advanceDivider_kept cost s).trans (advanceMainTimer_kept cost _)

/-! ### The framebuffer -/

/-- A framebuffer in its canonical form and inside its size. -/
abbrev ScreenWf (m : Memory) : Prop :=
  Memory.wf zeroInitial m = true ∧ Memory.below screenSize m = true

theorem drawPixel_screenWf {m : Memory} (h : ScreenWf m) {x y : Nat} (hx : x < 160) (hy : y < 144)
    (rgb : Config.Rgb) : ScreenWf (drawPixel m x y rgb) :=
  ⟨drawPixel_wf x y rgb h.1, drawPixel_below rgb hx hy h.2⟩

/-- A property that every step of a fold keeps. -/
theorem foldl_keeps {α β : Type} {P : β → Prop} (f : β → α → β) (l : List α) {b : β} (hb : P b)
    (hf : ∀ b a, a ∈ l → P b → P (f b a)) : P (l.foldl f b) := by
  induction l generalizing b with
  | nil => exact hb
  | cons a l ih =>
    exact ih (hf b a (by simp) hb) fun b' a' ha' => hf b' a' (by simp [ha'])

theorem drawTiles_screenWf (s : State) {ly : Nat} (hy : ly < 144) {m : Memory} (h : ScreenWf m) :
    ScreenWf (drawTiles s ly m) :=
  foldl_keeps _ _ h fun _ _ hx hm => drawPixel_screenWf hm (List.mem_range.mp hx) hy _

theorem drawSpritePixel_screenWf (s : State) {ly : Nat} (hy : ly < 144) (n r : Nat) {m : Memory}
    (h : ScreenWf m) (k : Nat) : ScreenWf (drawSpritePixel s ly n r m k) := by
  simp only [drawSpritePixel]
  split
  · exact h
  · split
    · exact drawPixel_screenWf h (by omega) hy _
    · exact h

theorem drawSprite_screenWf (s : State) {ly : Nat} (hy : ly < 144) {m : Memory} (h : ScreenWf m)
    (n : Nat) : ScreenWf (drawSprite s ly m n) := by
  unfold drawSprite
  split
  · exact foldl_keeps _ _ h fun _ k _ hm => drawSpritePixel_screenWf s hy n _ hm k
  · exact h

theorem drawSprites_screenWf (s : State) {ly : Nat} (hy : ly < 144) {m : Memory} (h : ScreenWf m) :
    ScreenWf (drawSprites s ly m) :=
  foldl_keeps _ _ h fun _ n _ hm => drawSprite_screenWf s hy hm n

theorem renderLine_kept {ly : Nat} (hy : ly < 144) (s : State) : DeviceKept s (renderLine ly s) := by
  refine ⟨rfl, fun _ _ => rfl, fun hs => ?_⟩
  obtain ⟨⟨a1, a2, a3, a4, a5, a6, a7⟩, ⟨b1, b2⟩, ⟨c1, c2, c3, c4⟩, ⟨d1, d2⟩⟩ := hs
  have h0 : ScreenWf (if bitOf (s.flatAt 0xFF40) 0 then drawTiles s ly s.screen else s.screen) := by
    split
    · exact drawTiles_screenWf s hy ⟨a6, a7⟩
    · exact ⟨a6, a7⟩
  have h : ScreenWf (renderLine ly s).screen := by
    simp only [renderLine]
    by_cases hb : bitOf (s.flatAt 0xFF40) 1 = true
    · rw [if_pos hb]
      exact drawSprites_screenWf s hy h0
    · rw [if_neg hb]
      exact h0
  exact ⟨⟨a1, a2, a3, a4, a5, h.1, h.2⟩, ⟨b1, b2⟩, ⟨c1, c2, c3, c4⟩, ⟨d1, d2⟩⟩

/-! ### The PPU -/

theorem DeviceKept.scanline {s t : State} (h : DeviceKept s t) {c : Int} (hc : 1 ≤ c ∧ c ≤ 456) :
    DeviceKept s { t with scanlineCounter := c } where
  only := by
    have h1 := h.only
    rw [OnlyDevices] at h1 ⊢
    rw [h1]
  flat := h.flat
  sound := fun hs => by
    obtain ⟨⟨a1, a2, a3, a4, a5, a6, a7⟩, ⟨b1, b2⟩, ⟨c1, c2, c3, c4⟩, ⟨d1, d2⟩⟩ := h.sound hs
    exact ⟨⟨a1, a2, a3, a4, a5, a6, a7⟩, ⟨b1, b2⟩, ⟨c1, c2, hc, c4⟩, ⟨d1, d2⟩⟩

theorem lcdOff_kept (s : State) : DeviceKept s (lcdOff s) :=
  ((DeviceKept.setFlat s (k := 0xFF44) (v := 0) (by decide) (by decide)).trans
    (DeviceKept.setFlat _ (k := 0xFF41) (by decide) (fun h => absurd h (by decide)))).scanline
      (by omega)

theorem updateStatOn_kept (s : State) : DeviceKept s (updateStatOn s) := by
  have hstat : ∀ u v, DeviceKept u (u.setFlat 0xFF41 v) := fun u v =>
    DeviceKept.setFlat u (by decide) (fun h => absurd h (by decide))
  have hreq : ∀ (u : State) (p : Prop) [Decidable p],
      DeviceKept u (if p then requestInterrupt .stat u else u) := fun u p _ => by
    split
    · exact requestInterrupt_kept _ _
    · exact DeviceKept.refl u
  exact ((hreq _ _).trans (hreq _ _)).trans (hstat _ _)

/-- The line number that a line advance stores. -/
theorem lineByte_toNat {n : Nat} (h : n ≤ 153) : (BitVec.ofNat 8 (n + 1)).toNat = n + 1 := by
  simp; omega

/-- A line advance sets the counter whatever it was. -/
theorem advanceLine_scanline (s : State) (c : Int) :
    advanceLine { s with scanlineCounter := c } = advanceLine s := rfl

/-- A store to LY that a second one replaces. -/
theorem DeviceKept.setFlat_twice (s : State) (v w : Byte) (hw : w.toNat ≤ 153) :
    DeviceKept s ((s.setFlat 0xFF44 v).setFlat 0xFF44 w) where
  only := rfl
  flat := fun j hj => by
    have : j ≠ 0xFF44 := fun h => hj (h ▸ by decide)
    simp [this]
  sound := fun hs => by
    obtain ⟨⟨a1, a2, a3, a4, a5, a6, a7⟩, ⟨b1, b2⟩, ⟨c1, c2, c3, c4⟩, ⟨d1, d2⟩⟩ := hs
    refine ⟨⟨Memory.wf_write _ _ (Memory.wf_write _ _ a1),
      Memory.below_write _ (by decide) (Memory.below_write _ (by decide) a2), a3, a4, a5, a6, a7⟩,
      ⟨b1, b2⟩, ⟨c1, c2, c3, ?_⟩, ⟨?_, fun k hk hk' => ?_⟩⟩
    · simpa using hw
    · simpa using d1
    · have : k ≠ 0xFF44 := by omega
      simpa [this] using d2 k hk hk'

/-- A line advance from a line in range. -/
theorem advanceLine_kept (s : State) (h : (s.flatAt 0xFF44).toNat ≤ 153) :
    DeviceKept s (advanceLine s) := by
  have hl := lineByte_toNat h
  unfold advanceLine
  simp only
  split
  · rename_i h144
    exact ((DeviceKept.setFlat s (by decide) fun _ => by omega).scanline (by omega)).trans
      (requestInterrupt_kept _ _)
  · split
    · have h2 := (DeviceKept.setFlat_twice s (BitVec.ofNat 8 ((s.flatAt 0xFF44).toNat + 1)) 0
        (by decide)).scanline (c := 456) (by omega)
      split
      · exact h2.trans (renderLine_kept (by decide) _)
      · exact h2
    · have h1 := (DeviceKept.setFlat s (k := 0xFF44)
        (v := BitVec.ofNat 8 ((s.flatAt 0xFF44).toNat + 1)) (by decide) fun _ => by omega).scanline
          (c := 456) (by omega)
      split
      · exact h1.trans (renderLine_kept (by omega) _)
      · exact h1

/-- What the PPU's advance leaves alone and keeps, from a state in range. -/
theorem advanceGraphics_kept (cost : Nat) {s : State} (hs : s.Sound) :
    DeviceKept s (advanceGraphics cost s) := by
  unfold advanceGraphics
  split
  · have h1 := updateStatOn_kept s
    have hs1 := h1.sound hs
    simp only
    split
    · rw [advanceLine_scanline]
      exact h1.trans (advanceLine_kept _ hs1.counters.line)
    · refine h1.scanline ?_
      have := hs1.counters.scanline
      omega
  · exact lcdOff_kept s

/-! ### The frame of the PPU from any state -/

theorem updateStatOn_only (s : State) : OnlyDevices s (updateStatOn s) := (updateStatOn_kept s).only

theorem advanceLine_only (s : State) : OnlyDevices s (advanceLine s) := by
  unfold advanceLine
  simp only
  repeat' split
  all_goals rfl

theorem advanceLine_flat (s : State) (k : Nat) (hk : k ∉ deviceRegisters) :
    (advanceLine s).flatAt k = s.flatAt k := by
  simp only [deviceRegisters, List.mem_cons, List.not_mem_nil, or_false, not_or] at hk
  have h1 : ∀ (u : State) v, (u.setFlat 0xFF44 v).flatAt k = u.flatAt k := fun u v => by
    rw [State.setFlat_flatAt, if_neg hk.2.2.2.2]
  have h2 : ∀ (u : State) i, (requestInterrupt i u).flatAt k = u.flatAt k := fun u i => by
    rw [requestInterrupt, State.setFlat_flatAt, if_neg hk.2.2.1]
  have h3 : ∀ (u : State) l, (renderLine l u).flatAt k = u.flatAt k := fun _ _ => rfl
  have h4 : ∀ (u : State) (c : Int),
      ({ u with scanlineCounter := c } : State).flatAt k = u.flatAt k := fun _ _ => rfl
  unfold advanceLine
  simp only
  split
  · rw [h2, h4, h1]
  · split
    · split
      · rw [h3, h1, h4, h1]
      · rw [h1, h4, h1]
    · split
      · rw [h3, h4, h1]
      · rw [h4, h1]

/-- What the PPU's advance leaves alone, from any state. -/
theorem advanceGraphics_frame (cost : Nat) (s : State) :
    OnlyDevices s (advanceGraphics cost s)
      ∧ ∀ k, k ∉ deviceRegisters → (advanceGraphics cost s).flatAt k = s.flatAt k := by
  unfold advanceGraphics
  split
  · have h1 := updateStatOn_kept s
    simp only
    split
    · rw [advanceLine_scanline]
      have h2 := advanceLine_only (updateStatOn s)
      refine ⟨?_, fun k hk => (advanceLine_flat _ k hk).trans (h1.flat k hk)⟩
      have h3 := h1.only
      rw [OnlyDevices] at h2 h3 ⊢
      rw [h2, h3]
    · refine ⟨?_, h1.flat⟩
      have h3 := h1.only
      rw [OnlyDevices] at h3 ⊢
      rw [h3]
  · exact ⟨(lcdOff_kept s).only, (lcdOff_kept s).flat⟩

end Sys2Proof.Machine
end

