-- ==== Sys2Proof/Laws/Exec.lean ====
section
/-!
SUPPORT. What every instruction's meaning does, and does not do (Machine/Dispatch.lean).
-/

namespace Sys2Proof.Machine

/-- The instructions that change IME, its pending enable or the running step's latch
(`60_exceptions.md` R337). -/
def changesEnable : Instr → Bool
  | .di | .ei | .reti => true
  | _ => false

/-- Every instruction but `DI`, `EI` and `RETI` is made of register changes and writes: it keeps what
these keep, ends in a next state or in the fault of a read, and is never refused. -/
theorem exec_ends_of {P : State → Prop}
    (hregs : ∀ (t : State) (r : Registers) (c : Nat), P t → P { t with regs := r, lastCost := c })
    (hwrite : ∀ (t : State) (a : Word) (x : Byte), P t → Ends (write8 a x t) P) (i : Instr)
    (hi : changesEnable i = false) {s : State} (hs : P s) : Ends (exec i s) P := by
  have hset : ∀ (t : State) (r : Registers), P t → P { t with regs := r } :=
    fun t r ht => hregs t r t.lastCost ht
  have hd : ∀ (t : State) (r : Registers) (c : Nat), P t → Ends (done c { t with regs := r }) P :=
    fun t r c ht => Ends.done (hregs t r c ht)
  have hd0 : ∀ (t : State) (c : Nat), P t → Ends (done c t) P := fun t c ht => hd t t.regs c ht
  have hw : ∀ (a : Word) (x : Byte) (k : State → Out), (∀ t, P t → Ends (k t) P) →
      Ends (andThen (write8 a x s) k) P := fun a x k hk => (hwrite s a x hs).andThen hk
  have hpush : ∀ (v : Word) (k : State → Out), (∀ t, P t → Ends (k t) P) →
      Ends (andThen (push16 v s) k) P := fun v k hk => (push16_ends v hset hwrite hs).andThen hk
  have hpop : ∀ (k : Word → State → Out), (∀ w t, P t → Ends (k w t) P) → Ends (pop16 s k) P :=
    fun k hk => pop16_ends fun w => hk w _ (hset s _ hs)
  cases i
  all_goals first
    | exact absurd hi (by decide)
    | exact hd s _ _ hs
    | exact Ends.withByte fun v _ => hd s _ _ hs
    | exact hw _ _ _ fun t ht => hd t _ _ ht
    | exact Ends.withByte fun v _ => hw _ _ _ fun t ht => hd t _ _ ht
    | exact hw _ _ _ fun t ht => (hwrite t _ _ ht).andThen fun u hu => hd u _ _ hu
    | exact hpush _ _ fun t ht => hd t _ _ ht
    | exact hpop _ fun w t ht => hd t _ _ ht
    | skip
  case pop q => exact hpop (fun w t => done (s.cost (.pop q)) (t.setStackPair q w)) fun w t ht => hd t _ _ ht
  case ret => exact hpop (fun w t => done (s.cost .ret) (t.setPc w)) fun w t ht => hd t _ _ ht
  case jpCcNn cc nn =>
    show Ends (execJpCcNn cc nn s) P
    unfold execJpCcNn
    split
    · exact hd s _ _ hs
    · exact hd0 s _ hs
  case jrCcE cc e =>
    show Ends (execJrCcE cc e s) P
    unfold execJrCcE
    split
    · exact hd s _ _ hs
    · exact hd0 s _ hs
  case callCcNn cc nn =>
    show Ends (execCallCcNn cc nn s) P
    unfold execCallCcNn
    split
    · exact hpush _ _ fun t ht => hd t _ _ ht
    · exact hd0 s _ hs
  case retCc cc =>
    show Ends (execRetCc cc s) P
    unfold execRetCc
    split
    · exact hpop (fun w t => done (s.cost (.retCc cc)) (t.setPc w)) fun w t ht => hd t _ _ ht
    · exact hd0 s _ hs

/-- `Kept` survives everything an instruction does. -/
theorem exec_kept (i : Instr) (s : State) : Ends (exec i s) (Kept s) := by
  by_cases hi : changesEnable i = false
  · exact exec_ends_of (fun t r c ht => ht.control r t.ime t.eiPending t.armed c)
      (fun t a x ht => (write8_ends a x t).mono fun u hu => ht.trans hu.1) i hi (Kept.refl s)
  · cases i <;> first | exact absurd rfl hi | skip
    · exact Ends.done ((Kept.refl s).control _ _ _ _ _)
    · exact Ends.done ((Kept.refl s).control _ _ _ _ _)
    · exact Ends.withByte fun _ _ => Ends.withByte fun _ _ =>
        Ends.done ((Kept.refl s).control _ _ _ _ _)

/-- Only `DI`, `EI` and `RETI` change IME, its pending enable or the running step's latch. -/
theorem exec_enables (i : Instr) (hi : changesEnable i = false) (s : State) :
    Ends (exec i s) fun t => t.ime = s.ime ∧ t.eiPending = s.eiPending ∧ t.armed = s.armed :=
  exec_ends_of (P := fun t => t.ime = s.ime ∧ t.eiPending = s.eiPending ∧ t.armed = s.armed)
    (fun _ _ _ ht => ht)
    (fun t a x ht => (write8_ends a x t).mono fun _ hu =>
      ⟨hu.2.ime.trans ht.1, hu.2.eiPending.trans ht.2.1, hu.2.armed.trans ht.2.2⟩) i hi ⟨rfl, rfl, rfl⟩

/-! ### F in profile BASE -/

/-- No instruction of profile BASE changes the low nibble of F (`10_state.md` R25). -/
theorem exec_base_lowNibble {i : Instr} (hi : inBase i = true) (s : State) :
    Ends (exec i s) fun t => t.regs.f.toNat % 16 = s.regs.f.toNat % 16 := by
  have hw : ∀ (a : Word) (x : Byte) (k : State → Out),
      (∀ t, t.regs = s.regs → Ends (k t) fun u => u.regs.f.toNat % 16 = s.regs.f.toNat % 16) →
      Ends (andThen (write8 a x s) k) fun u => u.regs.f.toNat % 16 = s.regs.f.toNat % 16 :=
    fun a x k hk => (write8_ends a x s).andThen fun t ht => hk t ht.2.regs
  have hflag : ∀ z n h c, (setFlags s.regs.f z n h c).toNat % 16 = s.regs.f.toNat % 16 :=
    setFlags_lowNibble s.regs.f
  cases i
  all_goals first
    | exact absurd hi Bool.false_ne_true
    | exact (rfl : s.regs.f.toNat % 16 = s.regs.f.toNat % 16)
    | exact hflag _ _ _ _
    | exact congrArg (fun g : Byte => g.toNat % 16) (Registers.set_f s.regs _ _)
    | exact congrArg (fun g : Byte => g.toNat % 16) (Registers.setPair_f s.regs _ _)
    | exact Ends.withByte fun v _ => hflag _ _ _ _
    | exact Ends.withByte fun v _ => (rfl : s.regs.f.toNat % 16 = s.regs.f.toNat % 16)
    | exact Ends.withByte fun v _ => congrArg (fun g : Byte => g.toNat % 16) (Registers.set_f s.regs _ _)
    | exact hw _ _ _ fun t ht => congrArg (fun r : Registers => r.f.toNat % 16) ht
    | exact Ends.withByte fun v _ => hw _ _ _ fun t ht =>
        congrArg (fun r : Registers => r.f.toNat % 16) ht
    | skip
  case ldNnSp nn =>
    exact hw _ _ _ fun t ht => (write8_ends _ _ t).andThen fun u hu =>
      congrArg (fun r : Registers => r.f.toNat % 16) (hu.2.regs.trans ht)
  case rrHl =>
    exact Ends.withByte fun v _ => hw _ _ _ fun t ht =>
      (setFlags_lowNibble t.regs.f _ _ _ _).trans (congrArg (fun r : Registers => r.f.toNat % 16) ht)

/-! ### The returned cost -/

/-- An instruction returns its cost, or its lower cost when it is a conditional one that is not taken
(`40_step_and_nop.md` R153, `70_reset_and_hazards.md` R460). -/
theorem exec_cost (i : Instr) (s : State) :
    Ends (exec i s) fun t => t.lastCost = s.cost i ∨ t.lastCost = s.costNotTaken i := by
  have hw : ∀ (a : Word) (x : Byte) (u : State) (k : State → Out) (P : State → Prop),
      (∀ t, Ends (k t) P) → Ends (andThen (write8 a x u) k) P :=
    fun a x u k P hk => (write8_ends a x u).andThen fun t _ => hk t
  have hpush : ∀ (v : Word) (k : State → Out) (P : State → Prop),
      (∀ t, Ends (k t) P) → Ends (andThen (push16 v s) k) P :=
    fun v k P hk => (push16_ends (P := fun _ => True) v (fun _ _ _ => trivial)
      (fun t a x _ => (write8_ends a x t).mono fun _ _ => trivial) trivial).andThen fun t _ => hk t
  have hpop : ∀ (k : Word → State → Out) (P : State → Prop), (∀ w t, Ends (k w t) P) →
      Ends (pop16 s k) P := fun k P hk => pop16_ends fun w => hk w _
  cases i
  all_goals first
    | exact Or.inl rfl
    | exact Ends.withByte fun _ _ => Or.inl rfl
    | exact hw _ _ _ _ _ fun _ => Or.inl rfl
    | exact Ends.withByte fun _ _ => hw _ _ _ _ _ fun _ => Or.inl rfl
    | exact hw _ _ _ _ _ fun _ => hw _ _ _ _ _ fun _ => Or.inl rfl
    | exact hpush _ _ _ fun _ => Or.inl rfl
    | skip
  case pop q =>
    exact hpop (fun w t => done (s.cost (.pop q)) (t.setStackPair q w)) _ fun _ _ => Or.inl rfl
  case ret => exact hpop (fun w t => done (s.cost .ret) (t.setPc w)) _ fun _ _ => Or.inl rfl
  case reti =>
    exact hpop (fun w t => done (s.cost .reti) { t.setPc w with ime := true }) _ fun _ _ => Or.inl rfl
  case jpCcNn cc nn =>
    show Ends (execJpCcNn cc nn s) _
    unfold execJpCcNn
    split
    · exact Or.inl rfl
    · exact Or.inr rfl
  case jrCcE cc e =>
    show Ends (execJrCcE cc e s) _
    unfold execJrCcE
    split
    · exact Or.inl rfl
    · exact Or.inr rfl
  case callCcNn cc nn =>
    show Ends (execCallCcNn cc nn s) _
    unfold execCallCcNn
    split
    · exact hpush _ _ _ fun _ => Or.inl rfl
    · exact Or.inr rfl
  case retCc cc =>
    show Ends (execRetCc cc s) _
    unfold execRetCc
    split
    · exact hpop (fun w t => done (s.cost (.retCc cc)) (t.setPc w)) _ fun _ _ => Or.inl rfl
    · exact Or.inr rfl

theorem Cost.range (c : Config.Cost) : 4 ≤ c.toNat ∧ c.toNat ≤ 24 ∧ c.toNat % 4 = 0 := by
  cases c <;> decide

theorem BlockCost.range (c : Config.BlockCost) : 4 ≤ c.toNat ∧ c.toNat ≤ 12 ∧ c.toNat % 4 = 0 := by
  cases c <;> decide

/-- Every cost is a multiple of 4 between 4 and 24, whatever the table (`40_step_and_nop.md` R153). -/
theorem cost_range (s : State) (i : Instr) : 4 ≤ s.cost i ∧ s.cost i ≤ 24 ∧ s.cost i % 4 = 0 := by
  have hb := BlockCost.range s.params.cycles.loadBlock
  cases i
  case nop => simp [State.cost, cycles]
  case ldRR =>
    simp only [State.cost, cycles]
    omega
  case ldRHl | ldHlR | ldHlHl =>
    simp only [State.cost, cycles]
    omega
  all_goals exact Cost.range _

theorem costNotTaken_range (s : State) (i : Instr) :
    4 ≤ s.costNotTaken i ∧ s.costNotTaken i ≤ 24 ∧ s.costNotTaken i % 4 = 0 := by
  have h : s.costNotTaken i = s.cost i ∨ ∃ c : Config.Cost, s.costNotTaken i = c.toNat := by
    cases i <;> first | exact Or.inl rfl | exact Or.inr ⟨_, rfl⟩
  rcases h with h | ⟨c, h⟩
  · rw [h]
    exact cost_range s i
  · rw [h]
    exact Cost.range c

end Sys2Proof.Machine
end

