-- ==== Sys2Proof/Laws/PerInstr.lean ====
section
/-!
SUPPORT. The round trip, instruction by instruction: decoding the bytes of a well-formed instruction gives
it back, with the bytes after it left over (`30_encoding.md` R120, R130, R131).
-/

namespace Sys2Proof.Laws.RoundTrip

open Sys2Proof.Machine (wordOf hiByte loByte wordOf_hiByte_loByte)

/-- The statement about one instruction. -/
def Statement (i : Instr) : Prop :=
  i.WellFormed → ∀ rest : List Byte, decode (encode i ++ rest) = .ok (i, rest)


theorem nop : Statement .nop := fun _ _ => rfl

theorem ldRR (dst : Reg8) (src : Reg8) : Statement (.ldRR dst src) := by
  intro _ rest
  cases dst <;> cases src <;> rfl

theorem ldRHl (dst : Reg8) : Statement (.ldRHl dst) := by
  intro _ rest
  cases dst <;> rfl

theorem ldHlR (src : Reg8) : Statement (.ldHlR src) := by
  intro _ rest
  cases src <;> rfl

theorem ldHlHl : Statement .ldHlHl := fun _ _ => rfl

theorem ldRN (dst : Reg8) (n : Byte) : Statement (.ldRN dst n) := by
  intro _ rest
  cases dst <;> rfl

theorem ldHlN (n : Byte) : Statement (.ldHlN n) := fun _ _ => rfl

theorem ldABc : Statement .ldABc := fun _ _ => rfl

theorem ldADe : Statement .ldADe := fun _ _ => rfl

theorem ldBcA : Statement .ldBcA := fun _ _ => rfl

theorem ldDeA : Statement .ldDeA := fun _ _ => rfl

theorem ldANn (nn : Word) : Statement (.ldANn nn) := by
  intro _ rest
  have h : decode (encode (.ldANn nn) ++ rest)
      = .ok (.ldANn (wordOf (hiByte nn) (loByte nn)), rest) := rfl
  rwa [wordOf_hiByte_loByte] at h

theorem ldNnA (nn : Word) : Statement (.ldNnA nn) := by
  intro _ rest
  have h : decode (encode (.ldNnA nn) ++ rest)
      = .ok (.ldNnA (wordOf (hiByte nn) (loByte nn)), rest) := rfl
  rwa [wordOf_hiByte_loByte] at h

theorem ldRrNn (p : RegPair) (nn : Word) : Statement (.ldRrNn p nn) := by
  intro _ rest
  have h : decode (encode (.ldRrNn p nn) ++ rest)
      = .ok (.ldRrNn p (wordOf (hiByte nn) (loByte nn)), rest) := by cases p <;> rfl
  rwa [wordOf_hiByte_loByte] at h

theorem ldNnSp (nn : Word) : Statement (.ldNnSp nn) := by
  intro _ rest
  have h : decode (encode (.ldNnSp nn) ++ rest)
      = .ok (.ldNnSp (wordOf (hiByte nn) (loByte nn)), rest) := rfl
  rwa [wordOf_hiByte_loByte] at h

theorem ldSpHl : Statement .ldSpHl := fun _ _ => rfl

theorem addR (src : Reg8) : Statement (.addR src) := by
  intro _ rest
  cases src <;> rfl

theorem addHl : Statement .addHl := fun _ _ => rfl

theorem addN (n : Byte) : Statement (.addN n) := fun _ _ => rfl

theorem adcR (src : Reg8) : Statement (.adcR src) := by
  intro _ rest
  cases src <;> rfl

theorem adcHl : Statement .adcHl := fun _ _ => rfl

theorem adcN (n : Byte) : Statement (.adcN n) := fun _ _ => rfl

theorem subR (src : Reg8) : Statement (.subR src) := by
  intro _ rest
  cases src <;> rfl

theorem subHl : Statement .subHl := fun _ _ => rfl

theorem subN (n : Byte) : Statement (.subN n) := fun _ _ => rfl

theorem sbcR (src : Reg8) : Statement (.sbcR src) := by
  intro _ rest
  cases src <;> rfl

theorem sbcHl : Statement .sbcHl := fun _ _ => rfl

theorem sbcN (n : Byte) : Statement (.sbcN n) := fun _ _ => rfl

theorem xorR (src : Reg8) : Statement (.xorR src) := by
  intro _ rest
  cases src <;> rfl

theorem xorHl : Statement .xorHl := fun _ _ => rfl

theorem xorN (n : Byte) : Statement (.xorN n) := fun _ _ => rfl

theorem rra : Statement .rra := fun _ _ => rfl

theorem rrR (src : Reg8) : Statement (.rrR src) := by
  intro _ rest
  cases src <;> rfl

theorem rrHl : Statement .rrHl := fun _ _ => rfl

theorem bitR (bit : Nat) (src : Reg8) : Statement (.bitR bit src) := by
  intro h rest
  have hn : bit < 8 := by simpa [Instr.WellFormed, Instr.wellFormed] using h
  clear h
  revert rest
  refine cases_lt_eight (P := fun k => ∀ rest : List Byte,
    decode (encode (.bitR k src) ++ rest) = .ok (.bitR k src, rest)) hn ?_ ?_ ?_ ?_ ?_ ?_ ?_ ?_ <;>
    intro rest <;> cases src <;> rfl

theorem bitHl (bit : Nat) : Statement (.bitHl bit) := by
  intro h rest
  have hn : bit < 8 := by simpa [Instr.WellFormed, Instr.wellFormed] using h
  clear h
  revert rest
  refine cases_lt_eight (P := fun k => ∀ rest : List Byte,
    decode (encode (.bitHl k) ++ rest) = .ok (.bitHl k, rest)) hn ?_ ?_ ?_ ?_ ?_ ?_ ?_ ?_ <;>
    intro rest <;> rfl

theorem ldHliA : Statement .ldHliA := fun _ _ => rfl

theorem ldAHli : Statement .ldAHli := fun _ _ => rfl

theorem ldHldA : Statement .ldHldA := fun _ _ => rfl

theorem ldAHld : Statement .ldAHld := fun _ _ => rfl

theorem ldhNA (n : Byte) : Statement (.ldhNA n) := fun _ _ => rfl

theorem ldhAN (n : Byte) : Statement (.ldhAN n) := fun _ _ => rfl

theorem ldCA : Statement .ldCA := fun _ _ => rfl

theorem ldAC : Statement .ldAC := fun _ _ => rfl

theorem ldHlSpE (e : Byte) : Statement (.ldHlSpE e) := fun _ _ => rfl

theorem push (q : StackPair) : Statement (.push q) := by
  intro _ rest
  cases q <;> rfl

theorem pop (q : StackPair) : Statement (.pop q) := by
  intro _ rest
  cases q <;> rfl

theorem andR (src : Reg8) : Statement (.andR src) := by
  intro _ rest
  cases src <;> rfl

theorem andHl : Statement .andHl := fun _ _ => rfl

theorem andN (n : Byte) : Statement (.andN n) := fun _ _ => rfl

theorem orR (src : Reg8) : Statement (.orR src) := by
  intro _ rest
  cases src <;> rfl

theorem orHl : Statement .orHl := fun _ _ => rfl

theorem orN (n : Byte) : Statement (.orN n) := fun _ _ => rfl

theorem cpR (src : Reg8) : Statement (.cpR src) := by
  intro _ rest
  cases src <;> rfl

theorem cpHl : Statement .cpHl := fun _ _ => rfl

theorem cpN (n : Byte) : Statement (.cpN n) := fun _ _ => rfl

theorem incR (dst : Reg8) : Statement (.incR dst) := by
  intro _ rest
  cases dst <;> rfl

theorem incHl : Statement .incHl := fun _ _ => rfl

theorem decR (dst : Reg8) : Statement (.decR dst) := by
  intro _ rest
  cases dst <;> rfl

theorem decHl : Statement .decHl := fun _ _ => rfl

theorem incRr (p : RegPair) : Statement (.incRr p) := by
  intro _ rest
  cases p <;> rfl

theorem decRr (p : RegPair) : Statement (.decRr p) := by
  intro _ rest
  cases p <;> rfl

theorem addHlRr (p : RegPair) : Statement (.addHlRr p) := by
  intro _ rest
  cases p <;> rfl

theorem addSpE (e : Byte) : Statement (.addSpE e) := fun _ _ => rfl

theorem daa : Statement .daa := fun _ _ => rfl

theorem cpl : Statement .cpl := fun _ _ => rfl

theorem scf : Statement .scf := fun _ _ => rfl

theorem ccf : Statement .ccf := fun _ _ => rfl

theorem rlca : Statement .rlca := fun _ _ => rfl

theorem rla : Statement .rla := fun _ _ => rfl

theorem rrca : Statement .rrca := fun _ _ => rfl

theorem jpNn (nn : Word) : Statement (.jpNn nn) := by
  intro _ rest
  have h : decode (encode (.jpNn nn) ++ rest)
      = .ok (.jpNn (wordOf (hiByte nn) (loByte nn)), rest) := rfl
  rwa [wordOf_hiByte_loByte] at h

theorem jpCcNn (cc : Cond) (nn : Word) : Statement (.jpCcNn cc nn) := by
  intro _ rest
  have h : decode (encode (.jpCcNn cc nn) ++ rest)
      = .ok (.jpCcNn cc (wordOf (hiByte nn) (loByte nn)), rest) := by cases cc <;> rfl
  rwa [wordOf_hiByte_loByte] at h

theorem jpHl : Statement .jpHl := fun _ _ => rfl

theorem jrE (e : Byte) : Statement (.jrE e) := fun _ _ => rfl

theorem jrCcE (cc : Cond) (e : Byte) : Statement (.jrCcE cc e) := by
  intro _ rest
  cases cc <;> rfl

theorem callNn (nn : Word) : Statement (.callNn nn) := by
  intro _ rest
  have h : decode (encode (.callNn nn) ++ rest)
      = .ok (.callNn (wordOf (hiByte nn) (loByte nn)), rest) := rfl
  rwa [wordOf_hiByte_loByte] at h

theorem callCcNn (cc : Cond) (nn : Word) : Statement (.callCcNn cc nn) := by
  intro _ rest
  have h : decode (encode (.callCcNn cc nn) ++ rest)
      = .ok (.callCcNn cc (wordOf (hiByte nn) (loByte nn)), rest) := by cases cc <;> rfl
  rwa [wordOf_hiByte_loByte] at h

theorem ret : Statement .ret := fun _ _ => rfl

theorem retCc (cc : Cond) : Statement (.retCc cc) := by
  intro _ rest
  cases cc <;> rfl

theorem rst (t : Nat) : Statement (.rst t) := by
  intro h rest
  have hn : t < 8 := by simpa [Instr.WellFormed, Instr.wellFormed] using h
  clear h
  revert rest
  refine cases_lt_eight (P := fun k => ∀ rest : List Byte,
    decode (encode (.rst k) ++ rest) = .ok (.rst k, rest)) hn ?_ ?_ ?_ ?_ ?_ ?_ ?_ ?_ <;>
    intro rest <;> rfl

theorem di : Statement .di := fun _ _ => rfl

theorem ei : Statement .ei := fun _ _ => rfl

theorem reti : Statement .reti := fun _ _ => rfl

theorem rlcR (src : Reg8) : Statement (.rlcR src) := by
  intro _ rest
  cases src <;> rfl

theorem rlcHl : Statement .rlcHl := fun _ _ => rfl

theorem rrcR (src : Reg8) : Statement (.rrcR src) := by
  intro _ rest
  cases src <;> rfl

theorem rrcHl : Statement .rrcHl := fun _ _ => rfl

theorem rlR (src : Reg8) : Statement (.rlR src) := by
  intro _ rest
  cases src <;> rfl

theorem rlHl : Statement .rlHl := fun _ _ => rfl

theorem slaR (src : Reg8) : Statement (.slaR src) := by
  intro _ rest
  cases src <;> rfl

theorem slaHl : Statement .slaHl := fun _ _ => rfl

theorem sraR (src : Reg8) : Statement (.sraR src) := by
  intro _ rest
  cases src <;> rfl

theorem sraHl : Statement .sraHl := fun _ _ => rfl

theorem swapR (src : Reg8) : Statement (.swapR src) := by
  intro _ rest
  cases src <;> rfl

theorem swapHl : Statement .swapHl := fun _ _ => rfl

theorem srlR (src : Reg8) : Statement (.srlR src) := by
  intro _ rest
  cases src <;> rfl

theorem srlHl : Statement .srlHl := fun _ _ => rfl

theorem resR (bit : Nat) (src : Reg8) : Statement (.resR bit src) := by
  intro h rest
  have hn : bit < 8 := by simpa [Instr.WellFormed, Instr.wellFormed] using h
  clear h
  revert rest
  refine cases_lt_eight (P := fun k => ∀ rest : List Byte,
    decode (encode (.resR k src) ++ rest) = .ok (.resR k src, rest)) hn ?_ ?_ ?_ ?_ ?_ ?_ ?_ ?_ <;>
    intro rest <;> cases src <;> rfl

theorem resHl (bit : Nat) : Statement (.resHl bit) := by
  intro h rest
  have hn : bit < 8 := by simpa [Instr.WellFormed, Instr.wellFormed] using h
  clear h
  revert rest
  refine cases_lt_eight (P := fun k => ∀ rest : List Byte,
    decode (encode (.resHl k) ++ rest) = .ok (.resHl k, rest)) hn ?_ ?_ ?_ ?_ ?_ ?_ ?_ ?_ <;>
    intro rest <;> rfl

theorem setR (bit : Nat) (src : Reg8) : Statement (.setR bit src) := by
  intro h rest
  have hn : bit < 8 := by simpa [Instr.WellFormed, Instr.wellFormed] using h
  clear h
  revert rest
  refine cases_lt_eight (P := fun k => ∀ rest : List Byte,
    decode (encode (.setR k src) ++ rest) = .ok (.setR k src, rest)) hn ?_ ?_ ?_ ?_ ?_ ?_ ?_ ?_ <;>
    intro rest <;> cases src <;> rfl

theorem setHl (bit : Nat) : Statement (.setHl bit) := by
  intro h rest
  have hn : bit < 8 := by simpa [Instr.WellFormed, Instr.wellFormed] using h
  clear h
  revert rest
  refine cases_lt_eight (P := fun k => ∀ rest : List Byte,
    decode (encode (.setHl k) ++ rest) = .ok (.setHl k, rest)) hn ?_ ?_ ?_ ?_ ?_ ?_ ?_ ?_ <;>
    intro rest <;> rfl

end Sys2Proof.Laws.RoundTrip
end

