-- ==== Sys2Proof/Laws/Ppu.lean ====
section
/-!
SUPPORT. Drawing: what one pixel, the background pass and a whole line depend on and change.
-/

namespace Sys2Proof.Machine

/-- The three bytes of a pixel of a framebuffer. -/
def pixelAt (m : Memory) (x y : Nat) : Config.Rgb :=
  ⟨m.read zeroInitial ((x * 144 + y) * 3), m.read zeroInitial ((x * 144 + y) * 3 + 1),
    m.read zeroInitial ((x * 144 + y) * 3 + 2)⟩

theorem drawPixel_self (m : Memory) (x y : Nat) (rgb : Config.Rgb) :
    pixelAt (drawPixel m x y rgb) x y = rgb := by
  simp only [pixelAt, drawPixel, Memory.read_write]
  simp

theorem drawPixel_other (m : Memory) {x y x' y' c : Nat} (rgb : Config.Rgb) (hy : y < 144)
    (hy' : y' < 144) (h : ¬ (x' = x ∧ y' = y)) (hc : c < 3) :
    (drawPixel m x y rgb).read zeroInitial ((x' * 144 + y') * 3 + c)
      = m.read zeroInitial ((x' * 144 + y') * 3 + c) := by
  have : x' * 144 + y' ≠ x * 144 + y := fun e => h (by omega)
  simp only [drawPixel, Memory.read_write]
  rw [if_neg (by omega), if_neg (by omega), if_neg (by omega)]

theorem pixelAt_other (m : Memory) {x y x' y' : Nat} (rgb : Config.Rgb) (hy : y < 144)
    (hy' : y' < 144) (h : ¬ (x' = x ∧ y' = y)) :
    pixelAt (drawPixel m x y rgb) x' y' = pixelAt m x' y' := by
  have h0 := drawPixel_other m rgb hy hy' h (c := 0) (by decide)
  rw [Nat.add_zero] at h0
  unfold pixelAt
  rw [h0, drawPixel_other m rgb hy hy' h (by decide), drawPixel_other m rgb hy hy' h (by decide)]

/-- The background pass draws every column of its line from the state alone. -/
theorem drawTiles_pixel (s : State) {ly px : Nat} (hl : ly < 144) (hp : px < 160) (m : Memory) :
    pixelAt (drawTiles s ly m) px ly
      = shadeRgb s (paletteShade (s.flatAt 0xFF47) (tilePixelIndex s px ly)) := by
  have key : ∀ n, px < n → pixelAt ((List.range n).foldl (drawTilePixel s ly) m) px ly
      = shadeRgb s (paletteShade (s.flatAt 0xFF47) (tilePixelIndex s px ly)) := by
    intro n
    induction n with
    | zero => intro h; omega
    | succ n ih =>
      intro h
      rw [List.range_succ, List.foldl_append, List.foldl_cons, List.foldl_nil]
      by_cases e : px = n
      · subst e
        exact drawPixel_self _ _ _ _
      · unfold drawTilePixel
        rw [pixelAt_other _ _ hl hl (by omega)]
        exact ih (by omega)
  exact key 160 hp

theorem paletteShade_eq (palette : Byte) (idx : Nat) :
    paletteShade palette idx = palette.toNat / 4 ^ idx % 4 := by
  unfold paletteShade fieldOf
  rw [Nat.pow_mul]
  norm_num

theorem tileAddress_eq (lcdc t : Byte) :
    tileAddress lcdc t
      = if bitOf lcdc 4 then 0x8000 + t.toNat * 16
        else if t.toNat < 128 then 0x9000 + t.toNat * 16 else 0x8000 + t.toNat * 16 := by
  unfold tileAddress sextInt
  cases bitOf lcdc 4
  · rw [if_neg (by decide), if_neg (by decide), BitVec.toInt_eq_toNat_cond]
    have := t.isLt
    split_ifs <;> omega
  · rfl

/-- `t` differs from `s` in nothing that drawing a line reads: LY and IF play no part. -/
structure DrawsAlike (s t : State) : Prop where
  flat : ∀ k, k ≠ 0xFF44 → k ≠ 0xFF0F → t.flatAt k = s.flatAt k
  params : t.params = s.params

theorem DrawsAlike.low {s t : State} (h : DrawsAlike s t) {k : Nat} (hk : k < 0xFF0F) :
    t.flatAt k = s.flatAt k := h.flat k (by omega) (by omega)

theorem DrawsAlike.planeIndex {s t : State} (h : DrawsAlike s t) {a b : Nat} (hk : a + 1 < 0xFF0F) :
    planeIndex t a b = planeIndex s a b := by
  unfold Machine.planeIndex
  rw [h.low hk, h.low (by omega)]

theorem DrawsAlike.mapIndex {s t : State} (h : DrawsAlike s t) {m x y : Nat} (hm : m ≤ 0x9C00)
    (hx : x < 256) (hy : y < 256) : mapIndex t m x y = mapIndex s m x y := by
  unfold Machine.mapIndex
  simp only []
  rw [h.low (k := m + y / 8 * 32 + x / 8) (by omega), h.flat 0xFF40 (by decide) (by decide)]
  refine h.planeIndex ?_
  have := (s.flatAt (m + y / 8 * 32 + x / 8)).isLt
  rw [tileAddress_eq]
  split_ifs <;> omega

theorem DrawsAlike.tilePixelIndex {s t : State} (h : DrawsAlike s t) {px ly : Nat} (hp : px < 160)
    (hl : ly < 144) : tilePixelIndex t px ly = tilePixelIndex s px ly := by
  have r := h.flat
  unfold Machine.tilePixelIndex inWindow
  simp only []
  rw [r 0xFF40 (by decide) (by decide), r 0xFF4A (by decide) (by decide),
    r 0xFF4B (by decide) (by decide), r 0xFF42 (by decide) (by decide),
    r 0xFF43 (by decide) (by decide)]
  have := (s.flatAt 0xFF4B).isLt
  split
  · exact h.mapIndex (by split <;> decide) (by omega) (by omega)
  · exact h.mapIndex (by split <;> decide) (by omega) (by omega)

theorem foldl_congr {α β : Type} (f g : β → α → β) (l : List α)
    (h : ∀ x ∈ l, ∀ b, f b x = g b x) (b : β) : l.foldl f b = l.foldl g b := by
  induction l generalizing b with
  | nil => rfl
  | cons x l ih =>
    rw [List.foldl_cons, List.foldl_cons, h x (by simp), ih fun y hy => h y (by simp [hy])]

theorem DrawsAlike.shadeRgb {s t : State} (h : DrawsAlike s t) (n : Nat) :
    shadeRgb t n = shadeRgb s n := by
  unfold Machine.shadeRgb
  rw [h.params]

theorem DrawsAlike.drawTiles {s t : State} (h : DrawsAlike s t) {ly : Nat} (hl : ly < 144)
    (m : Memory) : drawTiles t ly m = drawTiles s ly m := by
  refine foldl_congr _ _ _ (fun px hpx b => ?_) _
  unfold drawTilePixel
  rw [h.shadeRgb, h.tilePixelIndex (List.mem_range.mp hpx) hl, h.flat 0xFF47 (by decide) (by decide)]

theorem DrawsAlike.oamByte {s t : State} (h : DrawsAlike s t) {n k : Nat} (hn : n < 40) (hk : k < 4) :
    oamByte t n k = oamByte s n k := h.low (by omega)

theorem spriteRow_lt {s : State} {n ly r : Nat} (h : spriteRow s n ly = some r) : r < 16 := by
  unfold spriteRow at h
  simp only [] at h
  have : spriteHeight s ≤ 16 := by unfold spriteHeight; split <;> decide
  split at h
  · injection h with h
    subst h
    split <;> omega
  · cases h

theorem DrawsAlike.drawSprites {s t : State} (h : DrawsAlike s t) {ly : Nat} (m : Memory) :
    drawSprites t ly m = drawSprites s ly m := by
  have hh : spriteHeight t = spriteHeight s := by
    unfold spriteHeight
    rw [h.flat 0xFF40 (by decide) (by decide)]
  refine foldl_congr _ _ _ (fun n hn b => ?_) _
  have o : ∀ {k}, k < 4 → Machine.oamByte t n k = Machine.oamByte s n k :=
    h.oamByte (List.mem_range.mp hn)
  have hrow : spriteRow t n ly = spriteRow s n ly := by
    unfold spriteRow
    simp only [o (show 0 < 4 by decide), o (show 3 < 4 by decide), hh]
  unfold drawSprite
  rw [hrow]
  split
  · rename_i r hr
    have := spriteRow_lt hr
    have o2 := (Machine.oamByte s n 2).isLt
    refine foldl_congr _ _ _ (fun k hk b => ?_) _
    have hs : spriteShade t n r k = spriteShade s n r k := by
      unfold spriteShade
      simp only [o (show 2 < 4 by decide), o (show 3 < 4 by decide),
        h.flat 0xFF48 (by decide) (by decide), h.flat 0xFF49 (by decide) (by decide)]
      rw [h.planeIndex (by omega)]
    unfold drawSpritePixel
    simp only [hs, o (show 1 < 4 by decide), h.shadeRgb]
  · rfl

/-- A line is drawn alike in states that differ in nothing it reads. -/
theorem DrawsAlike.renderLine {s t : State} (h : DrawsAlike s t) (hs : t.screen = s.screen) {ly : Nat}
    (hl : ly < 144) : (renderLine ly t).screen = (renderLine ly s).screen := by
  unfold Machine.renderLine
  simp only [h.flat 0xFF40 (by decide) (by decide), h.drawTiles hl, h.drawSprites, hs]

end Sys2Proof.Machine
end

