-- ==== Sys2Proof/Laws/Results.lean ====
section
/-!
SUPPORT. Results: how the shared ends of the meanings (a store, a push, the flags) give what
Sys2Proof/Safety.lean says of a result.
-/

namespace Sys2Proof.Machine

/-! ### Words -/

/-- A byte is its eight bits. -/
theorem byte_ext {x y : Byte} (h : ∀ k, k < 8 → x.getLsbD k = y.getLsbD k) : x = y :=
  BitVec.eq_of_getLsbD_eq h

@[simp] theorem withBit_getLsbD (x : Byte) (i j : Nat) (b : Bool) (h : i < 8) :
    (withBit x i b).getLsbD j = if j = i then b else x.getLsbD j := bitOf_withBit x i b j h

theorem highPage_eq (n : Byte) : highPage n = 0xFF00 + n.setWidth 16 := by
  apply BitVec.eq_of_toNat_eq
  have := n.isLt
  rw [highPage, wordOf_toNat]
  simp
  omega

/-- A word that differs from `base` by the signed byte `e`, modulo 65536, is `base` plus the sign
extension of `e`. -/
theorem eq_add_sext8 {base target : Word} {e : Byte}
    (h : (target.toInt - base.toInt - e.toInt) % 65536 = 0) : target = base + sext8 e := by
  apply BitVec.eq_of_toInt_eq
  rw [BitVec.toInt_add, sext8, BitVec.toInt_signExtend_of_le (by decide)]
  have h1 := BitVec.toInt_lt (x := target)
  have h2 := BitVec.le_toInt target
  simp only [Int.bmod_def]
  simp at h1 h2
  omega

theorem beq_zero_ofNat (n : Nat) : (BitVec.ofNat 8 n == 0) = decide (n % 256 = 0) := by
  rw [Bool.eq_iff_iff]
  simp [← BitVec.toNat_inj]

theorem condHolds_iff (r : Registers) (cc : Cond) : CondHolds r.f cc ↔ r.holds cc = true := by
  cases cc <;> simp [CondHolds, Registers.holds, Registers.flagZ, Registers.flagC, bitOf]

/-! ### Flags -/

theorem setFlags_flagsAre (f : Byte) (z n h c : Option Bool) :
    FlagsAre f (setFlags f z n h c) (z.getD (f.getLsbD 7)) (n.getD (f.getLsbD 6))
      (h.getD (f.getLsbD 5)) (c.getD (f.getLsbD 4)) :=
  ⟨setFlags_z f z n h c, setFlags_n f z n h c, setFlags_h f z n h c, setFlags_c f z n h c,
    setFlags_lowNibble f z n h c⟩

theorem FlagsAre.cast {f g : Byte} {z n h c z' n' h' c' : Bool} (x : FlagsAre f g z n h c)
    (hz : z = z') (hn : n = n') (hh : h = h') (hc : c = c') : FlagsAre f g z' n' h' c' := by
  subst hz hn hh hc
  exact x

theorem storeA_leaves (s : State) (r : AluResult) (cost : Nat) {a : Byte} {z n h c : Bool}
    (ha : r.value = a) (hz : r.z = z) (hn : r.n = n) (hh : r.h = h) (hc : r.c = c) :
    LeavesA (storeA cost r s) s a z n h c cost := by
  subst ha hz hn hh hc
  exact ⟨_, setFlags_flagsAre _ _ _ _ _, rfl⟩

theorem storeFlags_leaves (s : State) (r : AluResult) (cost : Nat) {z n h c : Bool}
    (hz : r.z = z) (hn : r.n = n) (hh : r.h = h) (hc : r.c = c) :
    LeavesFlags (storeFlags cost r s) s z n h c cost := by
  subst hz hn hh hc
  exact ⟨_, setFlags_flagsAre _ _ _ _ _, rfl⟩

/-! ### Stores -/

/-- A write followed by an end that sets the register file and the cost. -/
theorem storesTo_of {o : Out} {s : State} {a : Word} {v : Byte} {r : Registers} {cost : Nat}
    (k : State → Out) (ho : o = andThen (write8 a v s) k)
    (hk : ∀ t, t.regs = s.regs → k t = .next { t with regs := r, lastCost := cost }) :
    StoresTo o s a v r cost := by
  refine ⟨fun ha => ⟨?_, storeByte_onlyStores s a v, fun b hb => storeByte_read8 ha v hb⟩,
    fun ha => ⟨fun w hw => ?_, fun f hf => ?_⟩⟩
  · rw [ho, write8_store ha, andThen_next, hk]
    exact (storeByte_onlyStores s a v).regs
  · have hw' : write8 a v s = .next w := by
      rw [write8, if_pos ha]
      exact hw
    rw [ho, hw', andThen_next, hk]
    exact ((write8_ends a v s).of_next hw').2.regs
  · have hf' : write8 a v s = .fault f := by
      rw [write8, if_pos ha]
      exact hf
    rw [ho, hf', andThen_fault]

theorem done_of_regs {s t : State} (h : t.regs = s.regs) (cost : Nat) :
    done cost t = .next { t with regs := s.regs, lastCost := cost } := by
  rw [← h]
  rfl

/-- A write followed by an end that sets the flags. -/
theorem storesFlags_of {o : Out} {s : State} {a : Word} {v : Byte} {z n h c : Bool} {cost : Nat}
    (g : Byte → Byte)
    (ho : o = andThen (write8 a v s) fun t => done cost (t.setF (g t.regs.f)))
    (hf : FlagsAre s.regs.f (g s.regs.f) z n h c) : StoresFlags o s a v z n h c cost := by
  refine ⟨_, hf, storesTo_of _ ho fun t ht => ?_⟩
  simp only [done, State.setF, ht]

/-! ### Pushes -/

theorem push16_of_pushes {s t : State} {v : Word} (h : Pushes s v t) :
    push16 v s = .next { t with regs := { s.regs with sp := s.regs.sp - 2 } } := by
  have e : s.regs.sp - 1 - 1 = s.regs.sp - 2 := by
    rw [BitVec.sub_sub]
    rfl
  obtain ⟨u, hu, ht⟩ := h
  have h1 := ((write8_ends _ _ _).of_next hu).2.regs
  have h2 := ((write8_ends _ _ _).of_next ht).2.regs
  simp only [push16, State.setSp, hu, andThen_next, h1, e]
  rw [ht]
  congr 1
  cases t
  simp only at h2
  subst h2
  rfl

theorem push16_of_stops {s : State} {v : Word} {f : Fault} (h : PushStops s v f) :
    push16 v s = .fault f := by
  have e : s.regs.sp - 1 - 1 = s.regs.sp - 2 := by
    rw [BitVec.sub_sub]
    rfl
  rcases h with h | ⟨u, hu, h⟩
  · simp only [push16, State.setSp, h, andThen_fault]
  · have h1 := ((write8_ends _ _ _).of_next hu).2.regs
    simp only [push16, State.setSp, hu, andThen_next, h1, e]
    exact h

theorem pushes_of_ne {s : State} (v : Word) (h1 : (s.regs.sp - 1).toNat ≠ 0xFF46)
    (h2 : (s.regs.sp - 2).toNat ≠ 0xFF46) :
    Pushes s v
      { storeByte (storeByte s (s.regs.sp - 1) (hiByte v)) (s.regs.sp - 2) (loByte v)
        with regs := { s.regs with sp := s.regs.sp - 2 } } := by
  refine ⟨_, write8_store h1 _ _, ?_⟩
  rw [write8_store h2]
  simp only [storeByte_setRegs]

/-- A push followed by an end that sets PC and the cost. -/
theorem pushesThen_of {o : Out} {s : State} {v pc : Word} {cost : Nat} (k : State → Out)
    (ho : o = andThen (push16 v s) k)
    (hk : ∀ t, t.regs = { s.regs with sp := s.regs.sp - 2 } → t.lastCost = s.lastCost →
      k t = .next
        { t with regs := { s.regs with sp := s.regs.sp - 2, pc := pc }, lastCost := cost }) :
    PushesThen o s v pc cost := by
  have key : ∀ t, Pushes s v t → o = .next
      { t with regs := { s.regs with sp := s.regs.sp - 2, pc := pc }, lastCost := cost } := by
    intro t ht
    rw [ho, push16_of_pushes ht, andThen_next, hk _ rfl]
    obtain ⟨u, hu, hu2⟩ := ht
    exact ((write8_ends _ _ _).of_next hu2).2.lastCost.trans
      ((write8_ends _ _ _).of_next hu).2.lastCost
  refine ⟨key, fun f hf => by rw [ho, push16_of_stops hf, andThen_fault], fun h1 h2 =>
    ⟨_, pushes_of_ne v h1 h2, key _ (pushes_of_ne v h1 h2), ?_, fun b h3 h4 => ?_⟩⟩
  · have h := (storeByte_onlyStores s (s.regs.sp - 1) (hiByte v)).trans
      (storeByte_onlyStores _ (s.regs.sp - 2) (loByte v))
    simp only [OnlyStores] at h ⊢
    rw [h]
  · rw [read8_regs, storeByte_read8 h2 _ h4, storeByte_read8 h1 _ h3]

end Sys2Proof.Machine
end

