-- ==== Sys2Proof/Laws/Step.lean ====
section
/-!
SUPPORT. The step: fetching, the phases around an instruction, and what every step keeps.
-/

namespace Sys2Proof.Machine

/-! ### Fetching -/

theorem fetch8_ok {s : State} {v : Byte} (h : read8 s s.regs.pc = .ok v) :
    fetch8 s = .ok (v, s.setPc (s.regs.pc + 1)) := by
  simp [fetch8, h]

theorem fetch8_error {s : State} {index : Nat} (h : read8 s s.regs.pc = .error index) :
    fetch8 s = .error (faultOf (.romIndexOutOfRange index) s) := by
  simp [fetch8, h]

theorem setPc_setPc (s : State) (v w : Word) : (s.setPc v).setPc w = s.setPc w := rfl

theorem fetch8_setPc {s : State} {a : Word} {v : Byte} (h : read8 s a = .ok v) :
    fetch8 (s.setPc a) = .ok (v, s.setPc (a + 1)) :=
  fetch8_ok (s := s.setPc a) h

theorem BytesAtPc.head {s : State} {b : Byte} {bytes : List Byte} (h : BytesAtPc s (b :: bytes)) :
    read8 s s.regs.pc = .ok b := by
  simpa using h 0 b rfl

theorem BytesAtPc.second {s : State} {b c : Byte} {bytes : List Byte}
    (h : BytesAtPc s (b :: c :: bytes)) : read8 s (s.regs.pc + 1) = .ok c := h 1 c rfl

theorem BytesAtPc.third {s : State} {b c d : Byte} {bytes : List Byte}
    (h : BytesAtPc s (b :: c :: d :: bytes)) : read8 s (s.regs.pc + 1 + 1) = .ok d := by
  rw [BitVec.add_assoc]
  exact h 2 d rfl

/-- A prefixed instruction: both bytes are fetched, then the handler is selected. -/
theorem fetchInstr_prefixed {s : State} {op2 : Byte} (h0 : read8 s s.regs.pc = .ok prefixByte)
    (h1 : read8 s (s.regs.pc + 1) = .ok op2) :
    fetchInstr s
      = selectHandler (wordOf prefixByte op2) (decodePrefixed op2) (s.setPc (s.regs.pc + 2)) := by
  have e : s.regs.pc + 1 + 1 = s.regs.pc + 2 := by rw [BitVec.add_assoc]; rfl
  unfold fetchInstr
  rw [fetch8_ok h0]
  simp only [if_true]
  rw [fetch8_setPc h1, e]

/-- An opcode byte with no handler in either profile. -/
theorem fetchInstr_unhandled {s : State} {op : Byte} (h0 : read8 s s.regs.pc = .ok op)
    (hop : op ≠ prefixByte) (h : decodePlain op 0 0 = none) :
    fetchInstr s
      = .error (faultOf (.unsupportedOpcode (wordOf 0 op)) (s.setPc (s.regs.pc + 1))) := by
  unfold fetchInstr
  rw [fetch8_ok h0]
  simp only [if_neg hop, h]

/-- An opcode byte with a handler: the operand bytes are fetched when the profile has it. -/
theorem fetchInstr_plain {s : State} {op : Byte} {head : Instr} (h0 : read8 s s.regs.pc = .ok op)
    (hop : op ≠ prefixByte) (h : decodePlain op 0 0 = some head) :
    fetchInstr s
      = if hasHandler s.params.profile head = true then
          fetchOperands op head.length head (s.setPc (s.regs.pc + 1))
        else .error (faultOf (.unsupportedOpcode (wordOf 0 op)) (s.setPc (s.regs.pc + 1))) := by
  unfold fetchInstr
  rw [fetch8_ok h0]
  simp only [if_neg hop, h, selectHandler, State.setPc_params, instrLength_plain hop h]
  by_cases hh : hasHandler s.params.profile head = true
  · simp only [hh, if_true]
  · simp only [hh, Bool.false_eq_true, if_false]

/-- Fetching the bytes of an instruction that has a handler gives the instruction, with PC past
them. -/
theorem fetchInstr_handled {s : State} {bytes : List Byte} {i : Instr}
    (hd : decode bytes = .ok (i, [])) (hb : BytesAtPc s bytes)
    (hh : hasHandler s.params.profile i = true) :
    fetchInstr s = .ok (i, s.setPc (s.regs.pc + BitVec.ofNat 16 bytes.length)) := by
  have e2 : s.regs.pc + 1 + 1 = s.regs.pc + 2 := by rw [BitVec.add_assoc]; rfl
  have e3 : s.regs.pc + 1 + 1 + 1 = s.regs.pc + 3 := by rw [e2, BitVec.add_assoc]; rfl
  match bytes, hd, hb with
  | [], hd, _ => exact absurd hd (by simp [decode])
  | op :: tail, hd, hb =>
    have h0 := hb.head
    by_cases hop : op = prefixByte
    · subst hop
      match tail, hd, hb with
      | [], hd, _ => exact absurd hd (by simp [decode])
      | [op2], hd, hb =>
        have hi : decodePrefixed op2 = i := by simpa [decode] using hd
        rw [fetchInstr_prefixed h0 hb.second, selectHandler, hi]
        simp only [State.setPc_params, hh, if_true]
        rfl
      | _ :: _ :: _, hd, _ => exact absurd hd (by simp [decode])
    · have key : ∀ n1 n2, decodePlain op n1 n2 = some i → ∃ head,
          decodePlain op 0 0 = some head ∧ head.length = i.length ∧
          fetchInstr s = fetchOperands op head.length head (s.setPc (s.regs.pc + 1)) := by
        intro n1 n2 hp
        obtain ⟨head, hh0, -, -, -, hl, hbase⟩ := decodePlain_some hp
        refine ⟨head, hh0, hl.symm, ?_⟩
        have : hasHandler s.params.profile head = true := by
          simpa only [hasHandler, hbase] using hh
        rw [fetchInstr_plain h0 hop hh0, if_pos this]
      have hlen := (encode_of_decode hd).2
      have hlen' : (op :: tail).length = i.length := by rw [hlen]; simp
      simp only [decode, if_neg hop] at hd
      split at hd
      · rename_i n1 n2 after hl
        split at hd
        · rename_i j hj
          simp only [Except.ok.injEq, Prod.mk.injEq] at hd
          obtain ⟨rfl, rfl⟩ := hd
          obtain ⟨head, -, hl', hf⟩ := key n1 n2 hj
          have : head.length = 3 := by rw [hl', ← hlen']; rfl
          rw [hf, this]
          simp only [fetchOperands, fetch8_setPc hb.second, fetch8_setPc hb.third, hj, Option.getD_some,
            e3]
          rfl
        · exact absurd hd (by simp)
      · exact absurd hd (by simp)
      · rename_i n1 after hl
        split at hd
        · rename_i j hj
          simp only [Except.ok.injEq, Prod.mk.injEq] at hd
          obtain ⟨rfl, rfl⟩ := hd
          obtain ⟨head, -, hl', hf⟩ := key n1 0 hj
          have : head.length = 2 := by rw [hl', ← hlen']; rfl
          rw [hf, this]
          simp only [fetchOperands, fetch8_setPc hb.second, hj, Option.getD_some, e2]
          rfl
        · exact absurd hd (by simp)
      · exact absurd hd (by simp)
      · split at hd
        · rename_i j hj
          simp only [Except.ok.injEq, Prod.mk.injEq] at hd
          obtain ⟨rfl, rfl⟩ := hd
          obtain ⟨head, hh0, hl', hf⟩ := key 0 0 hj
          have : head.length = 1 := by rw [hl', ← hlen']; rfl
          have hjh : head = j := Option.some.inj (hh0.symm.trans hj)
          rw [hf, this, hjh]
          rfl
        · exact absurd hd (by simp)

/-- Whatever is fetched, only PC moves. -/
theorem fetch8_pc {s u : State} {v : Byte} (h : fetch8 s = .ok (v, u)) :
    ∃ pc, u = s.setPc pc := by
  unfold fetch8 at h
  split at h
  · simp only [Except.ok.injEq, Prod.mk.injEq] at h
    exact ⟨_, h.2.symm⟩
  · exact absurd h (by simp)

theorem fetch8_fault {s : State} {f : Fault} (h : fetch8 s = .error f) :
    ∃ cause, f = faultOf cause s := by
  unfold fetch8 at h
  split at h
  · exact absurd h (by simp)
  · simp only [Except.error.injEq] at h
    exact ⟨_, h.symm⟩

/-- The outcome of a fetch: an instruction with only PC moved, or a fault with only PC moved. -/
def Fetched (s : State) (p : Config.Profile) : Except Fault (Instr × State) → Prop
  | .ok (i, u) => (∃ pc, u = s.setPc pc) ∧ hasHandler p i = true
  | .error f => ∃ cause pc, f = faultOf cause (s.setPc pc)

theorem fetch8_cases (s : State) :
    (∃ v pc, fetch8 s = .ok (v, s.setPc pc)) ∨ ∃ cause, fetch8 s = .error (faultOf cause s) := by
  unfold fetch8
  split
  · exact .inl ⟨_, _, rfl⟩
  · exact .inr ⟨_, rfl⟩

theorem selectHandler_fetched (s : State) (pc : Word) (code : Word) (i : Instr) :
    Fetched s s.params.profile (selectHandler code i (s.setPc pc)) := by
  unfold selectHandler
  split
  · rename_i h
    exact ⟨⟨pc, rfl⟩, h⟩
  · exact ⟨_, pc, rfl⟩

theorem hasHandler_operands (p : Config.Profile) {op n1 n2 : Byte} {head : Instr}
    (h : decodePlain op 0 0 = some head) :
    hasHandler p ((decodePlain op n1 n2).getD head) = hasHandler p head := by
  rw [decodePlain_operands, h]
  simp [hasHandler]

theorem fetchOperands_fetched {s : State} {op : Byte} {head : Instr} (pc : Word) (length : Nat)
    (h : decodePlain op 0 0 = some head) (hh : hasHandler s.params.profile head = true) :
    Fetched s s.params.profile (fetchOperands op length head (s.setPc pc)) := by
  have hop : ∀ n1 n2,
      hasHandler s.params.profile ((decodePlain op n1 n2).getD head) = true := fun n1 n2 =>
    (hasHandler_operands _ h).trans hh
  unfold fetchOperands
  split
  · rcases fetch8_cases (s.setPc pc) with ⟨n1, pc1, h1⟩ | ⟨cause, h1⟩
    · rw [h1, setPc_setPc]
      simp only
      rcases fetch8_cases (s.setPc pc1) with ⟨n2, pc2, h2⟩ | ⟨cause, h2⟩
      · rw [h2]
        exact ⟨⟨pc2, rfl⟩, hop n1 n2⟩
      · rw [h2]
        exact ⟨cause, pc1, rfl⟩
    · rw [h1]
      exact ⟨cause, pc, rfl⟩
  · rcases fetch8_cases (s.setPc pc) with ⟨n1, pc1, h1⟩ | ⟨cause, h1⟩
    · rw [h1]
      exact ⟨⟨pc1, rfl⟩, hop n1 0⟩
    · rw [h1]
      exact ⟨cause, pc, rfl⟩
  · exact ⟨⟨pc, rfl⟩, hh⟩

/-- Whatever is fetched, only PC moves, and an instruction that is fetched has a handler. -/
theorem fetchInstr_fetched (s : State) : Fetched s s.params.profile (fetchInstr s) := by
  rcases fetch8_cases s with ⟨op, pc, h1⟩ | ⟨cause, h1⟩
  · by_cases hop : op = prefixByte
    · rcases fetch8_cases (s.setPc pc) with ⟨op2, pc2, h2⟩ | ⟨cause, h2⟩
      · simp only [fetchInstr, h1, hop, if_true, h2, setPc_setPc]
        exact selectHandler_fetched s pc2 _ _
      · simp only [fetchInstr, h1, hop, if_true, h2]
        exact ⟨cause, pc, rfl⟩
    · cases hd : decodePlain op 0 0 with
      | none =>
        simp only [fetchInstr, h1, if_neg hop, hd]
        exact ⟨_, pc, rfl⟩
      | some head =>
        simp only [fetchInstr, h1, if_neg hop, hd, selectHandler, State.setPc_params]
        by_cases hh : hasHandler s.params.profile head = true
        · simp only [hh, if_true]
          exact fetchOperands_fetched pc _ hd hh
        · simp only [hh]
          exact ⟨_, pc, rfl⟩
  · simp only [fetchInstr, h1]
    exact ⟨cause, s.regs.pc, rfl⟩

/-! ### Interrupts -/

/-- What interrupt entry keeps: what writes keep, the pending enable, the latch of the step, F and the
returned cost; IME becomes false. -/
theorem enterInterrupt_ends (i : Interrupt) (s : State) :
    Ends (enterInterrupt i s) fun t =>
      Kept s t ∧ t.ime = false ∧ t.eiPending = s.eiPending ∧ t.armed = s.armed
        ∧ t.regs.f = s.regs.f ∧ t.lastCost = s.lastCost := by
  let P : State → Prop := fun t =>
    Kept s t ∧ t.ime = false ∧ t.eiPending = s.eiPending ∧ t.armed = s.armed
      ∧ t.regs.f = s.regs.f ∧ t.lastCost = s.lastCost
  have hflat : ∀ v, Kept s (({ s with ime := false } : State).setFlat 0xFF0F v) := fun v =>
    ⟨rfl, rfl, rfl, rfl, rfl, rfl, rfl, rfl,
      fun k hk => by
        have : k ≠ 0xFF0F := by unfold Unwritten at hk; omega
        rw [State.setFlat_flatAt, if_neg this]; rfl,
      fun hs => (hs.congr rfl rfl rfl rfl rfl rfl rfl rfl rfl : State.Sound { s with ime := false }).setFlat
        (by omega) (by omega) (by omega) (fun h => absurd h (by decide))⟩
  have hw : ∀ (t : State) (a : Word) (x : Byte), P t → Ends (write8 a x t) P := by
    intro t a x ht
    refine (write8_ends a x t).mono fun u hu => ?_
    exact ⟨ht.1.trans hu.1, hu.2.ime.trans ht.2.1, hu.2.eiPending.trans ht.2.2.1,
      hu.2.armed.trans ht.2.2.2.1, (congrArg Registers.f hu.2.regs).trans ht.2.2.2.2.1,
      hu.2.lastCost.trans ht.2.2.2.2.2⟩
  have hset : ∀ (t : State) (w : Word), P t → P (t.setSp w) := fun t w ht =>
    ⟨ht.1.control _ _ _ _ _, ht.2⟩
  unfold enterInterrupt
  refine Ends.andThen (P := P) ?_ fun t ht => ?_
  · refine Ends.andThen (P := P) (hw _ _ _ (hset _ _ ⟨hflat _, rfl, rfl, rfl, rfl, rfl⟩))
      fun t ht => hw _ _ _ (hset _ _ ht)
  · split
    · exact ⟨ht.1.control _ _ _ _ _, ht.2⟩
    · exact ht

theorem dispatchInterrupts_ends (s : State) :
    Ends (dispatchInterrupts s) fun t =>
      Kept s t ∧ (t.ime = true → s.ime = true) ∧ t.eiPending = s.eiPending ∧ t.armed = s.armed
        ∧ t.regs.f = s.regs.f ∧ t.lastCost = s.lastCost := by
  unfold dispatchInterrupts
  split
  · split
    · refine (enterInterrupt_ends _ s).mono fun t ht => ⟨ht.1, fun h => ?_, ht.2.2⟩
      rw [ht.2.1] at h
      exact absurd h (by decide)
    · exact ⟨Kept.refl s, id, rfl, rfl, rfl, rfl⟩
  · exact ⟨Kept.refl s, id, rfl, rfl, rfl, rfl⟩

/-! ### The step -/

/-- A step that answers a next state: what it fetched, what it executed, what followed. -/
theorem step_next {s t : State} (h : step s = .next t) :
    s.fault = none ∧ ∃ i pc u, fetchInstr (arm s) = .ok (i, (arm s).setPc pc)
      ∧ hasHandler s.params.profile i = true
      ∧ exec i ((arm s).setPc pc) = .next u ∧ afterExecution u = .next t := by
  unfold step at h
  split at h
  · exact absurd h (by simp)
  · rename_i hf
    refine ⟨hf, ?_⟩
    have hF := fetchInstr_fetched (arm s)
    split at h
    · exact absurd h (by simp)
    · rename_i i s1 hs1
      rw [hs1] at hF
      obtain ⟨⟨pc, rfl⟩, hh⟩ := hF
      obtain ⟨u, hu, ht⟩ := andThen_eq_next.mp h
      exact ⟨i, pc, u, hs1, hh, hu, ht⟩

theorem arm_kept (s : State) (pc : Word) : Kept s ((arm s).setPc pc) :=
  (Kept.refl s).control _ _ _ _ _

theorem commitArmed_kept (s : State) : Kept s (commitArmed s) := by
  unfold commitArmed
  split
  · exact (Kept.refl s).control _ _ _ _ _
  · exact Kept.refl s

theorem commitArmed_fields (s : State) :
    (commitArmed s).armed = false ∧ (commitArmed s).regs = s.regs
      ∧ (commitArmed s).eiPending = s.eiPending ∧ (commitArmed s).lastCost = s.lastCost
      ∧ ((commitArmed s).ime = true → s.ime = true ∨ s.armed = true) := by
  unfold commitArmed
  split
  · rename_i h
    exact ⟨rfl, rfl, rfl, rfl, fun _ => .inr h⟩
  · rename_i h
    exact ⟨by simpa using h, rfl, rfl, rfl, fun h' => .inl h'⟩

/-- The state in which the interrupt dispatch of a step finds the machine. -/
def afterDevices (u : State) : State :=
  advanceGraphics u.lastCost (advanceTimers u.lastCost (commitArmed u))

theorem afterExecution_eq (u : State) : afterExecution u = dispatchInterrupts (afterDevices u) := rfl

/-- What the phases between the execution and the dispatch leave alone. -/
theorem afterDevices_frame (u : State) :
    OnlyDevices (commitArmed u) (afterDevices u)
      ∧ ∀ k, k ∉ deviceRegisters → (afterDevices u).flatAt k = (commitArmed u).flatAt k := by
  have h1 := advanceTimers_kept u.lastCost (commitArmed u)
  have h2 := advanceGraphics_frame u.lastCost (advanceTimers u.lastCost (commitArmed u))
  refine ⟨?_, fun k hk => (h2.2 k hk).trans (h1.flat k hk)⟩
  have e1 := h1.only
  have e2 := h2.1
  rw [OnlyDevices] at e1 e2 ⊢
  rw [afterDevices, e2, e1]

theorem afterDevices_sound {u : State} (h : u.Sound) : (afterDevices u).Sound := by
  have h1 := (advanceTimers_kept u.lastCost (commitArmed u)).sound ((commitArmed_kept u).sound h)
  exact (advanceGraphics_kept u.lastCost h1).sound h1

/-- Every step keeps `Sound`. -/
theorem step_sound {s t : State} (hs : s.Sound) (h : step s = .next t) : t.Sound := by
  obtain ⟨-, i, pc, u, -, -, hu, ht⟩ := step_next h
  rw [afterExecution_eq] at ht
  have k2 := (exec_kept i _).of_next hu
  exact ((dispatchInterrupts_ends _).of_next ht).1.sound
    (afterDevices_sound (k2.sound ((arm_kept s pc).sound hs)))

/-- After a step the latch of the step is not armed. -/
theorem step_unarmed {s t : State} (h : step s = .next t) : t.armed = false := by
  obtain ⟨-, i, pc, u, -, -, hu, ht⟩ := step_next h
  rw [afterExecution_eq] at ht
  have e : (afterDevices u).armed = (commitArmed u).armed := by rw [(afterDevices_frame u).1]
  exact ((dispatchInterrupts_ends _).of_next ht).2.2.2.1.trans (e.trans (commitArmed_fields u).1)

end Sys2Proof.Machine
end

