-- ==== Sys2Proof/Tests/Slice0.lean ====
section
/-!
SUPPORT. Tests.  Expected results are the vectors of `95_test_vectors.md` (their numbers are cited), or the
encodings of `30_encoding.md`.  The witnesses at the end show a state and operands that meet the hypotheses
of each statement of Sys2Proof/Certificates/Slice0/Obligations.lean.
-/

namespace Sys2Proof.Tests

open Sys2Proof.Machine

/-! ### Well-formedness: an ill-formed term for each check (`30_encoding.md` R126) -/

theorem test_illFormed_bitR : (Instr.bitR 8 .b).wellFormed = false := by decide
theorem test_illFormed_bitHl : (Instr.bitHl 8).wellFormed = false := by decide
theorem test_illFormed_resR : (Instr.resR 9 .a).wellFormed = false := by decide
theorem test_illFormed_resHl : (Instr.resHl 8).wellFormed = false := by decide
theorem test_illFormed_setR : (Instr.setR 8 .l).wellFormed = false := by decide
theorem test_illFormed_setHl : (Instr.setHl 255).wellFormed = false := by decide
theorem test_illFormed_rst : (Instr.rst 8).wellFormed = false := by decide
theorem test_wellFormed : (Instr.bitR 7 .b).wellFormed = true ∧ (Instr.rst 7).wellFormed = true := by
  decide

/-! ### Decoding: a word of every constructor, written out from `30_encoding.md` -/

/-- The bytes decode to the instruction, with nothing left. -/
def reads (bytes : List Byte) (i : Instr) : Bool :=
  match decode bytes with
  | .ok (j, []) => decide (j = i)
  | _ => false

/-- The bytes are refused by the decoder. -/
def refused (bytes : List Byte) : Bool :=
  match decode bytes with
  | .ok _ => false
  | .error _ => true

theorem test_decode_loads :
    (reads [0x00] .nop && reads [0b01000001] (.ldRR .b .c) && reads [0b01100110] (.ldRHl .h) &&
      reads [0b01110100] (.ldHlR .h) && reads [0b01110110] .ldHlHl &&
      reads [0b00111110, 0x05] (.ldRN .a 0x05) && reads [0x36, 0x7E] (.ldHlN 0x7E) &&
      reads [0x0A] .ldABc && reads [0x1A] .ldADe && reads [0x02] .ldBcA && reads [0x12] .ldDeA &&
      reads [0xFA, 0x34, 0xC2] (.ldANn 0xC234) && reads [0xEA, 0x04, 0xFF] (.ldNnA 0xFF04) &&
      reads [0b00110001, 0x00, 0xD0] (.ldRrNn .sp 0xD000) &&
      reads [0b00010001, 0x34, 0x12] (.ldRrNn .de 0x1234) &&
      reads [0x08, 0x00, 0xC1] (.ldNnSp 0xC100) && reads [0xF9] .ldSpHl) = true := by decide

theorem test_decode_arithmetic :
    (reads [0b10000000] (.addR .b) && reads [0x86] .addHl && reads [0xC6, 0x01] (.addN 0x01) &&
      reads [0b10001001] (.adcR .c) && reads [0x8E] .adcHl && reads [0xCE, 0xFF] (.adcN 0xFF) &&
      reads [0b10010111] (.subR .a) && reads [0x96] .subHl && reads [0xD6, 0x02] (.subN 0x02) &&
      reads [0b10011101] (.sbcR .l) && reads [0x9E] .sbcHl && reads [0xDE, 0x0F] (.sbcN 0x0F) &&
      reads [0b10101010] (.xorR .d) && reads [0xAE] .xorHl && reads [0xEE, 0x0F] (.xorN 0x0F)) = true := by
  decide

theorem test_decode_logic :
    (reads [0b10100011] (.andR .e) && reads [0xA6] .andHl && reads [0xE6, 0x3C] (.andN 0x3C) &&
      reads [0b10110100] (.orR .h) && reads [0xB6] .orHl && reads [0xF6, 0x81] (.orN 0x81) &&
      reads [0b10111000] (.cpR .b) && reads [0xBE] .cpHl && reads [0xFE, 0x40] (.cpN 0x40)) = true := by
  decide

theorem test_decode_increments :
    (reads [0b00101100] (.incR .l) && reads [0x34] .incHl && reads [0b00010101] (.decR .d) &&
      reads [0x35] .decHl && reads [0b00110011] (.incRr .sp) && reads [0b00001011] (.decRr .bc) &&
      reads [0b00101001] (.addHlRr .hl) && reads [0xE8, 0x80] (.addSpE 0x80) && reads [0x27] .daa &&
      reads [0x2F] .cpl && reads [0x37] .scf && reads [0x3F] .ccf && reads [0x07] .rlca &&
      reads [0x17] .rla && reads [0x0F] .rrca && reads [0x1F] .rra) = true := by decide

theorem test_decode_extLoads :
    (reads [0x22] .ldHliA && reads [0x2A] .ldAHli && reads [0x32] .ldHldA && reads [0x3A] .ldAHld &&
      reads [0xE0, 0x80] (.ldhNA 0x80) && reads [0xF0, 0x44] (.ldhAN 0x44) && reads [0xE2] .ldCA &&
      reads [0xF2] .ldAC && reads [0xF8, 0xFE] (.ldHlSpE 0xFE) && reads [0b11000101] (.push .bc) &&
      reads [0b11110101] (.push .af) && reads [0b11010001] (.pop .de) && reads [0b11110001] (.pop .af))
      = true := by decide

theorem test_decode_control :
    (reads [0xC3, 0x50, 0x01] (.jpNn 0x0150) && reads [0b11001010, 0x00, 0x02] (.jpCcNn .z 0x0200) &&
      reads [0xE9] .jpHl && reads [0x18, 0xFE] (.jrE 0xFE) && reads [0b00111000, 0x02] (.jrCcE .c 0x02) &&
      reads [0xCD, 0x34, 0x12] (.callNn 0x1234) && reads [0b11010100, 0x34, 0x12] (.callCcNn .nc 0x1234) &&
      reads [0xC9] .ret && reads [0b11000000] (.retCc .nz) && reads [0b11101111] (.rst 5) &&
      reads [0xF3] .di && reads [0xFB] .ei && reads [0xD9] .reti) = true := by decide

theorem test_decode_prefixed :
    (reads [0xCB, 0b00000000] (.rlcR .b) && reads [0xCB, 0x06] .rlcHl && reads [0xCB, 0b00001001] (.rrcR .c) &&
      reads [0xCB, 0x0E] .rrcHl && reads [0xCB, 0b00010010] (.rlR .d) && reads [0xCB, 0x16] .rlHl &&
      reads [0xCB, 0b00011011] (.rrR .e) && reads [0xCB, 0x1E] .rrHl && reads [0xCB, 0b00100100] (.slaR .h) &&
      reads [0xCB, 0x26] .slaHl && reads [0xCB, 0b00101101] (.sraR .l) && reads [0xCB, 0x2E] .sraHl &&
      reads [0xCB, 0b00110111] (.swapR .a) && reads [0xCB, 0x36] .swapHl &&
      reads [0xCB, 0b00111000] (.srlR .b) && reads [0xCB, 0x3E] .srlHl) = true := by decide

theorem test_decode_bits :
    (reads [0xCB, 0b01100101] (.bitR 4 .l) && reads [0xCB, 0b01111110] (.bitHl 7) &&
      reads [0xCB, 0b10001111] (.resR 1 .a) && reads [0xCB, 0b10010110] (.resHl 2) &&
      reads [0xCB, 0b11000001] (.setR 0 .c) && reads [0xCB, 0b11111110] (.setHl 7)) = true := by decide

/-- No handler in either profile, and words cut short (`30_encoding.md` section 4). -/
theorem test_decode_refused :
    (refused [0x10, 0x00, 0x00] && refused [0xD3, 0, 0] && refused [0xFD, 0, 0] && refused [] &&
      refused [0xCB] && refused [0x3E] && refused [0xC3, 0x50]) = true := by decide

/-- The table numbers a prefixed row `0xCB00 | op2`, any other row from its first byte. -/
theorem test_decodeTableWord :
    decodeTableWord 16 0xCB65 = some (.bitR 4 .l) ∧ decodeTableWord 8 0x41 = some (.ldRR .b .c) ∧
      decodeTableWord 24 0xC234FA = some (.ldANn 0xC234) ∧
      decodeTableWord 8 0xD3 = none := by decide

/-! ### One step or one instruction on a small state -/

/-- A machine of profile EXT after reset, with the given registers and cells of `flat`. -/
def machine (regs : Registers) (cells : List (Nat × Byte)) : State :=
  let s := { State.reset with regs := regs, params := { defaultParams with profile := .ext } }
  cells.foldl (fun t c => t.setFlat c.1 c.2) s

/-- The same with three bytes of program at 0x0100. -/
def program (regs : Registers) (cells : List (Nat × Byte)) (b0 b1 b2 : Byte) : State :=
  placeBytes (machine regs cells) b0 b1 b2

/-- The operation stops with `RomIndexOutOfRange` of the index. -/
def stopsAt (o : Out) (index : Nat) : Bool :=
  match o with
  | .fault (.romIndexOutOfRange n _) => n == index
  | _ => false

/-- The operation answers a next state with the property. -/
def next (o : Out) (p : State → Bool) : Bool :=
  match o with
  | .next t => p t
  | _ => false

/-- The registers at power-on. -/
abbrev r0 : Registers := Registers.powerOn

/-- L2 and L6: the address is taken before the register is written. -/
theorem test_ldRHl : next (exec (.ldRHl .h) (machine { r0 with h := 0xC0, l := 0x10 } [(0xC010, 0xD0)]))
    (fun t => t.regs.h == 0xD0 && t.regs.l == 0x10 && t.lastCost == 8) = true := by decide

/-- L5b: the write-back of `LD (HL),(HL)` goes through the write path. -/
theorem test_ldHlHl : next (exec .ldHlHl (machine { r0 with h := 0xFF, l := 0x04 } [(0xFF04, 0x42)]))
    (fun t => t.flatAt 0xFF04 == 0) = true := by decide

/-- L8: a store to echo RAM stores twice. -/
theorem test_ldHlN : next (exec (.ldHlN 0x7E) (machine { r0 with h := 0xE0, l := 0x00 } []))
    (fun t => t.flatAt 0xE000 == 0x7E && t.flatAt 0xC000 == 0x7E && t.lastCost == 12) = true := by decide

/-- L11: the low address byte comes first; PC is past three bytes. -/
theorem test_ldANn : next (step (program r0 [(0xC234, 0x66)] 0xFA 0x34 0xC2))
    (fun t => t.regs.a == 0x66 && t.regs.pc == 0x0103 && t.lastCost == 16) = true := by decide +kernel

/-- L15: the low byte of SP at the lower address. -/
theorem test_ldNnSp : next (exec (.ldNnSp 0xC100) (machine { r0 with sp := 0xFFF8 } []))
    (fun t => t.flatAt 0xC100 == 0xF8 && t.flatAt 0xC101 == 0xFF) = true := by decide

/-- A6: the low nibble of F is kept. -/
theorem test_addHl :
    next (exec .addHl (machine { r0 with a := 0x3A, h := 0xC0, l := 0, f := 0x0F } [(0xC000, 0xC6)]))
      (fun t => t.regs.a == 0 && t.regs.f == 0xBF) = true := by decide

/-- A7: the carry-in is folded into the operand, so H is clear. -/
theorem test_adcR : next (exec (.adcR .b) (machine { r0 with a := 0, b := 0xFF, f := 0x10 } []))
    (fun t => t.regs.a == 0 && t.regs.f == 0x90) = true := by decide

/-- S7. -/
theorem test_sbcN : next (exec (.sbcN 0x0F) (machine { r0 with a := 0, f := 0x10 } []))
    (fun t => t.regs.a == 0xF0 && t.regs.f == 0x50) = true := by decide

/-- X2. -/
theorem test_xorR : next (exec (.xorR .b) (machine { r0 with a := 0xF0, b := 0x0F, f := 0xFF } []))
    (fun t => t.regs.a == 0xFF && t.regs.f == 0x0F) = true := by decide

/-- R1: Z stays clear although A is 0. -/
theorem test_rra : next (exec .rra (machine { r0 with a := 0x01, f := 0x00 } []))
    (fun t => t.regs.a == 0 && t.regs.f == 0x10) = true := by decide

/-- R7. -/
theorem test_rrHl :
    next (exec .rrHl (machine { r0 with h := 0xC0, l := 0, f := 0x10 } [(0xC000, 0xFE)]))
      (fun t => t.flatAt 0xC000 == 0xFF && t.regs.f == 0x00 && t.lastCost == 16) = true := by decide

/-- B2: C is kept. -/
theorem test_bitR : next (exec (.bitR 7 .a) (machine { r0 with a := 0x7F, f := 0x10 } []))
    (fun t => t.regs.f == 0xB0) = true := by decide

/-- E2: HL wraps. -/
theorem test_ldAHld : next (exec .ldAHld (machine { r0 with h := 0, l := 0 } []))
    (fun t => t.regs.hl == 0xFFFF) = true := by decide

/-- E8. -/
theorem test_push : next (exec (.push .af) (machine { r0 with a := 0xAB, f := 0xCD } []))
    (fun t => t.flatAt 0xFFFD == 0xAB && t.flatAt 0xFFFC == 0xCD && t.regs.sp == 0xFFFC) = true := by decide

/-- E9: F is not masked. -/
theorem test_pop :
    next (exec (.pop .af) (machine { r0 with sp := 0xC000 } [(0xC000, 0x0F), (0xC001, 0x12)]))
      (fun t => t.regs.a == 0x12 && t.regs.f == 0x0F && t.regs.sp == 0xC002) = true := by decide

/-- E12 and E13: the flags come from the unsigned low-byte addition. -/
theorem test_ldHlSpE : next (exec (.ldHlSpE 0x01) (machine { r0 with sp := 0x00FF, f := 0 } []))
    (fun t => t.regs.hl == 0x0100 && t.regs.f == 0x30) = true := by decide

theorem test_addSpE : next (exec (.addSpE 0x80) (machine { r0 with sp := 0xC080, f := 0 } []))
    (fun t => t.regs.sp == 0xC000 && t.regs.f == 0x10) = true := by decide

/-- U6: the write path discards the value, the flags are those of the value computed. -/
theorem test_decHl :
    next (exec .decHl (machine { r0 with h := 0xFF, l := 0x04, f := 0 } [(0xFF04, 0x10)]))
      (fun t => t.flatAt 0xFF04 == 0 && t.regs.f == 0x60) = true := by decide

/-- U20 and U22. -/
theorem test_daa_add : next (exec .daa (machine { r0 with a := 0x9A, f := 0x00 } []))
    (fun t => t.regs.a == 0 && t.regs.f == 0x90) = true := by decide

theorem test_daa_subtract : next (exec .daa (machine { r0 with a := 0x00, f := 0x50 } []))
    (fun t => t.regs.a == 0xA0 && t.regs.f == 0x50) = true := by decide

/-- U9: Z is kept. -/
theorem test_addHlRr :
    next (exec (.addHlRr .bc) (machine { r0 with h := 0x0F, l := 0xFF, b := 0, c := 1, f := 0x80 } []))
      (fun t => t.regs.hl == 0x1000 && t.regs.f == 0xA0) = true := by decide

/-- J7 and J8. -/
theorem test_jrCcE_taken : next (step (program { r0 with f := 0x00 } [] 0x20 0xFA 0x00))
    (fun t => t.regs.pc == 0x00FC && t.lastCost == 12) = true := by decide +kernel

theorem test_jrCcE_notTaken : next (step (program { r0 with f := 0x80 } [] 0x20 0xFA 0x00))
    (fun t => t.regs.pc == 0x0102 && t.lastCost == 8) = true := by decide +kernel

/-- J10. -/
theorem test_callNn : next (step (program r0 [] 0xCD 0x34 0x12))
    (fun t => t.flatAt 0xFFFD == 0x01 && t.flatAt 0xFFFC == 0x03 && t.regs.sp == 0xFFFC &&
      t.regs.pc == 0x1234) = true := by decide +kernel

/-- J16. -/
theorem test_reti :
    next (exec .reti (machine { r0 with sp := 0xC000 } [(0xC000, 0x03), (0xC001, 0x01)]))
      (fun t => t.regs.pc == 0x0103 && t.regs.sp == 0xC002 && t.ime) = true := by decide

/-- The second step of J22, its `INC A` at 0x0100: the dispatch comes after the delayed enable. -/
theorem test_dispatch_afterEnable :
    next (step { program r0 [(0xFF0F, 0x04), (0xFFFF, 0x04)] 0x3C 0x00 0x00 with eiPending := true })
      (fun t => t.regs.a == 0x02 && t.regs.pc == 0x0050 && t.flatAt 0xFFFD == 0x01 &&
        t.flatAt 0xFFFC == 0x01 && t.flatAt 0xFF0F == 0 && !t.ime) = true := by decide +kernel

/-- In profile BASE an opcode of the EXT families is unsupported, with PC past it (R154). -/
theorem test_unsupported :
    (match step { program r0 [] 0x27 0x00 0x00 with params := defaultParams } with
      | .fault (.unsupportedOpcode code t) => code == 0x0027 && t.regs.pc == 0x0101
      | _ => false) = true := by decide +kernel

/-! ### Reset, and placing an instruction -/

theorem test_reset_memories :
    Memory.wf flatInitial State.reset.flat = true ∧ Memory.wf zeroInitial State.reset.screen = true ∧
      Memory.wf zeroInitial State.reset.ramBanks = true := by decide

/-- R55: the peripheral registers at reset. -/
theorem test_reset_peripherals :
    State.reset.flatAt 0xFF40 = 0x91 ∧ State.reset.flatAt 0xFF47 = 0xFC ∧
      State.reset.flatAt 0xFF26 = 0xF1 ∧ State.reset.flatAt 0xFFFF = 0 := by decide

theorem test_withFetchWord :
    next (step (State.reset.withFetchWord 16 0xCB37))
      (fun t => t.regs.a == 0x10 && t.regs.pc == 0x0102) = true := by decide +kernel

/-! ### Witnesses: a state and operands that meet the hypotheses of each statement -/

/-- A machine of profile BASE after reset. -/
abbrev base : State := State.reset

/-- A machine of profile EXT after reset, HL and SP in work RAM. -/
abbrev ext : State := machine { r0 with h := 0xC0, l := 0x00, sp := 0xD000 } []

/-- A machine whose image ends at 0x4000, so that the switchable window lies beyond it; HL, BC, DE, SP and PC
point into the window. -/
abbrev cutShort : State :=
  { ext with
    cartridgeRom := { length := 0x4000, cells := [] }
    regs := { r0 with h := 0x40, l := 0x00, b := 0x50, d := 0x60, sp := 0x7FFF, pc := 0x4000 } }

/-- The same with SP on the last byte below the window, so that only the second pop byte is beyond it. -/
abbrev cutShortSecond : State := { cutShort with regs := { cutShort.regs with sp := 0x3FFF } }

/-- The same machine with a bank controller. -/
abbrev withMode (m : BankingMode) : State := { ext with bankingMode := m }

/-- The machine with a fault latched. -/
abbrev stopped (c : FaultCause) : State := { base with fault := some c }

/-- Whether a read gives the byte, or the index beyond the image. -/
def readIs (s : State) (a : Word) (r : Nat ⊕ Byte) : Bool :=
  match read8 s a, r with
  | .ok x, .inr v => x == v
  | .error x, .inl index => x == index
  | _, _ => false

theorem read8_ok_of {s : State} {a : Word} {v : Byte} (h : readIs s a (.inr v) = true) :
    read8 s a = .ok v := by
  unfold readIs at h
  split at h <;> simp_all

theorem read8_error_of {s : State} {a : Word} {index : Nat} (h : readIs s a (.inl index) = true) :
    read8 s a = .error index := by
  unfold readIs at h
  split at h <;> simp_all

theorem witness_DecodeOfEncode : (Instr.bitR 7 .a).WellFormed ∧ (Instr.rst 0).WellFormed := by decide

theorem witness_OneSpellingPerInstruction :
    decode [0xCB, 0x37] = .ok (.swapR .a, []) ∧ decode [0x00, 0xFF] = .ok (.nop, [0xFF]) ∧
      decode [0xC3, 0x50, 0x01] = .ok (.jpNn 0x0150, []) := ⟨rfl, rfl, rfl⟩

theorem witness_TwelveBytesHaveNoHandler :
    (0xFD : Byte) ∈ ([0x10, 0xD3, 0xDB, 0xDD, 0xE3, 0xE4, 0xEB, 0xEC, 0xED, 0xF4, 0xFC, 0xFD] : List Byte) ∧
      (0xCB : Byte) ∉
        ([0x10, 0xD3, 0xDB, 0xDD, 0xE3, 0xE4, 0xEB, 0xEC, 0xED, 0xF4, 0xFC, 0xFD] : List Byte) := by
  decide

theorem witness_StepRunsDecodedInstruction :
    (program r0 [] 0xCB 0x37 0x00).fault = none ∧ decode [0xCB, 0x37] = .ok (.swapR .a, []) ∧
      BytesAtPc (program r0 [] 0xCB 0x37 0x00) [0xCB, 0x37] ∧
      hasHandler (program r0 [] 0xCB 0x37 0x00).params.profile (.swapR .a) = true := by
  refine ⟨rfl, rfl, fun k v h => ?_, rfl⟩
  match k, h with
  | 0, h => cases h; rfl
  | 1, h => cases h; rfl

theorem witness_NopOnlyAdvancesPc :
    base.fault = none ∧ base.eiPending = false ∧ base.armed = false ∧
      read8 base base.regs.pc = .ok 0x00 := ⟨rfl, rfl, rfl, rfl⟩

/-- An opcode with no handler in either profile, one of profile EXT and a prefixed one, in profile BASE. -/
theorem witness_UnsupportedOpcodeStops :
    (∀ i rest, decode [(0xD3 : Byte), 0, 0] = .ok (i, rest) → hasHandler base.params.profile i = false) ∧
      (∀ i rest, decode [(0x27 : Byte), 0, 0] = .ok (i, rest) → hasHandler base.params.profile i = false) ∧
      (∀ i rest, decode [0xCB, (0x37 : Byte)] = .ok (i, rest) →
        hasHandler base.params.profile i = false) ∧
      read8 (placeBytes base 0x27 0 0) 0x0100 = .ok 0x27 ∧
      read8 (placeBytes base 0xCB 0x37 0) 0x0100 = .ok 0xCB ∧
      read8 (placeBytes base 0xCB 0x37 0) (0x0100 + 1) = .ok 0x37 := by
  refine ⟨fun i rest h => ?_, fun i rest h => ?_, fun i rest h => ?_, rfl, rfl, rfl⟩
  · have e : decode [(0xD3 : Byte), 0, 0] = .error (.unsupportedOpcode 0xD3) := rfl
    rw [e] at h
    cases h
  · have e : decode [(0x27 : Byte), 0, 0] = .ok (.daa, [0, 0]) := rfl
    rw [e] at h
    cases h
    rfl
  · have e : decode [0xCB, (0x37 : Byte)] = .ok (.swapR .a, []) := rfl
    rw [e] at h
    cases h
    rfl

theorem witness_LatchedFaultIsFinal :
    (stopped (.unsupportedOpcode 0xD3)).fault = some (.unsupportedOpcode 0xD3) ∧
      (stopped (.romIndexOutOfRange 0x8000)).fault = some (.romIndexOutOfRange 0x8000) ∧ 7 < 8 := by decide

/-- An image of the shortest length that has a kind byte, holding the given one. -/
abbrev imageOfKind (v : Byte) : Image := { length := 0x148, cells := if v = 0 then [] else [(0x147, v)] }

/-- Every kind of image, one too short to have a kind, bootstrap bytes up to the restricted range. -/
theorem witness_ConstructionMeetsInv :
    ((imageOfKind 1).byteAt 0x147).toNat ∈ [1, 2, 3] ∧ ((imageOfKind 3).byteAt 0x147).toNat ∈ [1, 2, 3] ∧
      ((imageOfKind 5).byteAt 0x147).toNat ∈ [5, 6] ∧ ((imageOfKind 6).byteAt 0x147).toNat ∈ [5, 6] ∧
      ((imageOfKind 4).byteAt 0x147).toNat ∉ [1, 2, 3, 5, 6] ∧ ¬ (imageOfKind 0).length < 0x148 ∧
      (Image.ofBytes [0x01, 0x00, 0x02]).length < 0x148 ∧
      Memory.wf zeroInitial (Image.ofBytes [0x01, 0x00, 0x02]).cells = true ∧
      (List.replicate 0xFEA0 (0x00 : Byte)).length ≤ 0xFEA0 :=
  ⟨by decide, by decide, by decide, by decide, by decide, by decide, by decide, by decide,
    (List.length_replicate ..).le⟩

/-- Byte 0x147 at each end of each kind's range (R80), and the overlay of two bytes with the I/O bytes 0x00
(R58). -/
theorem test_construct :
    (imageOfKind 0).kind = .none ∧ (imageOfKind 1).kind = .mbc1 ∧ (imageOfKind 3).kind = .mbc1 ∧
      (imageOfKind 4).kind = .none ∧ (imageOfKind 5).kind = .mbc2 ∧ (imageOfKind 6).kind = .mbc2 ∧
      (imageOfKind 7).kind = .none ∧
      (let s := State.construct (Image.ofBytes [0x01, 0x02, 0x03]) (some [0x31, 0xFE]) defaultParams
       s.flatAt 0 = 0x31 ∧ s.flatAt 1 = 0xFE ∧ s.flatAt 2 = 0x03 ∧ s.flatAt 0xFF40 = 0x00) := by
  decide +kernel

/-- A frame budget of four cycles, one `NOP`. -/
abbrev shortFrame : Config.Params := { defaultParams with frameBudget := ⟨4, by decide⟩ }

/-- A running machine of profile EXT meets the invariant, and its step answers a next state, as do the key
calls and the frame loop. -/
theorem witness_StepKeepsInv :
    ext.Inv ∧ next (step ext) (fun t => t.regs.pc == 0x0101) = true ∧
      next (keyPressed 7 ext) (fun t => t.joypadState == 0x7F) = true ∧
      next (keyReleased 0 ext) (fun _ => true) = true ∧
      next (runFrame { ext with params := shortFrame }) (fun _ => true) = true := by
  refine ⟨⟨⟨⟨by decide, by decide, by decide, by decide, by decide, by decide, by decide⟩,
    ⟨by decide, by decide⟩, ⟨by decide, by decide, by decide, by decide⟩,
    ⟨by decide, fun k h1 h2 => ?_⟩⟩, by decide⟩, by decide +kernel, by decide +kernel, by decide +kernel,
    by decide +kernel⟩
  show flatInitial k = 0
  unfold flatInitial
  split <;> first | omega | rfl

theorem witness_StepKeepsConstruction : next (step base) (fun _ => true) = true := by decide +kernel

theorem witness_BaseKeepsLowNibbleAndIme :
    base.params.profile = .base ∧ base.eiPending = false ∧ next (step base) (fun _ => true) = true := by
  decide +kernel

theorem witness_OnlyControlInstructionsChangeEnables :
    Instr.daa ≠ .di ∧ Instr.daa ≠ .ei ∧ Instr.daa ≠ .reti ∧ next (exec .daa ext) (fun _ => true) = true := by decide

theorem witness_CompositeViewsRoundTrip : (Reg8.a : Reg8) ≠ .b := by decide

/-- Addresses at the ends of the readable areas, for every address register. -/
theorem witness_MemoryLoads :
    read8 ext ext.regs.hl = .ok 0x00 ∧ read8 ext ext.regs.bc = .ok 0x00 ∧
      read8 ext ext.regs.de = .ok 0x00 ∧ read8 ext 0x7FFF = .ok 0x00 ∧ read8 ext 0xFF40 = .ok 0x91 ∧
      read8 ext (0xFF00 + (0x00FF : Word)) = .ok 0x00 ∧
      read8 ext (0xFF00 + ext.regs.c.setWidth 16) = .ok 0x00 := by
  refine ⟨?_, ?_, ?_, ?_, ?_, ?_, ?_⟩ <;> exact read8_ok_of (by decide +kernel)

/-- A store at the two neighbours of 0xFF46, and one there whose copy completes and one whose copy stops. -/
theorem witness_StoringLoads :
    (0xFF45 : Word).toNat ≠ 0xFF46 ∧ (0xFF47 : Word).toNat ≠ 0xFF46 ∧ (0xFF46 : Word).toNat = 0xFF46 ∧
      next (dmaTransfer 0xC0 ext) (fun _ => true) = true ∧
      stopsAt (dmaTransfer 0x40 cutShort) 0x4000 = true ∧
      ¬ storeReaches 0xC000 0xC001 ∧ ¬ storeReaches 0x2000 0x8000 := by
  refine ⟨by decide, by decide, by decide, by decide +kernel, by decide +kernel, ?_, ?_⟩
  · unfold storeReaches; decide
  · unfold storeReaches; decide

/-- Two plain bytes, the first byte on 0xFF46 and the second byte there, from a page beyond the image. -/
theorem witness_StackPointerStore :
    (0xF8 : Byte).toNat = (0xFFF8 : Word).toNat % 256 ∧ (0xFF : Byte).toNat = (0xFFF8 : Word).toNat / 256 ∧
      next (write8 0xC100 0xF8 ext) (fun u => next (write8 (0xC100 + 1) 0xFF u) (fun _ => true)) = true ∧
      (0xFF47 : Word).toNat ≠ 0xFF46 ∧ ((0xFF47 : Word) + 1).toNat ≠ 0xFF46 ∧
      (0x40 : Byte).toNat = (0x4040 : Word).toNat % 256 ∧ (0x40 : Byte).toNat = (0x4040 : Word).toNat / 256 ∧
      stopsAt (write8 0xFF46 0x40 cutShort) 0x4000 = true ∧
      (match write8 0xFF45 0x40 cutShort with
        | .next u => stopsAt (write8 (0xFF45 + 1) 0x40 u) 0x4000
        | _ => false) = true := by decide +kernel

/-- The operand forms of the 8-bit instructions, register and memory. -/
theorem witness_AddAndAddWithCarry :
    ext.regs.get .c = 0x13 ∧ read8 ext ext.regs.hl = .ok 0x00 ∧
      (0x100 : Nat) = (0xFF : Byte).toNat + (if true then 1 else 0) := ⟨rfl, rfl, rfl⟩

theorem witness_SubtractAndCompare :
    ext.regs.get .a = 0x01 ∧ read8 ext ext.regs.hl = .ok 0x00 ∧
      (0xFF : Nat) = (0xFF : Byte).toNat + (if false then 1 else 0) := ⟨rfl, rfl, rfl⟩

theorem witness_BitwiseLogic : ext.regs.get .l = 0x00 ∧ read8 ext ext.regs.hl = .ok 0x00 := ⟨rfl, rfl⟩

theorem witness_IncrementDecrementByte :
    ext.regs.get .b = 0x00 ∧ read8 ext ext.regs.hl = .ok 0x00 := ⟨rfl, rfl⟩

/-- A displacement of -128 below address 0: the target wraps. -/
theorem witness_StackPointerOffset :
    (((0xFF81 : Word).toInt - (0x0001 : Word).toInt - (0x80 : Byte).toInt) % 65536 = 0) := by decide

theorem witness_DecimalAdjust :
    ((0x9A : Nat) + 0x60 + 0x06 = 0x100) ∧ ((0xA0 : Nat) + 0x60 + 0 = 0x00 + 256) ∧
      ({ ext.regs with f := 0x50 } : Registers).f.getLsbD 6 = true ∧ ext.regs.f.getLsbD 6 = false := by
  decide

theorem witness_AccumulatorRotatesAndComplements :
    (1 : Nat) = ext.regs.a.toNat ∧ (1 : Nat) = (if ext.regs.f.getLsbD 4 then 1 else 0) := by decide

theorem witness_RotatesAndShifts :
    (0 : Nat) = (0x00 : Byte).toNat ∧ (1 : Nat) = (if ext.regs.f.getLsbD 4 then 1 else 0) ∧
      ext.regs.get .b = 0x00 ∧ read8 ext ext.regs.hl = .ok 0x00 := ⟨rfl, rfl, rfl, rfl⟩

/-- Bit 7 of 0x80, the highest bit number. -/
theorem witness_BitOperations :
    (7 < 8) ∧
      (∀ k, k < 8 → (0x00 : Byte).getLsbD k = ((0x80 : Byte).getLsbD k && decide (k ≠ 7))) ∧
      (∀ k, k < 8 → (0x80 : Byte).getLsbD k = ((0x80 : Byte).getLsbD k || decide (k = 7))) ∧
      (machine { r0 with d := 0x80, h := 0xC0, l := 0x00 } [(0xC000, 0x80)]).regs.get .d = 0x80 ∧
      read8 (machine { r0 with d := 0x80, h := 0xC0, l := 0x00 } [(0xC000, 0x80)]) 0xC000 = .ok 0x80 :=
  ⟨by decide, by decide, by decide, rfl, rfl⟩

theorem witness_Jumps :
    ((0x0080 : Word).toInt - (0x0100 : Word).toInt - (0x80 : Byte).toInt) % 65536 = 0 ∧
      CondHolds 0x80 .z ∧ ¬ CondHolds 0x80 .nz ∧ CondHolds 0x00 .nc ∧ ¬ CondHolds 0x00 .c := by
  refine ⟨by decide, ?_, ?_, ?_, ?_⟩ <;> simp only [CondHolds] <;> decide

/-- Where both bytes of a pushed word are a page beyond the image, the push stops on its first byte with SP
0xFF47 and on its second with SP 0xFF48. -/
theorem witness_PushStops :
    (∃ f, PushStops { cutShort with regs := { cutShort.regs with sp := 0xFF47 } } 0x4040 f) ∧
      ∃ f, PushStops { cutShort with regs := { cutShort.regs with sp := 0xFF48 } } 0x4040 f := by
  have key (o : Out) (h : stopsAt o 0x4000 = true) : ∃ f, o = .fault f := by
    cases o with
    | fault f => exact ⟨f, rfl⟩
    | next s => cases h
    | refused r => cases h
  constructor
  · obtain ⟨f, h⟩ := key (write8 (0xFF47 - 1) (hiByte 0x4040)
      { cutShort with regs := { cutShort.regs with sp := 0xFF47 - 1 } }) (by decide +kernel)
    exact ⟨f, Or.inl h⟩
  · obtain ⟨f, h⟩ := key (write8 (0xFF48 - 2) (loByte 0x4040)
      { storeByte { cutShort with regs := { cutShort.regs with sp := 0xFF48 - 1 } } 0xFF47 0x40 with
        regs := { cutShort.regs with sp := 0xFF48 - 2 } }) (by decide +kernel)
    exact ⟨f, Or.inr ⟨_, rfl, h⟩⟩

/-- A stack in work RAM, one whose low byte lies just above 0xFF46, and the two pushes that stop, of a return
address. -/
theorem witness_CallsAndRestarts :
    (ext.regs.sp - 1).toNat ≠ 0xFF46 ∧ (ext.regs.sp - 2).toNat ≠ 0xFF46 ∧
      ((0xFF49 : Word) - 2).toNat ≠ 0xFF46 ∧ 7 < 8 ∧
      (let s : State := { cutShort with regs := { cutShort.regs with sp := 0xFF47, pc := 0x4040 } }
       ∃ f, PushStops s s.regs.pc f) ∧
      CondHolds 0x10 .c ∧ ¬ CondHolds 0x10 .nc := by
  refine ⟨by decide, by decide, by decide, by decide, ?_, ?_, ?_⟩
  · exact ⟨_, Or.inl rfl⟩
  all_goals
    simp only [CondHolds]
    decide

theorem witness_Returns :
    read8 ext ext.regs.sp = .ok 0x00 ∧ read8 ext (ext.regs.sp + 1) = .ok 0x00 ∧
      (0x0000 : Word).toNat = (0x00 : Byte).toNat * 256 + (0x00 : Byte).toNat ∧
      CondHolds ext.regs.f .z ∧ ¬ CondHolds ext.regs.f .nz := by
  refine ⟨rfl, rfl, rfl, ?_, ?_⟩ <;> simp only [CondHolds] <;> decide

/-- SP on the last address: the second byte is the first of the address space. -/
theorem witness_PushAndPop :
    read8 { ext with regs := { ext.regs with sp := 0xFFFF } } 0xFFFF = .ok 0x00 ∧
      read8 { ext with regs := { ext.regs with sp := 0xFFFF } } (0xFFFF + 1) = .ok 0x00 ∧
      (0x0000 : Word).toNat = (0x00 : Byte).toNat * 256 + (0x00 : Byte).toNat := ⟨rfl, rfl, rfl⟩

theorem witness_PopUndoesPush :
    0xC002 ≤ (0xC002 : Word).toNat ∧ (0xE000 : Word).toNat ≤ 0xE000 := by decide

/-- An enable pending before `NOP`, and `EI` with none pending. -/
theorem witness_EnableIsDelayedByOneInstruction :
    decode [0x00] = .ok (.nop, []) ∧ decode [0xFB] = .ok (.ei, []) ∧ decode [0xF3] = .ok (.di, []) ∧
      read8 (program r0 [] 0xFB 0 0) 0x0100 = .ok 0xFB ∧
      read8 (program r0 [] 0xF3 0 0) 0x0100 = .ok 0xF3 ∧
      hasHandler (program r0 [] 0xFB 0 0).params.profile .ei = true ∧
      ({ program r0 [] 0x00 0 0 with eiPending := true } : State).eiPending = true ∧
      (program r0 [] 0xFB 0 0).eiPending = false := ⟨rfl, rfl, rfl, rfl, rfl, rfl, rfl, rfl⟩

/-- The ends of each region, and an index on each side of the image's end. -/
theorem witness_ReadPathByRegion :
    (0x4000 ≤ (0x4000 : Word).toNat ∧ (0x7FFF : Word).toNat ≤ 0x7FFF) ∧
      0x7FFF - 0x4000 + base.currentRomBank.toNat * 0x4000 < base.cartridgeRom.length ∧
      cutShort.cartridgeRom.length ≤ 0x4000 - 0x4000 + cutShort.currentRomBank.toNat * 0x4000 ∧
      (0xA000 ≤ (0xA000 : Word).toNat ∧ (0xBFFF : Word).toNat ≤ 0xBFFF) ∧
      (0x3FFF : Word).toNat < 0x4000 ∧ (0x8000 ≤ (0x8000 : Word).toNat ∧ (0x9FFF : Word).toNat ≤ 0x9FFF) ∧
      (0xC000 ≤ (0xC000 : Word).toNat ∧ (0xFFFF : Word).toNat ≠ 0xFF00) ∧ (0xFF00 : Word).toNat = 0xFF00 := by
  decide

/-- The machine whose image ends at 0x4000 with PC at the end of bank 0 and the given bytes there. -/
abbrev atEnd (pc : Word) (b0 b1 : Byte) : State :=
  { (cutShort.setFlat 0x3FFE b0).setFlat 0x3FFF b1 with regs := { cutShort.regs with pc := pc } }

/-- Every read beyond the image, the fetch of an opcode, of the byte after the prefix, of the operand of
`LD A,n` and of the second operand byte of `JP nn` among them. -/
theorem witness_ReadBeyondImageStops :
    read8 cutShort cutShort.regs.hl = .error 0x4000 ∧ read8 cutShort cutShort.regs.bc = .error 0x5013 ∧
      read8 cutShort cutShort.regs.de = .error 0x60D8 ∧ read8 cutShort 0x7FFF = .error 0x7FFF ∧
      read8 cutShort cutShort.regs.sp = .error 0x7FFF ∧
      read8 cutShortSecond cutShortSecond.regs.sp = .ok 0x00 ∧
      read8 cutShortSecond (cutShortSecond.regs.sp + 1) = .error 0x4000 ∧
      read8 cutShort cutShort.regs.pc = .error 0x4000 ∧
      read8 (atEnd 0x3FFF 0 0xCB) 0x3FFF = .ok 0xCB ∧
      read8 (atEnd 0x3FFF 0 0xCB) (0x3FFF + 1) = .error 0x4000 ∧
      read8 (atEnd 0x3FFF 0 0x3E) 0x3FFF = .ok 0x3E ∧
      read8 (atEnd 0x3FFF 0 0x3E) (0x3FFF + 1) = .error 0x4000 ∧
      read8 (atEnd 0x3FFE 0xC3 0x50) 0x3FFE = .ok 0xC3 ∧
      read8 (atEnd 0x3FFE 0xC3 0x50) (0x3FFE + 1) = .ok 0x50 ∧
      read8 (atEnd 0x3FFE 0xC3 0x50) (0x3FFE + 2) = .error 0x4000 ∧
      decode [0x3E, 0, 0] = .ok (.ldRN .a 0, [0]) ∧ decode [0xC3, 0, 0] = .ok (.jpNn 0, []) ∧
      hasHandler cutShort.params.profile (.jpNn 0) = true ∧ cutShort.fault = none ∧
      CondHolds cutShort.regs.f .z ∧ CondHolds cutShortSecond.regs.f .z := by
  refine ⟨?_, ?_, ?_, ?_, ?_, ?_, ?_, ?_, ?_, ?_, ?_, ?_, ?_, ?_, ?_, rfl, rfl, rfl, rfl, ?_, ?_⟩ <;>
    first | exact read8_ok_of (by decide +kernel) | exact read8_error_of (by decide +kernel) | rfl

/-- The first and the last address of the write path's upper half, and the neighbours of 0xFF46. -/
theorem witness_WritePathByRegion :
    0x8000 ≤ (0x8000 : Word).toNat ∧ 0x8000 ≤ (0xFFFF : Word).toNat ∧ (0x8000 : Word).toNat ≠ 0xFF46 ∧
      (0xFF45 : Word).toNat ≠ 0xFF46 ∧ (0xFF47 : Word).toNat ≠ 0xFF46 := by decide

theorem witness_EchoDividerAndLineWrites :
    (0xE000 ≤ (0xE000 : Word).toNat ∧ (0xFDFF : Word).toNat < 0xFE00) ∧
      (0xFE00 ≤ (0xFE00 : Word).toNat ∧ (0xFE9F : Word).toNat < 0xFEA0) ∧
      (0xC000 ≤ (0xC000 : Word).toNat ∧ (0xDDFF : Word).toNat ≤ 0xDDFF) ∧
      (0xFF04 : Word).toNat = 0xFF04 ∧ (0xFF44 : Word).toNat = 0xFF44 := by decide

theorem witness_WritesNeverStoreBelowVideoRam :
    (0x7FFF : Word).toNat < 0x8000 ∧ next (write8 0x7FFF 0xFF ext) (fun _ => true) = true := by
  decide +kernel

theorem witness_BankNumberWrites :
    (withMode .none).bankingMode = .none ∧ (0x7FFF : Word).toNat < 0x8000 ∧
      (withMode .mbc2).bankingMode = .mbc2 ∧ (withMode .mbc1).bankingMode = .mbc1 ∧
      (0x2000 ≤ (0x2000 : Word).toNat ∧ (0x3FFF : Word).toNat ≤ 0x3FFF) ∧
      (0x4000 ≤ (0x4000 : Word).toNat ∧ (0x5FFF : Word).toNat ≤ 0x5FFF) ∧
      (withMode .mbc1).romBankingSelect = true ∧
      ({ withMode .mbc1 with romBankingSelect := false } : State).romBankingSelect = false := by decide

theorem witness_RamEnableAndModeSelect :
    (withMode .mbc1).bankingMode = .mbc1 ∧ (withMode .mbc2).bankingMode = .mbc2 ∧
      (0x1FFF : Word).toNat < 0x2000 ∧ (0x0010 : Word).toNat / 16 % 2 = 1 ∧
      (0x000F : Word).toNat / 16 % 2 = 0 ∧ (0x6000 ≤ (0x6000 : Word).toNat ∧ (0x7FFF : Word).toNat ≤ 0x7FFF) ∧
      (0xFE : Byte).getLsbD 0 = (withMode .mbc1).params.modeBitRomValue ∧
      (0x01 : Byte).getLsbD 0 ≠ (withMode .mbc1).params.modeBitRomValue := by decide

theorem witness_RomBankIsNeverZero :
    (withMode .mbc1).currentRomBank ≠ 0 ∧
      next (write8 0x2000 0x02 (withMode .mbc1))
        (fun t => t.currentRomBank != (withMode .mbc1).currentRomBank) = true := by decide +kernel

/-- A page whose 0xA0 bytes can all be read, and one whose first byte cannot. -/
theorem witness_DmaCopiesOnePage :
    (∀ i, i < 0xA0 → read8 ext (BitVec.ofNat 16 ((0xC0 : Byte).toNat * 256 + i)) = .ok 0x00) ∧
      (∀ i, i < 0 → read8 cutShort (BitVec.ofNat 16 ((0x40 : Byte).toNat * 256 + i)) = .ok 0x00) ∧
      read8 cutShort (BitVec.ofNat 16 ((0x40 : Byte).toNat * 256 + 0)) = .error 0x4000 := by
  refine ⟨fun i hi => ?_, fun i hi => absurd hi (by omega), read8_error_of (by decide +kernel)⟩
  have e : (BitVec.ofNat 16 ((0xC0 : Byte).toNat * 256 + i)).toNat = 0xC000 + i := by
    simp
    omega
  unfold read8
  rw [e, if_neg (by omega), if_neg (by omega), if_neg (by omega)]
  show Except.ok (flatInitial (0xC000 + i)) = _
  unfold flatInitial
  split <;> first | omega | rfl

theorem witness_RequestSetsItsBit :
    ((machine r0 [(0xFF0F, 0x04)]).flatAt 0xFF0F).getLsbD Interrupt.timer.index = true := by decide

/-- A machine with IME true, the given IF, and every bit of IE set. -/
abbrev requested (v : Byte) : State := { machine r0 [(0xFF0F, v), (0xFFFF, 0xFF)] with ime := true }

/-- IME false; IME true with no source, and with each source as the lowest. -/
theorem witness_DispatchEntersLowestIndex :
    ext.ime = false ∧ (requested 0xE0).ime = true ∧
      (∀ n, n < 5 → ¬ (((requested 0xE0).flatAt 0xFF0F).getLsbD n = true)) ∧
      ((requested 0x1F).flatAt 0xFFFF).toNat = 0xFF ∧
      ((requested 0x1F).flatAt 0xFF0F).getLsbD 0 = true ∧
      ((requested 0x1E).flatAt 0xFF0F).getLsbD 0 = false ∧
      ((requested 0x1E).flatAt 0xFF0F).getLsbD 1 = true ∧
      ((requested 0x1C).flatAt 0xFF0F).getLsbD 1 = false ∧
      ((requested 0x1C).flatAt 0xFF0F).getLsbD 2 = true ∧
      ((requested 0x18).flatAt 0xFF0F).getLsbD 2 = false ∧
      ((requested 0x18).flatAt 0xFF0F).getLsbD 3 = true ∧
      ((requested 0x10).flatAt 0xFF0F).getLsbD 3 = false ∧
      ((requested 0x10).flatAt 0xFF0F).getLsbD 4 = true := by decide

/-- Every source, from IF with all eight bits set; an entry whose push stops. -/
theorem witness_EntrySavesPcAndJumps :
    (∀ j, j < 8 → (0xEF : Byte).getLsbD j
      = (((machine r0 [(0xFF0F, 0xFF)]).flatAt 0xFF0F).getLsbD j && decide (j ≠ 4))) ∧
    (let s : State := { cutShort with regs := { cutShort.regs with sp := 0xFF47, pc := 0x4040 } }
     ∃ f, PushStops ({ s with ime := false }.setFlat 0xFF0F 0x00) s.regs.pc f) :=
  ⟨by decide, _, Or.inl rfl⟩

theorem witness_DividerAdvance :
    base.dividerCounter + (254 : Nat) < 255 ∧ 255 ≤ base.dividerCounter + (255 : Nat) := by decide

theorem witness_MainTimerAdvance :
    (base.flatAt 0xFF07).getLsbD 2 = false ∧ ((machine r0 [(0xFF07, 0x05)]).flatAt 0xFF07).getLsbD 2 = true ∧
      0 < base.timerCounter - (1023 : Nat) ∧ base.timerCounter - (1024 : Nat) ≤ 0 ∧
      (machine r0 [(0xFF05, 0xFF)]).flatAt 0xFF05 = 255 ∧ base.flatAt 0xFF05 ≠ 255 := by decide

/-- LCD off; LCD on at a counter that has one cycle left. -/
theorem witness_StatFollowsLineAndCounter :
    ((machine r0 [(0xFF40, 0x11)]).flatAt 0xFF40).getLsbD 7 = false ∧ (base.flatAt 0xFF40).getLsbD 7 = true ∧
      0 < base.scanlineCounter - (455 : Nat) ∧
      (2 : Nat) = (if 144 ≤ (base.flatAt 0xFF44).toNat then 1 else if 376 ≤ base.scanlineCounter then 2
        else if 204 ≤ base.scanlineCounter then 3 else 0) ∧
      true = decide (base.flatAt 0xFF44 = base.flatAt 0xFF45) := by decide

/-- The counter exactly run out; the lines on each side of the screen's end and of the wrap. -/
theorem witness_LineAdvance :
    (base.flatAt 0xFF40).getLsbD 7 = true ∧ base.scanlineCounter - (456 : Nat) ≤ 0 ∧
      (142 : Nat) = ((machine r0 [(0xFF44, 142)]).flatAt 0xFF44).toNat ∧
      (143 : Nat) = ((machine r0 [(0xFF44, 143)]).flatAt 0xFF44).toNat ∧
      (153 : Nat) = ((machine r0 [(0xFF44, 153)]).flatAt 0xFF44).toNat ∧ (153 : Nat) ≤ 153 := by decide

theorem witness_RenderLineTouchesItsRowOnly :
    143 < 144 ∧ 159 < 160 ∧ 2 < 3 ∧ (142 : Nat) ≠ 143 ∧
      ((machine r0 [(0xFF40, 0x90)]).flatAt 0xFF40).getLsbD 0 = false ∧
      ((machine r0 [(0xFF40, 0x90)]).flatAt 0xFF40).getLsbD 1 = false := by decide

/-- The last pixel of the last line: once the background, once the window with WX 7 and WY 0. -/
theorem witness_BackgroundPixel :
    (base.flatAt 0xFF40).getLsbD 0 = true ∧ (base.flatAt 0xFF40).getLsbD 1 = false ∧
      ¬ ((base.flatAt 0xFF40).getLsbD 5 = true) ∧
      (143 : Nat) = ((base.flatAt 0xFF42).toNat + 143) % 256 ∧
      (159 : Nat) = ((base.flatAt 0xFF43).toNat + 159) % 256 ∧
      (((machine r0 [(0xFF40, 0xB1), (0xFF4B, 0x07)]).flatAt 0xFF40).getLsbD 5 = true ∧
        ((machine r0 [(0xFF40, 0xB1), (0xFF4B, 0x07)]).flatAt 0xFF4A).toNat ≤ 143 ∧
        ((machine r0 [(0xFF40, 0xB1), (0xFF4B, 0x07)]).flatAt 0xFF4B).toNat ≤ 159 + 7) ∧
      143 + ((machine r0 [(0xFF40, 0xB1), (0xFF4B, 0x07)]).flatAt 0xFF4A).toNat = 143 ∧
      159 + ((machine r0 [(0xFF40, 0xB1), (0xFF4B, 0x07)]).flatAt 0xFF4B).toNat = 159 + 7 := by decide

/-- A machine with sprite 0 at the top left corner, its tile's first row opaque. -/
abbrev spriteMachine : State :=
  machine r0 [(0x8010, 0xFF), (0xFE00, 16), (0xFE01, 8), (0xFE02, 1), (0xFF48, 0xE4)]

theorem witness_SpritePixel :
    SpriteShows spriteMachine 0 0 0 1 ∧ (1 : Nat) ≠ 0 ∧ 0 < 40 ∧ 0 < 144 ∧ 0 < 160 := by
  refine ⟨⟨0, 0, ?_⟩, by decide⟩
  decide

/-- One group selected at a time. -/
theorem witness_JoypadRead :
    read8 (machine r0 [(0xFF00, 0x20)]) 0xFF00 = .ok 0xDF ∧
      ((machine r0 [(0xFF00, 0x20)]).flatAt 0xFF00).getLsbD 4 = false ∧
      ((machine r0 [(0xFF00, 0x20)]).flatAt 0xFF00).getLsbD 5 = true ∧
      ((machine r0 [(0xFF00, 0x10)]).flatAt 0xFF00).getLsbD 4 = true ∧
      ((machine r0 [(0xFF00, 0x10)]).flatAt 0xFF00).getLsbD 5 = false := ⟨rfl, rfl, rfl, rfl, rfl⟩

theorem witness_KeyInputs :
    8 ≤ 8 ∧ 7 < 8 ∧ ({ base with joypadState := 0x7F } : State).joypadState.getLsbD 7 = false ∧
      base.joypadState.getLsbD 7 = true := by decide

/-- A frame of one step, and one that stops. -/
theorem witness_RunFrameMeetsItsBudget :
    next (runFrame { base with params := shortFrame }) (fun _ => true) = true ∧
      (match runFrame (placeBytes { base with params := shortFrame } 0xD3 0 0) with
        | .fault (.unsupportedOpcode code _) => code == 0x00D3
        | _ => false) = true := by decide +kernel

end Sys2Proof.Tests
end

namespace Sys2Proof.Machine

/-! ### The register file at power-on (`10_state.md` R53) -/

@[simp] theorem State.reset_regs : State.reset.regs = Registers.powerOn := rfl

@[simp] theorem State.construct_none_regs (img : Image) (params : Config.Params) :
    (State.construct img none params).regs = Registers.powerOn := rfl

@[simp] theorem Registers.powerOn_af : Registers.powerOn.af = 0x01B0 := by decide

@[simp] theorem Registers.powerOn_bc : Registers.powerOn.bc = 0x0013 := by decide

@[simp] theorem Registers.powerOn_de : Registers.powerOn.de = 0x00D8 := by decide

@[simp] theorem Registers.powerOn_hl : Registers.powerOn.hl = 0x014D := by decide

/-- Settles O10: reset and every construction without a bootstrap image have the register file
`Registers.powerOn`, whose ten fields are the constants of R53 and whose pairs are read off it. -/
theorem resetRegisters : Obligations.ResetRegisters := by
  unfold Obligations.ResetRegisters
  rw [State.reset_regs]
  exact ⟨rfl, rfl, rfl, rfl, rfl, rfl, rfl, rfl, rfl, rfl,
    Registers.powerOn_af, Registers.powerOn_bc, Registers.powerOn_de, Registers.powerOn_hl,
    State.construct_none_regs⟩

end Sys2Proof.Machine

namespace Sys2Proof.Machine

/-! ### One cell of `flat`, read back through the read path (`20_memory.md` R64 to R69) -/

/-- A store to one cell of `flat` shows at that address alone: the joypad address reads its own cell too. -/
theorem read8_setFlat_ne {s : State} {k : Nat} {b : Word} (x : Byte) (hb : b.toNat ≠ k) :
    read8 (s.setFlat k x) b = read8 s b := by
  have hflat : (s.setFlat k x).flatAt b.toNat = s.flatAt b.toNat := by
    rw [State.setFlat_flatAt, if_neg hb]
  by_cases hjoy : b.toNat = 0xFF00
  · have hsel : joypRead (s.setFlat k x) = joypRead s := by
      rw [hjoy] at hflat
      simp only [joypRead, hflat]
      rfl
    simp only [read8, hjoy, hsel]
    rfl
  · simp only [read8, hjoy, hflat]
    rfl

/-- An address at work RAM or above, but for the joypad's, reads back the byte stored in its cell. -/
theorem read8_setFlat_self {s : State} {a : Word} (x : Byte) (ha : 0xC000 ≤ a.toNat)
    (hjoy : a.toNat ≠ 0xFF00) : read8 (s.setFlat a.toNat x) a = .ok x := by
  rw [read8_flat (by omega) (by omega) hjoy, State.setFlat_flatAt, if_pos rfl]

/-! ### What a write stores, by address (`20_memory.md` R70 to R77) -/

/-- A write to echo RAM stores twice (R72). -/
theorem storeByte_echo {a : Word} (h : 0xE000 ≤ a.toNat) (h' : a.toNat < 0xFE00) (v : Byte) (s : State) :
    storeByte s a v = (s.setFlat a.toNat v).setFlat (a - 0x2000).toNat v := by
  have hmirror : (a - 0x2000).toNat = a.toNat - 0x2000 := by bv_omega
  rw [hmirror, storeByte, if_neg (by omega), if_pos (by omega)]

/-- A write to work RAM or to the sprite table stores once (R72, R79). -/
theorem storeByte_once {a : Word}
    (h : (0xC000 ≤ a.toNat ∧ a.toNat < 0xE000) ∨ (0xFE00 ≤ a.toNat ∧ a.toNat < 0xFEA0)) (v : Byte)
    (s : State) : storeByte s a v = s.setFlat a.toNat v := by
  unfold storeByte
  repeat' rw [if_neg (by omega)]

/-- A write to DIV or to LY stores 0 (R75, R77). -/
theorem storeByte_zero {a : Word} (h : a.toNat = 0xFF04 ∨ a.toNat = 0xFF44) (v : Byte) (s : State) :
    storeByte s a v = s.setFlat a.toNat 0 := by
  obtain h | h := h <;> simp [storeByte, h]

/-- A write that stores `x` in its own cell, at work RAM or above and neither the DMA nor the joypad register,
changes `flat` alone, reads back as `x`, and shows at no other address. -/
theorem write8_stores {s : State} {a : Word} {v x : Byte} (h : storeByte s a v = s.setFlat a.toNat x)
    (ha : 0xC000 ≤ a.toNat) (hdma : a.toNat ≠ 0xFF46) (hjoy : a.toNat ≠ 0xFF00) :
    ∃ t, write8 a v s = .next t ∧ t = { s with flat := t.flat } ∧ read8 t a = .ok x ∧
      ∀ b : Word, b ≠ a → read8 t b = read8 s b :=
  ⟨s.setFlat a.toNat x, by rw [write8_store hdma, h], rfl, read8_setFlat_self x ha hjoy,
    fun _ hb => read8_setFlat_ne x fun he => hb (BitVec.eq_of_toNat_eq he)⟩

/-- A write to echo RAM shows at the address and 0x2000 below it, and nowhere else (R72). -/
theorem write8_echo {a : Word} (h : 0xE000 ≤ a.toNat) (h' : a.toNat < 0xFE00) (v : Byte) (s : State) :
    ∃ t, write8 a v s = .next t ∧ t = { s with flat := t.flat } ∧ read8 t a = .ok v ∧
      read8 t (a - 0x2000) = .ok v ∧
      ∀ b : Word, b ≠ a → b ≠ a - 0x2000 → read8 t b = read8 s b := by
  have hne : a.toNat ≠ (a - 0x2000).toNat := by bv_omega
  refine ⟨(s.setFlat a.toNat v).setFlat (a - 0x2000).toNat v, ?_, rfl, ?_, ?_, fun b hb hb' => ?_⟩
  · rw [write8_store (by omega), storeByte_echo h h']
  · rw [read8_setFlat_ne v hne, read8_setFlat_self v (by omega) (by omega)]
  · exact read8_setFlat_self v (by bv_omega) (by bv_omega)
  · rw [read8_setFlat_ne v fun he => hb' (BitVec.eq_of_toNat_eq he),
      read8_setFlat_ne v fun he => hb (BitVec.eq_of_toNat_eq he)]

/-- Settles O42: an echo write is two stores to `flat`, each other write here is one, of the value or of 0. -/
theorem echoDividerAndLineWrites : Obligations.EchoDividerAndLineWrites := by
  unfold Obligations.EchoDividerAndLineWrites
  intro s a v stores
  refine ⟨fun h h' => write8_echo h h' v s, fun h h' => ?_, fun h h' => ?_, fun h => ?_, fun h => ?_⟩
  · exact write8_stores (storeByte_once (.inr ⟨h, h'⟩) v s) (by omega) (by omega) (by omega)
  · exact write8_stores (storeByte_once (.inl ⟨h, by omega⟩) v s) h (by omega) (by omega)
  · exact write8_stores (storeByte_zero (.inl h) v s) (by omega) (by omega) (by omega)
  · exact write8_stores (storeByte_zero (.inr h) v s) (by omega) (by omega) (by omega)

/-! ### The bank controller (`20_memory.md` R71, R81 to R88) -/

/-- A write below 0x8000 is the bank controller's (R71). -/
theorem write8_bank {a : Word} (h : a.toNat < 0x8000) (v : Byte) (s : State) :
    write8 a v s = .next (bankWrite s a v) := by
  rw [write8_store (by omega), storeByte, if_pos h]

/-- Settles O43: below 0x8000 only `bankWrite` acts, and the image and the cells below 0x8000 are among what
every write keeps. -/
theorem writesNeverStoreBelowVideoRam : Obligations.WritesNeverStoreBelowVideoRam := by
  unfold Obligations.WritesNeverStoreBelowVideoRam
  refine ⟨fun s a v h => ⟨write8_bank h v s, bankWrite_flat s a v, bankWrite_ramBanks s a v⟩,
    fun s t a v h => ?_⟩
  obtain ⟨kept, -⟩ := (write8_ends a v s).of_next h
  exact ⟨kept.rom, fun k hk => kept.unwritten k (.inl hk)⟩

/-! The bank bits of a byte as numbers. -/

theorem and_0x03_toNat (v : Byte) : (v &&& 0x03).toNat = v.toNat % 4 :=
  (BitVec.toNat_and v 0x03).trans (Nat.and_two_pow_sub_one_eq_mod v.toNat 2)

theorem and_0x0F_toNat (v : Byte) : (v &&& 0x0F).toNat = v.toNat % 16 :=
  (BitVec.toNat_and v 0x0F).trans (Nat.and_two_pow_sub_one_eq_mod v.toNat 4)

/-- Three high bits of one byte and five low bits of another. -/
theorem highThree_or_lowFive_toNat (x y : Byte) :
    ((x &&& 0xE0) ||| (y &&& 0x1F)).toNat = x.toNat / 32 * 32 + y.toNat % 32 := by
  have hsplit : (x &&& 0xE0) ||| (y &&& 0x1F) = x.extractLsb' 5 3 ++ y.extractLsb' 0 5 := by
    refine BitVec.eq_of_getLsbD_eq fun i hi => ?_
    rw [BitVec.getLsbD_append]
    interval_cases i <;> simp
  have hlow : (y.extractLsb' 0 5).toNat = y.toNat % 32 := by simp [BitVec.extractLsb'_toNat]
  have hhigh : (x.extractLsb' 5 3).toNat = x.toNat / 32 := by
    have := x.isLt
    simp [BitVec.extractLsb'_toNat, Nat.shiftRight_eq_div_pow]
    omega
  rw [hsplit, BitVec.toNat_append, ← Nat.shiftLeft_add_eq_or_of_lt (BitVec.isLt _),
    Nat.shiftLeft_eq, hlow, hhigh]

theorem coerceBank_toNat (bank : Byte) :
    (coerceBank bank).toNat = if bank.toNat = 0 then 1 else bank.toNat := by
  have h0 : bank = 0 ↔ bank.toNat = 0 := BitVec.toNat_inj.symm
  rw [coerceBank]
  by_cases h : bank.toNat = 0
  · rw [if_pos (h0.mpr h), if_pos h]; rfl
  · rw [if_neg (mt h0.mp h), if_neg h]

theorem coerceBank_ne_zero (bank : Byte) : coerceBank bank ≠ 0 := fun h => by
  have := coerceBank_pos bank
  rw [h] at this
  exact absurd this (by decide)

/-- What a bank-select write that ends in the coerced `bank` selects. -/
theorem write8_selects {s : State} {a : Word} {v bank : Byte} (ha : a.toNat < 0x8000)
    (h : bankWrite s a v = { s with currentRomBank := coerceBank bank }) {n : Nat} (hn : bank.toNat = n) :
    ∃ b : Byte, b.toNat = (if n = 0 then 1 else n) ∧
      write8 a v s = .next { s with currentRomBank := b } :=
  ⟨coerceBank bank, hn ▸ coerceBank_toNat bank, by rw [write8_bank ha, h]⟩

theorem bankWrite_none {s : State} (hm : s.bankingMode = .none) (a : Word) (v : Byte) :
    bankWrite s a v = s := by
  rw [bankWrite, hm]

section MBC2
variable {s : State} {a : Word} (hm : s.bankingMode = .mbc2)
include hm

theorem bankWrite_mbc2_romBank (h : 0x2000 ≤ a.toNat) (h' : a.toNat ≤ 0x3FFF) (v : Byte) :
    bankWrite s a v = { s with currentRomBank := coerceBank (v &&& 0x0F) } := by
  simp only [bankWrite, hm]
  rw [if_neg (by omega), if_pos (by omega)]

theorem bankWrite_mbc2_ignored (h : 0x4000 ≤ a.toNat) (v : Byte) : bankWrite s a v = s := by
  simp only [bankWrite, hm]
  rw [if_neg (by omega), if_neg (by omega)]

end MBC2

section MBC1
variable {s : State} {a : Word} (hm : s.bankingMode = .mbc1)
include hm

theorem bankWrite_mbc1_lowFive (h : 0x2000 ≤ a.toNat) (h' : a.toNat ≤ 0x3FFF) (v : Byte) :
    bankWrite s a v
      = { s with currentRomBank := coerceBank ((s.currentRomBank &&& 0xE0) ||| (v &&& 0x1F)) } := by
  simp only [bankWrite, hm]
  rw [if_neg (by omega), if_pos (by omega)]

theorem bankWrite_mbc1_highThree (h : 0x4000 ≤ a.toNat) (h' : a.toNat ≤ 0x5FFF)
    (hsel : s.romBankingSelect = true) (v : Byte) :
    bankWrite s a v
      = { s with currentRomBank := coerceBank ((s.currentRomBank &&& 0x1F) ||| (v &&& 0xE0)) } := by
  simp only [bankWrite, hm]
  rw [if_neg (by omega), if_neg (by omega), if_pos (by omega), if_pos hsel]

theorem bankWrite_mbc1_ramBank (h : 0x4000 ≤ a.toNat) (h' : a.toNat ≤ 0x5FFF)
    (hsel : s.romBankingSelect = false) (v : Byte) :
    bankWrite s a v = { s with currentRamBank := v &&& 0x03 } := by
  simp only [bankWrite, hm]
  rw [if_neg (by omega), if_neg (by omega), if_pos (by omega), if_neg (by simp [hsel])]

end MBC1

/-- Settles O44: each bank-select write by controller and range, its bank bits as a number. -/
theorem bankNumberWrites : Obligations.BankNumberWrites := by
  unfold Obligations.BankNumberWrites
  intro s a v selects
  refine ⟨fun hm h => ?_, fun hm => ⟨fun h h' => ?_, fun h h' => ?_⟩,
    fun hm => ⟨fun h h' => ?_, fun h h' hsel => ?_, fun h h' hsel => ?_⟩⟩
  · rw [write8_bank h, bankWrite_none hm]
  · exact write8_selects (by omega) (bankWrite_mbc2_romBank hm h h' v) (and_0x0F_toNat v)
  · rw [write8_bank (by omega), bankWrite_mbc2_ignored hm h]
  · exact write8_selects (by omega) (bankWrite_mbc1_lowFive hm h h' v)
      (highThree_or_lowFive_toNat s.currentRomBank v)
  · refine write8_selects (by omega) (bankWrite_mbc1_highThree hm h h' hsel v) ?_
    rw [BitVec.or_comm, highThree_or_lowFive_toNat, Nat.add_comm]
  · exact ⟨v &&& 0x03, and_0x03_toNat v,
      by rw [write8_bank (by omega), bankWrite_mbc1_ramBank hm h h' hsel]⟩

/-- The bank controller keeps `currentRomBank` or makes it a coerced number (R87). -/
theorem bankWrite_currentRomBank (s : State) (a : Word) (v : Byte) :
    (bankWrite s a v).currentRomBank = s.currentRomBank ∨
      ∃ bank, (bankWrite s a v).currentRomBank = coerceBank bank := by
  unfold bankWrite
  split
  case h_1 => exact .inl rfl
  case h_2 =>
    split
    · left; repeat' split
      all_goals rfl
    · split
      · exact .inr ⟨_, rfl⟩
      · split
        · split
          · exact .inr ⟨_, rfl⟩
          · exact .inl rfl
        · left; split <;> rfl
  case h_3 =>
    split
    · left; repeat' split
      all_goals rfl
    · split
      · exact .inr ⟨_, rfl⟩
      · exact .inl rfl

/-- A write to any address keeps `currentRomBank` or makes it non-zero (R87). -/
theorem write8_currentRomBank {s t : State} {a : Word} {v : Byte} (h : write8 a v s = .next t) :
    t.currentRomBank = s.currentRomBank ∨ t.currentRomBank ≠ 0 := by
  by_cases hdma : a.toNat = 0xFF46
  · rw [write8, if_pos hdma] at h
    obtain ⟨-, hflat⟩ := (dmaFrom_ends v 0xA0 0 s (by omega)).of_next h
    exact .inl (by rw [hflat])
  · rw [write8_store hdma] at h
    obtain rfl : storeByte s a v = t := by injection h
    by_cases hrom : a.toNat < 0x8000
    · rw [storeByte, if_pos hrom]
      obtain hkept | ⟨bank, hbank⟩ := bankWrite_currentRomBank s a v
      · exact .inl hkept
      · exact .inr (hbank ▸ coerceBank_ne_zero bank)
    · exact .inl (storeByte_banks (by omega) v).1

/-- Settles O46: a write keeps the bank or makes it non-zero, which is both clauses. -/
theorem romBankIsNeverZero : Obligations.RomBankIsNeverZero := by
  unfold Obligations.RomBankIsNeverZero
  refine ⟨fun s t a v hs h => ?_, fun s t a v h hne => ?_⟩
  · obtain hkept | hpos := write8_currentRomBank h
    · rwa [hkept]
    · exact hpos
  · exact (write8_currentRomBank h).resolve_left hne

end Sys2Proof.Machine

namespace Sys2Proof.Machine

/-! ### The step with no pending enable, and NOP (`40_step_and_nop.md` R150, R155) -/

/-- With no enable pending and the latch clear, the start of a step changes nothing. -/
theorem arm_of_idle {s : State} (hei : s.eiPending = false) (harmed : s.armed = false) : arm s = s := by
  cases s
  cases hei
  cases harmed
  rfl

theorem commitArmed_of_unarmed {s : State} (harmed : s.armed = false) : commitArmed s = s := by
  simp [commitArmed, harmed]

/-- With the latch clear, what follows an execution is the devices by the returned cost and the dispatch. -/
theorem afterExecution_of_unarmed {u : State} (harmed : u.armed = false) :
    afterExecution u = dispatchInterrupts (advanceGraphics u.lastCost (advanceTimers u.lastCost u)) := by
  rw [afterExecution, commitArmed_of_unarmed harmed]

theorem bytesAtPc_singleton {s : State} {b : Byte} : BytesAtPc s [b] ↔ read8 s s.regs.pc = .ok b := by
  refine ⟨BytesAtPc.head, fun h k v hk => ?_⟩
  obtain ⟨rfl, rfl⟩ : k = 0 ∧ b = v := by simpa [List.getElem?_singleton] using hk
  simpa using h

/-- The step executes what it fetched and runs the phases after it. -/
theorem step_of_fetchInstr {s u : State} {i : Instr} (hf : s.fault = none)
    (h : fetchInstr (arm s) = .ok (i, u)) : step s = andThen (exec i u) afterExecution := by
  simp only [step, hf, h]

theorem exec_nop (s : State) : exec .nop s = .next { s with lastCost := 4 } := rfl

/-- NOP has a handler in both profiles (R8). -/
theorem hasHandler_nop (p : Config.Profile) : hasHandler p .nop = true := by cases p <;> rfl

theorem decode_zero : decode [0x00] = .ok (.nop, []) := rfl

/-- Settles O6: the step fetches NOP from the zero byte, NOP sets only the cost, and the latch stays clear,
so the phases after it are the devices by 4 and the dispatch. -/
theorem nopOnlyAdvancesPc : Obligations.NopOnlyAdvancesPc := by
  unfold Obligations.NopOnlyAdvancesPc
  refine ⟨decode_zero, exec_nop, fun s hf hei harmed hread => ?_⟩
  have hfetch : fetchInstr (arm s) = .ok (.nop, s.setPc (s.regs.pc + 1)) := by
    rw [arm_of_idle hei harmed]
    exact fetchInstr_handled decode_zero (bytesAtPc_singleton.mpr hread) (hasHandler_nop _)
  rw [step_of_fetchInstr hf hfetch, exec_nop, andThen_next]
  exact afterExecution_of_unarmed harmed

end Sys2Proof.Machine

namespace Sys2Proof.Machine

/-! ### A request in IF (`60_exceptions.md` R336) -/

@[simp] theorem requestInterrupt_flatAt (i : Interrupt) (s : State) (k : Nat) :
    (requestInterrupt i s).flatAt k
      = if k = 0xFF0F then withBit (s.flatAt 0xFF0F) i.index true else s.flatAt k :=
  State.setFlat_flatAt _ _ _ _

theorem withBit_true_getLsbD (x : Byte) {i : Nat} (hi : i < 8) (j : Nat) :
    (withBit x i true).getLsbD j = (x.getLsbD j || decide (j = i)) := by
  rw [withBit_getLsbD _ _ _ _ hi]
  by_cases h : j = i <;> simp [h]

/-! ### The period and the TIMA increment (`60_exceptions.md` R357, R358) -/

theorem fieldOf_lowTwo (v : Byte) : fieldOf v 0 2 = v.toNat % 4 := by simp [fieldOf]

section Tick
variable {s : State}

theorem tickTima_of_eq (h : s.flatAt 0xFF05 = 255) :
    tickTima s = requestInterrupt .timer (s.setFlat 0xFF05 (s.flatAt 0xFF06)) := if_pos h

theorem tickTima_of_ne (h : s.flatAt 0xFF05 ≠ 255) :
    tickTima s = s.setFlat 0xFF05 (s.flatAt 0xFF05 + 1) := if_neg h

theorem tickTima_flatOnly (s : State) : tickTima s = { s with flat := (tickTima s).flat } := by
  by_cases h : s.flatAt 0xFF05 = 255
  · rw [tickTima_of_eq h]; rfl
  · rw [tickTima_of_ne h]; rfl

theorem tickTima_timerCounter (s : State) : (tickTima s).timerCounter = s.timerCounter := by
  rw [tickTima_flatOnly]

theorem tickTima_flatAt_ne {k : Nat} (htima : k ≠ 0xFF05) (hif : k ≠ 0xFF0F) :
    (tickTima s).flatAt k = s.flatAt k := by
  by_cases h : s.flatAt 0xFF05 = 255
  · rw [tickTima_of_eq h, requestInterrupt_flatAt, if_neg hif, State.setFlat_flatAt, if_neg htima]
  · rw [tickTima_of_ne h, State.setFlat_flatAt, if_neg htima]

/-- At 255 TIMA takes TMA and the request of interrupt 2 is set. -/
theorem tickTima_reload (h : s.flatAt 0xFF05 = 255) :
    (tickTima s).flatAt 0xFF05 = s.flatAt 0xFF06 ∧
      ∀ j, ((tickTima s).flatAt 0xFF0F).getLsbD j = ((s.flatAt 0xFF0F).getLsbD j || decide (j = 2)) := by
  rw [tickTima_of_eq h]
  refine ⟨by simp, fun j => ?_⟩
  rw [requestInterrupt_flatAt, if_pos rfl, State.setFlat_flatAt, if_neg (by decide)]
  exact withBit_true_getLsbD _ (by decide) j

/-- Below 255 TIMA grows by 1 and IF stays. -/
theorem tickTima_increment (h : s.flatAt 0xFF05 ≠ 255) :
    ((tickTima s).flatAt 0xFF05).toNat = (s.flatAt 0xFF05).toNat + 1 ∧
      (tickTima s).flatAt 0xFF0F = s.flatAt 0xFF0F := by
  rw [tickTima_of_ne h]
  refine ⟨?_, by simp⟩
  rw [State.setFlat_flatAt, if_pos rfl]
  bv_omega

end Tick

/-! ### The main timer (`60_exceptions.md` R358) -/

/-- The state whose counter restarts with the period of TAC's frequency field (R357). -/
def State.reloadTimer (s : State) : State := { s with timerCounter := timerPeriod (s.flatAt 0xFF07) }

@[simp] theorem State.reloadTimer_timerCounter (s : State) :
    s.reloadTimer.timerCounter = timerPeriod (s.flatAt 0xFF07) := rfl

@[simp] theorem State.reloadTimer_flatAt (s : State) (k : Nat) : s.reloadTimer.flatAt k = s.flatAt k := rfl

section MainTimer
variable {s : State} {cost : Nat}

theorem advanceMainTimer_frozen (htac : bitOf (s.flatAt 0xFF07) 2 = false) :
    advanceMainTimer cost s = s := by
  simp [advanceMainTimer, htac]

variable (htac : bitOf (s.flatAt 0xFF07) 2 = true)
include htac

theorem advanceMainTimer_counting (hleft : 0 < s.timerCounter - cost) :
    advanceMainTimer cost s = { s with timerCounter := s.timerCounter - cost } := by
  rw [advanceMainTimer, if_pos htac, if_neg (Int.not_le.mpr hleft)]

theorem advanceMainTimer_expired (hout : s.timerCounter - cost ≤ 0) :
    advanceMainTimer cost s = tickTima s.reloadTimer := by
  rw [advanceMainTimer, if_pos htac, if_pos hout, State.reloadTimer]

end MainTimer

/-- Settles O52: the timer is frozen, counts, or ticks TIMA from the state with the period reloaded. -/
theorem mainTimerAdvance : Obligations.MainTimerAdvance := by
  unfold Obligations.MainTimerAdvance
  intro s cost
  refine ⟨advanceMainTimer_frozen, advanceMainTimer_counting, fun htac hout => ?_⟩
  rw [advanceMainTimer_expired htac hout]
  dsimp only
  rw [tickTima_timerCounter, State.reloadTimer_timerCounter]
  refine ⟨tickTima_flatOnly s.reloadTimer, ?_, fun k => tickTima_flatAt_ne, fun h => ?_,
    tickTima_increment (s := s.reloadTimer)⟩
  · rw [← fieldOf_lowTwo]
    rfl
  · obtain ⟨htima, hif⟩ := tickTima_reload (s := s.reloadTimer) h
    exact ⟨htima, fun j _ => hif j⟩

end Sys2Proof.Machine

namespace Sys2Proof.Laws.RoundTrip

/-! ### The round trip of every instruction (`30_encoding.md` sections 1 to 3) -/

/-- One instruction a line, by its own lemma. -/
theorem decode_encode : ∀ i : Instr, Statement i
  | .nop => nop
  | .ldRR dst src => ldRR dst src
  | .ldRHl dst => ldRHl dst
  | .ldHlR src => ldHlR src
  | .ldHlHl => ldHlHl
  | .ldRN dst n => ldRN dst n
  | .ldHlN n => ldHlN n
  | .ldABc => ldABc
  | .ldADe => ldADe
  | .ldBcA => ldBcA
  | .ldDeA => ldDeA
  | .ldANn nn => ldANn nn
  | .ldNnA nn => ldNnA nn
  | .ldRrNn p nn => ldRrNn p nn
  | .ldNnSp nn => ldNnSp nn
  | .ldSpHl => ldSpHl
  | .addR src => addR src
  | .addHl => addHl
  | .addN n => addN n
  | .adcR src => adcR src
  | .adcHl => adcHl
  | .adcN n => adcN n
  | .subR src => subR src
  | .subHl => subHl
  | .subN n => subN n
  | .sbcR src => sbcR src
  | .sbcHl => sbcHl
  | .sbcN n => sbcN n
  | .xorR src => xorR src
  | .xorHl => xorHl
  | .xorN n => xorN n
  | .rra => rra
  | .rrR src => rrR src
  | .rrHl => rrHl
  | .bitR bit src => bitR bit src
  | .bitHl bit => bitHl bit
  | .ldHliA => ldHliA
  | .ldAHli => ldAHli
  | .ldHldA => ldHldA
  | .ldAHld => ldAHld
  | .ldhNA n => ldhNA n
  | .ldhAN n => ldhAN n
  | .ldCA => ldCA
  | .ldAC => ldAC
  | .ldHlSpE e => ldHlSpE e
  | .push q => push q
  | .pop q => pop q
  | .andR src => andR src
  | .andHl => andHl
  | .andN n => andN n
  | .orR src => orR src
  | .orHl => orHl
  | .orN n => orN n
  | .cpR src => cpR src
  | .cpHl => cpHl
  | .cpN n => cpN n
  | .incR dst => incR dst
  | .incHl => incHl
  | .decR dst => decR dst
  | .decHl => decHl
  | .incRr p => incRr p
  | .decRr p => decRr p
  | .addHlRr p => addHlRr p
  | .addSpE e => addSpE e
  | .daa => daa
  | .cpl => cpl
  | .scf => scf
  | .ccf => ccf
  | .rlca => rlca
  | .rla => rla
  | .rrca => rrca
  | .jpNn nn => jpNn nn
  | .jpCcNn cc nn => jpCcNn cc nn
  | .jpHl => jpHl
  | .jrE e => jrE e
  | .jrCcE cc e => jrCcE cc e
  | .callNn nn => callNn nn
  | .callCcNn cc nn => callCcNn cc nn
  | .ret => ret
  | .retCc cc => retCc cc
  | .rst t => rst t
  | .di => di
  | .ei => ei
  | .reti => reti
  | .rlcR src => rlcR src
  | .rlcHl => rlcHl
  | .rrcR src => rrcR src
  | .rrcHl => rrcHl
  | .rlR src => rlR src
  | .rlHl => rlHl
  | .slaR src => slaR src
  | .slaHl => slaHl
  | .sraR src => sraR src
  | .sraHl => sraHl
  | .swapR src => swapR src
  | .swapHl => swapHl
  | .srlR src => srlR src
  | .srlHl => srlHl
  | .resR bit src => resR bit src
  | .resHl bit => resHl bit
  | .setR bit src => setR bit src
  | .setHl bit => setHl bit

end Sys2Proof.Laws.RoundTrip

namespace Sys2Proof

/-- Settles O2: each instruction's own round trip. -/
theorem decodeOfEncode : Obligations.DecodeOfEncode := by
  unfold Obligations.DecodeOfEncode
  exact Laws.RoundTrip.decode_encode

/-! ### Decoding with three bytes at hand (`30_encoding.md` sections 3 to 5) -/

theorem decode_prefixed (op2 : Byte) (rest : List Byte) :
    decode (prefixByte :: op2 :: rest) = .ok (decodePrefixed op2, rest) := rfl

/-- An unprefixed opcode byte alone selects the instruction, which takes its operand from as many of the two
bytes after it as its length leaves. -/
theorem decode_plain {op : Byte} (hop : op ≠ prefixByte) {head : Instr} (h : decodePlain op 0 0 = some head)
    (n1 n2 : Byte) (rest : List Byte) :
    ∃ i, decode (op :: n1 :: n2 :: rest) = .ok (i, (n1 :: n2 :: rest).drop (head.length - 1)) ∧
      Machine.inBase i = Machine.inBase head := by
  have hplain : ∀ m1 m2, decodePlain op m1 m2 = some (head.withOperands m1 m2) := fun m1 m2 => by
    rw [decodePlain_operands, h, Option.map_some]
  obtain ⟨hpos, hle⟩ := length_pos head
  simp only [decode, if_neg hop, instrLength_plain hop h, hplain]
  obtain hl | hl | hl : head.length = 1 ∨ head.length = 2 ∨ head.length = 3 := by omega
  all_goals
    simp only [hl]
    exact ⟨_, rfl, inBase_withOperands _ _ head⟩

theorem decode_unhandled {op : Byte} (hop : op ≠ prefixByte) (h : decodePlain op 0 0 = none)
    (n1 n2 : Byte) (rest : List Byte) :
    decode (op :: n1 :: n2 :: rest) = .error (.unsupportedOpcode op) := by
  simp only [decode, if_neg hop, instrLength, h]

/-- The twelve opcode bytes that have no handler in either profile (R134). -/
def unhandledBytes : List Byte :=
  [0x10, 0xD3, 0xDB, 0xDD, 0xE3, 0xE4, 0xEB, 0xEC, 0xED, 0xF4, 0xFC, 0xFD]

set_option maxRecDepth 4096 in
/-- Of the 256 opcode bytes, the twelve and the one before a second opcode byte are no instruction. -/
theorem decodePlain_isNone : ∀ op : Fin 256,
    (decodePlain (BitVec.ofFin op) 0 0).isNone
      = decide (BitVec.ofFin op ∈ unhandledBytes ∨ BitVec.ofFin op = prefixByte) := by
  decide

theorem decodePlain_eq_none_iff (op : Byte) :
    decodePlain op 0 0 = none ↔ op ∈ unhandledBytes ∨ op = prefixByte := by
  rw [← Option.isNone_iff_eq_none, decodePlain_isNone op.toFin, decide_eq_true_iff]

/-- Settles O3: bytes that decode are the encoding of what they decode to, followed by what is left. -/
theorem oneSpellingPerInstruction : Obligations.OneSpellingPerInstruction := by
  unfold Obligations.OneSpellingPerInstruction
  intro bytes other rest i h
  obtain ⟨hwf, hbytes⟩ := encode_of_decode h
  obtain ⟨hpos, hle⟩ := length_pos i
  have hlen : bytes.length = i.length + rest.length := by rw [hbytes, List.length_append, encode_length]
  exact ⟨hwf, by omega, by omega, fun hother => (encode_of_decode hother).2.trans hbytes.symm⟩

/-- Settles O4: the bytes without an instruction are known by enumeration, and with three bytes at hand
nothing else can stop a decode. -/
theorem twelveBytesHaveNoHandler : Obligations.TwelveBytesHaveNoHandler := by
  unfold Obligations.TwelveBytesHaveNoHandler
  intro op n1 n2 rest
  refine ⟨fun h => ?_, fun h => ?_⟩
  · have hop : op ≠ prefixByte := by
      rintro rfl
      exact absurd h (by decide)
    exact decode_unhandled hop ((decodePlain_eq_none_iff op).mpr (.inl h)) n1 n2 rest
  · by_cases hop : op = prefixByte
    · exact ⟨_, _, by rw [hop, decode_prefixed]⟩
    · obtain ⟨head, hhead⟩ : ∃ head, decodePlain op 0 0 = some head :=
        Option.ne_none_iff_exists'.mp fun hnone => ((decodePlain_eq_none_iff op).mp hnone).elim h hop
      obtain ⟨i, hi, -⟩ := decode_plain hop hhead n1 n2 rest
      exact ⟨i, _, hi⟩

/-- Settles O1: each written word is one of the closed cases of `decode`. -/
theorem writtenWordsDecode : Obligations.WrittenWordsDecode := by
  unfold Obligations.WrittenWordsDecode
  exact ⟨rfl, rfl, rfl, rfl, rfl, rfl, rfl, rfl, rfl, rfl, rfl, rfl, rfl, rfl, rfl, rfl, rfl, rfl, rfl⟩

end Sys2Proof

namespace Sys2Proof.Machine

/-! ### What a step answers (`40_step_and_nop.md` R150, `60_exceptions.md` R331) -/

theorem step_of_fetch_error {s : State} {f : Fault} (hf : s.fault = none)
    (h : fetchInstr (arm s) = .error f) : step s = .fault f := by
  simp only [step, hf, h]

theorem step_of_latched {s : State} {cause : FaultCause} (hf : s.fault = some cause) :
    step s = .fault (faultOf cause s) := by
  simp only [step, hf]

/-- The latch holds the cause already: nothing changes. -/
theorem latch_self {s : State} {cause : FaultCause} (hf : s.fault = some cause) :
    ({ s with fault := some cause } : State) = s := by
  rw [← hf]

/-- A step that decodes executes the instruction past its bytes (R150). -/
theorem step_of_decode {s : State} {bytes : List Byte} {i : Instr} (hf : s.fault = none)
    (hd : decode bytes = .ok (i, [])) (hb : BytesAtPc s bytes)
    (hh : hasHandler s.params.profile i = true) :
    step s = andThen (exec i ((arm s).setPc (s.regs.pc + BitVec.ofNat 16 bytes.length)))
      afterExecution :=
  step_of_fetchInstr hf (fetchInstr_handled (s := arm s) hd hb hh)

/-- Settles O5: the step of decoded bytes, with the phases after the execution written out. -/
theorem stepRunsDecodedInstruction : Obligations.StepRunsDecodedInstruction := by
  unfold Obligations.StepRunsDecodedInstruction
  intro s bytes i hf hd hb hh
  exact ⟨(encode_of_decode hd).1, step_of_decode hf hd hb hh⟩

/-- A faulted outcome carries the state with the latch set to its cause (R331). -/
theorem faultOf_cases (cause : FaultCause) (s : State) :
    (∃ code t, faultOf cause s = .unsupportedOpcode code t ∧ t.fault = some (.unsupportedOpcode code)) ∨
      ∃ index t, faultOf cause s = .romIndexOutOfRange index t ∧
        t.fault = some (.romIndexOutOfRange index) := by
  cases cause with
  | unsupportedOpcode code => exact .inl ⟨code, _, rfl, rfl⟩
  | romIndexOutOfRange index => exact .inr ⟨index, _, rfl, rfl⟩

theorem afterDevices_lastCost (u : State) : (afterDevices u).lastCost = u.lastCost := by
  rw [(afterDevices_frame u).1]
  exact (commitArmed_fields u).2.2.2.1

theorem afterExecution_ends (u : State) : Ends (afterExecution u) fun t => t.lastCost = u.lastCost := by
  rw [afterExecution_eq]
  refine (dispatchInterrupts_ends _).mono fun t ⟨_, _, _, _, _, hcost⟩ => ?_
  rw [hcost, afterDevices_lastCost]

/-- A cost that R153 allows. -/
abbrev CostInRange (cost : Nat) : Prop := 4 ≤ cost ∧ cost ≤ 24 ∧ cost % 4 = 0

/-- What is executed returns a cost in range, and the phases after it keep that cost. -/
theorem execution_ends (i : Instr) (s : State) :
    Ends (andThen (exec i s) afterExecution) fun t => CostInRange t.lastCost := by
  refine (exec_cost i s).andThen fun u hu => (afterExecution_ends u).mono fun t ht => ?_
  rw [ht]
  obtain hu | hu := hu
  · exact hu ▸ cost_range s i
  · exact hu ▸ costNotTaken_range s i

/-- A step answers a next state, its cost in range, or the fault of a cause. -/
theorem step_outcome (s : State) :
    (∃ t, step s = .next t ∧ CostInRange t.lastCost) ∨ ∃ cause u, step s = .fault (faultOf cause u) := by
  cases hf : s.fault with
  | some cause => exact .inr ⟨cause, s, step_of_latched hf⟩
  | none =>
    have hfetched := fetchInstr_fetched (arm s)
    cases hfetch : fetchInstr (arm s) with
    | error f =>
      rw [hfetch] at hfetched
      obtain ⟨cause, pc, rfl⟩ := hfetched
      exact .inr ⟨cause, _, step_of_fetch_error hf hfetch⟩
    | ok p =>
      have hends := execution_ends p.1 p.2
      rw [step_of_fetchInstr hf hfetch]
      cases ho : andThen (exec p.1 p.2) afterExecution with
      | next t => exact .inl ⟨t, rfl, hends.of_next ho⟩
      | fault f =>
        rw [ho] at hends
        obtain ⟨index, u, rfl⟩ := hends
        exact .inr ⟨_, u, rfl⟩
      | refused r =>
        rw [ho] at hends
        exact hends.elim

/-- Settles O9: the two outcomes of a step, the fault with its latch. -/
theorem stepEndsInNextOrLatchedFault : Obligations.StepEndsInNextOrLatchedFault := by
  unfold Obligations.StepEndsInNextOrLatchedFault
  intro s
  obtain ⟨t, ht, hcost⟩ | ⟨cause, u, hu⟩ := step_outcome s
  · exact .inl ⟨t, ht, hcost⟩
  · rw [hu]
    obtain ⟨code, t, ht, hlatch⟩ | ⟨index, t, ht, hlatch⟩ := faultOf_cases cause u
    · exact .inr (.inl ⟨code, t, by rw [ht], hlatch⟩)
    · exact .inr (.inr ⟨index, t, by rw [ht], hlatch⟩)

/-! ### The frame loop (`60_exceptions.md` R372) -/

/-- Below the budget the loop steps. -/
theorem runFrameFrom_below {s : State} {acc : Nat} (fuel : Nat) (h : acc < s.params.frameBudget.val) :
    runFrameFrom (fuel + 1) acc s
      = andThen (step s) fun t => runFrameFrom fuel (acc + t.lastCost) t := if_pos h

/-- With the budget met the loop ends. -/
theorem runFrameFrom_met {s : State} {acc : Nat} (fuel : Nat) (h : s.params.frameBudget.val ≤ acc) :
    runFrameFrom fuel acc s = .next s := by
  cases fuel with
  | zero => rfl
  | succ fuel => exact if_neg (Nat.not_lt.mpr h)

/-- The frame loop begins with a step, since the budget is positive. -/
theorem runFrame_eq (s : State) :
    runFrame s = andThen (step s) fun t => runFrameFrom (s.params.frameBudget.val - 1) t.lastCost t := by
  have hpos := s.params.frameBudget.pos
  have hfuel : s.params.frameBudget.val = s.params.frameBudget.val - 1 + 1 := by omega
  rw [runFrame, hfuel, runFrameFrom_below _ hpos]
  simp only [Nat.zero_add, Nat.add_sub_cancel]

/-- A latched fault stops the loop at its first step. -/
theorem runFrame_of_latched {s : State} {cause : FaultCause} (hf : s.fault = some cause) :
    runFrame s = .fault (faultOf cause s) := by
  rw [runFrame_eq, step_of_latched hf, andThen_fault]

/-! ### The key inputs (`60_exceptions.md` R366 to R368) -/

/-- The keys with one more of them down. -/
def State.pressKey (s : State) (key : Nat) : State :=
  { s with joypadState := withBit s.joypadState key false }

section Keys
variable {s : State} {key : Nat}

theorem keyPressed_outOfRange (h : 8 ≤ key) : keyPressed key s = .refused (.keyOutOfRange key) :=
  if_neg (Nat.not_lt.mpr h)

theorem keyReleased_outOfRange (h : 8 ≤ key) : keyReleased key s = .refused (.keyOutOfRange key) :=
  if_neg (Nat.not_lt.mpr h)

theorem keyPressed_again (h : key < 8) (hdown : bitOf s.joypadState key = false) :
    keyPressed key s = .next s := by
  rw [keyPressed, if_pos h, if_neg (by simp [hdown])]

/-- A key that goes down requests the joypad interrupt if its group is selected. -/
theorem keyPressed_down (h : key < 8) (hup : bitOf s.joypadState key = true) :
    keyPressed key s
      = .next (if keyGroupSelected s key then requestInterrupt .joypad (s.pressKey key)
          else s.pressKey key) := by
  rw [keyPressed, if_pos h, if_pos hup]
  rfl

theorem keyReleased_next (h : key < 8) :
    keyReleased key s = .next { s with joypadState := withBit s.joypadState key true } := if_pos h

end Keys

theorem keyPressed_keeps_fault {s : State} {key : Nat} (h : key < 8) :
    ∃ t, keyPressed key s = .next t ∧ t.fault = s.fault := by
  cases hbit : bitOf s.joypadState key with
  | false => exact ⟨s, keyPressed_again h hbit, rfl⟩
  | true =>
    refine ⟨_, keyPressed_down h hbit, ?_⟩
    split <;> rfl

/-- Settles O8: the step looks at the latch first, and the frame loop at its first step. -/
theorem latchedFaultIsFinal : Obligations.LatchedFaultIsFinal := by
  unfold Obligations.LatchedFaultIsFinal
  intro s
  refine ⟨fun code hf => ?_, fun index hf => ?_, fun key h =>
    ⟨keyPressed_keeps_fault h, _, keyReleased_next h, rfl⟩⟩
  · rw [runFrame_of_latched hf, step_of_latched hf, faultOf, latch_self hf]
    exact ⟨rfl, rfl⟩
  · rw [runFrame_of_latched hf, step_of_latched hf, faultOf, latch_self hf]
    exact ⟨rfl, rfl⟩

/-! ### An opcode without a handler (`40_step_and_nop.md` R154) -/

theorem hasHandler_congr {i j : Instr} (h : inBase i = inBase j) (p : Config.Profile) :
    hasHandler p i = hasHandler p j := by
  cases p
  · exact h
  · rfl

/-- Settles O7: either the byte is no instruction in any profile, or the profile does not have it; both stop
before an operand byte is fetched. -/
theorem unsupportedOpcodeStops : Obligations.UnsupportedOpcodeStops := by
  unfold Obligations.UnsupportedOpcodeStops
  intro s hf
  refine ⟨fun op hread hop hno => ?_, fun op2 hread hread2 hno => ?_⟩
  · cases hd : decodePlain op 0 0 with
    | none => exact step_of_fetch_error hf (fetchInstr_unhandled (s := arm s) hread hop hd)
    | some head =>
      obtain ⟨i, hi, hbase⟩ := decode_plain hop hd 0 0 []
      have hnone : ¬ hasHandler (arm s).params.profile head = true := by
        rw [← hasHandler_congr hbase]
        exact Bool.not_eq_true _ ▸ hno i _ hi
      have hfetch := fetchInstr_plain (s := arm s) hread hop hd
      rw [if_neg hnone] at hfetch
      exact step_of_fetch_error hf hfetch
  · have hnone : ¬ hasHandler (arm s).params.profile (decodePrefixed op2) = true :=
      Bool.not_eq_true _ ▸ hno _ _ (decode_prefixed op2 [])
    have hfetch := fetchInstr_prefixed (s := arm s) hread hread2
    rw [selectHandler, State.setPc_params, if_neg hnone] at hfetch
    exact step_of_fetch_error hf hfetch

end Sys2Proof.Machine

namespace Sys2Proof.Machine

/-! ### The invariant (`70_reset_and_hazards.md` R462) -/

theorem step_keeps_inv {s t : State} (hs : s.Inv) (h : step s = .next t) : t.Inv :=
  ⟨step_sound hs.toSound h, step_unarmed h⟩

/-- The keys play no part in the invariant. -/
theorem State.Inv.setJoypad {s : State} (hs : s.Inv) (keys : Byte) :
    State.Inv { s with joypadState := keys } :=
  ⟨hs.toSound.congr rfl rfl rfl rfl rfl rfl rfl rfl rfl, hs.unarmed⟩

theorem requestInterrupt_keeps_inv {s : State} (hs : s.Inv) (i : Interrupt) : (requestInterrupt i s).Inv :=
  ⟨(requestInterrupt_kept i s).sound hs.toSound, hs.unarmed⟩

theorem keyPressed_keeps_inv {s t : State} {key : Nat} (hs : s.Inv) (h : keyPressed key s = .next t) :
    t.Inv := by
  by_cases hkey : key < 8
  · cases hbit : bitOf s.joypadState key with
    | false =>
      rw [keyPressed_again hkey hbit] at h
      cases h
      exact hs
    | true =>
      have hdown : (s.pressKey key).Inv := hs.setJoypad _
      rw [keyPressed_down hkey hbit] at h
      cases h
      split
      · exact requestInterrupt_keeps_inv hdown .joypad
      · exact hdown
  · rw [keyPressed_outOfRange (Nat.le_of_not_lt hkey)] at h
    cases h

theorem keyReleased_keeps_inv {s t : State} {key : Nat} (hs : s.Inv) (h : keyReleased key s = .next t) :
    t.Inv := by
  by_cases hkey : key < 8
  · rw [keyReleased_next hkey] at h
    cases h
    exact hs.setJoypad _
  · rw [keyReleased_outOfRange (Nat.le_of_not_lt hkey)] at h
    cases h

theorem runFrameFrom_keeps_inv (fuel acc : Nat) {s t : State} (hs : s.Inv)
    (h : runFrameFrom fuel acc s = .next t) : t.Inv := by
  induction fuel generalizing acc s with
  | zero =>
    cases h
    exact hs
  | succ fuel ih =>
    by_cases hacc : acc < s.params.frameBudget.val
    · rw [runFrameFrom_below fuel hacc, andThen_eq_next] at h
      obtain ⟨u, hu, hrest⟩ := h
      exact ih _ (step_keeps_inv hs hu) hrest
    · rw [runFrameFrom_met _ (Nat.le_of_not_lt hacc)] at h
      cases h
      exact hs

/-- Settles O14: the phases of a step keep `Sound` and clear the latch, a key call changes the keys and IF,
and the frame loop is steps. -/
theorem stepKeepsInv : Obligations.StepKeepsInv := by
  unfold Obligations.StepKeepsInv
  exact fun s t hs => ⟨step_keeps_inv hs, fun _ => keyPressed_keeps_inv hs,
    fun _ => keyReleased_keeps_inv hs, runFrameFrom_keeps_inv _ _ hs⟩

/-! ### What no step changes (`10_state.md` section 4) -/

/-- The devices write no cell that the write path cannot reach. -/
theorem not_deviceRegister_of_unwritten {k : Nat} (h : Unwritten k) : k ∉ deviceRegisters := by
  unfold Unwritten at h
  simp only [deviceRegisters, List.mem_cons, List.not_mem_nil, or_false]
  omega

/-- What a step leaves alone of what was constructed, whatever the state. -/
structure ConstructionKept (s t : State) : Prop where
  rom : t.cartridgeRom = s.cartridgeRom
  mode : t.bankingMode = s.bankingMode
  params : t.params = s.params
  joypad : t.joypadState = s.joypadState
  fault : t.fault = s.fault
  unwritten : ∀ k, Unwritten k → t.flatAt k = s.flatAt k

theorem Kept.construction {s t : State} (h : Kept s t) : ConstructionKept s t :=
  ⟨h.rom, h.mode, h.params, h.joypad, h.fault, h.unwritten⟩

theorem ConstructionKept.trans {s t u : State} (h : ConstructionKept s t) (k : ConstructionKept t u) :
    ConstructionKept s u :=
  ⟨k.rom.trans h.rom, k.mode.trans h.mode, k.params.trans h.params, k.joypad.trans h.joypad,
    k.fault.trans h.fault, fun a ha => (k.unwritten a ha).trans (h.unwritten a ha)⟩

theorem afterDevices_construction (u : State) : ConstructionKept (commitArmed u) (afterDevices u) := by
  obtain ⟨honly, hflat⟩ := afterDevices_frame u
  refine ⟨?_, ?_, ?_, ?_, ?_, fun k hk => hflat k (not_deviceRegister_of_unwritten hk)⟩ <;> rw [honly]

theorem step_construction {s t : State} (h : step s = .next t) : ConstructionKept s t := by
  obtain ⟨-, i, pc, u, -, -, hexec, hafter⟩ := step_next h
  rw [afterExecution_eq] at hafter
  have hfetched := (arm_kept s pc).trans ((exec_kept i _).of_next hexec)
  have hdispatch := ((dispatchInterrupts_ends _).of_next hafter).1
  exact (hfetched.trans (commitArmed_kept u)).construction.trans
    ((afterDevices_construction u).trans hdispatch.construction)

/-- Settles O15: fetching, executing and dispatching keep what writes keep, and the devices write none of
these cells. -/
theorem stepKeepsConstruction : Obligations.StepKeepsConstruction := by
  unfold Obligations.StepKeepsConstruction
  intro s t h
  obtain ⟨hrom, hmode, hparams, hjoypad, hfault, hunwritten⟩ := step_construction h
  exact ⟨hrom, hmode, hparams, hjoypad, hfault, hunwritten⟩

/-! ### The enables (`60_exceptions.md` section 3, `48_ext_control.md` section 2) -/

theorem changesEnable_eq_false {i : Instr} (hdi : i ≠ .di) (hei : i ≠ .ei) (hreti : i ≠ .reti) :
    changesEnable i = false := by
  unfold changesEnable
  split
  · exact absurd rfl hdi
  · exact absurd rfl hei
  · exact absurd rfl hreti
  · rfl

/-- The three instructions that change an enable belong to profile EXT (R133). -/
theorem changesEnable_of_inBase {i : Instr} (h : inBase i = true) : changesEnable i = false := by
  refine changesEnable_eq_false ?_ ?_ ?_ <;> rintro rfl <;> cases h

/-- Settles O17: every other instruction is made of register changes and writes. -/
theorem onlyControlInstructionsChangeEnables : Obligations.OnlyControlInstructionsChangeEnables := by
  unfold Obligations.OnlyControlInstructionsChangeEnables
  exact fun i s t hdi hei hreti h => (exec_enables i (changesEnable_eq_false hdi hei hreti) s).of_next h

theorem afterDevices_ime (u : State) : (afterDevices u).ime = (commitArmed u).ime := by
  rw [(afterDevices_frame u).1]

theorem afterDevices_eiPending (u : State) : (afterDevices u).eiPending = u.eiPending := by
  rw [(afterDevices_frame u).1]
  exact (commitArmed_fields u).2.2.1

theorem afterDevices_regs (u : State) : (afterDevices u).regs = u.regs := by
  rw [(afterDevices_frame u).1]
  exact (commitArmed_fields u).2.1

/-- Settles O16: an instruction of BASE keeps the low nibble of F and changes no enable, so with none pending
the latch stays clear, and the dispatch only clears IME. -/
theorem baseKeepsLowNibbleAndIme : Obligations.BaseKeepsLowNibbleAndIme := by
  unfold Obligations.BaseKeepsLowNibbleAndIme
  intro s t hprofile hei h
  obtain ⟨-, i, pc, u, -, hhandler, hexec, hafter⟩ := step_next h
  have hbase : inBase i = true := by
    rw [hprofile] at hhandler
    exact hhandler
  have hnibble := (exec_base_lowNibble hbase _).of_next hexec
  obtain ⟨hime, hpending, harmed⟩ := (exec_enables i (changesEnable_of_inBase hbase) _).of_next hexec
  have hunarmed : u.armed = false := harmed.trans hei
  rw [afterExecution_eq] at hafter
  obtain ⟨-, hdime, hdpending, -, hdf, -⟩ := (dispatchInterrupts_ends _).of_next hafter
  refine ⟨?_, fun ht => ?_, ?_⟩
  · rw [hdf, afterDevices_regs]
    exact hnibble
  · have hbefore := hdime ht
    rw [afterDevices_ime, commitArmed_of_unarmed hunarmed] at hbefore
    exact hime.symm.trans hbefore
  · rw [hdpending, afterDevices_eiPending]
    exact hpending

theorem exec_di (s : State) : exec .di s
    = .next { s with ime := false, eiPending := false, armed := false, lastCost := s.cost .di } := rfl

theorem exec_ei (s : State) : exec .ei s = .next { s with eiPending := true, lastCost := s.cost .ei } := rfl

/-- Only `DI` discards the latch of the running step. -/
theorem exec_armed {i : Instr} (hdi : i ≠ .di) (s : State) :
    Ends (exec i s) fun t => t.armed = s.armed := by
  by_cases hei : i = .ei
  · subst hei
    exact Ends.done rfl
  · by_cases hreti : i = .reti
    · subst hreti
      exact Ends.withByte fun _ _ => Ends.withByte fun _ _ => Ends.done rfl
    · exact (exec_enables i (changesEnable_eq_false hdi hei hreti) s).mono fun t ht => ht.2.2

theorem commitArmed_of_armed {s : State} (harmed : s.armed = true) : (commitArmed s).ime = true := by
  rw [commitArmed, if_pos harmed]

/-- Settles O38: the latch of the step, set from the pending enable, survives every instruction but `DI`, and
sets IME before the dispatch. -/
theorem enableIsDelayedByOneInstruction : Obligations.EnableIsDelayedByOneInstruction := by
  unfold Obligations.EnableIsDelayedByOneInstruction
  refine ⟨fun s => ⟨exec_di s, exec_ei s⟩, fun s u bytes i hf hd hb hh hexec => ⟨afterDevices u, ?_, ?_, ?_, ?_⟩⟩
  · rw [step_of_decode hf hd hb hh]
    exact congrArg (fun o => andThen o afterExecution) hexec
  · intro hei hdi
    rw [afterDevices_ime]
    exact commitArmed_of_armed (((exec_armed hdi _).of_next hexec).trans hei)
  · rintro rfl
    cases hexec
    rw [afterDevices_ime, afterDevices_eiPending]
    exact ⟨rfl, rfl⟩
  · rintro hei rfl
    cases hexec
    rw [afterDevices_ime, afterDevices_eiPending, commitArmed_of_unarmed hei]
    exact ⟨rfl, rfl⟩

/-! ### The frame loop meets its budget (`60_exceptions.md` R372) -/

/-- The steps of a run, one more at the front. -/
theorem RunsTo.cons {s u t : State} {n acc : Nat} (h : step s = .next u) (hrest : RunsTo n u acc t) :
    RunsTo (n + 1) s (u.lastCost + acc) t := ⟨u, acc, h, hrest, rfl⟩

/-- The outcome of a frame with `acc` cycles behind it: some steps below the budget, then a step that meets it
or stops. -/
def FrameEnds (budget acc : Nat) (s : State) : Out → Prop
  | .next t => ∃ n more u, RunsTo n s more u ∧ acc + more < budget ∧ step u = .next t ∧
      budget ≤ acc + more + t.lastCost
  | .fault f => ∃ n more u, RunsTo n s more u ∧ acc + more < budget ∧ step u = .fault f
  | .refused _ => False

/-- One step before a frame that ends. -/
theorem FrameEnds.step {budget acc : Nat} {s u : State} {o : Out} (h : step s = .next u)
    (hu : FrameEnds budget (acc + u.lastCost) u o) : FrameEnds budget acc s o := by
  cases o with
  | next t =>
    obtain ⟨n, more, w, hrun, hlt, hlast, hmet⟩ := hu
    exact ⟨n + 1, _, w, hrun.cons h, by omega, hlast, by omega⟩
  | fault f =>
    obtain ⟨n, more, w, hrun, hlt, hlast⟩ := hu
    exact ⟨n + 1, _, w, hrun.cons h, by omega, hlast⟩
  | refused r => exact hu

/-- A step costs at least one cycle, so the fuel lasts to the budget. -/
theorem runFrameFrom_ends (fuel acc : Nat) (s : State) (hacc : acc < s.params.frameBudget.val)
    (hfuel : s.params.frameBudget.val ≤ acc + fuel) :
    FrameEnds s.params.frameBudget.val acc s (runFrameFrom fuel acc s) := by
  induction fuel generalizing acc s with
  | zero => omega
  | succ fuel ih =>
    rw [runFrameFrom_below fuel hacc]
    obtain ⟨u, hu, hcost⟩ | ⟨cause, u, hu⟩ := step_outcome s
    · rw [hu, andThen_next]
      have hbudget : u.params.frameBudget.val = s.params.frameBudget.val := by
        rw [(step_construction hu).params]
      by_cases hmore : acc + u.lastCost < s.params.frameBudget.val
      · have hrest := ih (acc + u.lastCost) u (by omega) (by omega)
        rw [hbudget] at hrest
        exact hrest.step hu
      · rw [runFrameFrom_met fuel (by omega)]
        exact ⟨0, 0, s, ⟨rfl, rfl⟩, hacc, hu, by omega⟩
    · rw [hu, andThen_fault]
      exact ⟨0, 0, s, ⟨rfl, rfl⟩, hacc, hu⟩

/-- Settles O60: the frame is the loop from zero cycles, whose fuel is the budget. -/
theorem runFrameMeetsItsBudget : Obligations.RunFrameMeetsItsBudget := by
  unfold Obligations.RunFrameMeetsItsBudget
  intro s
  have hends := runFrameFrom_ends s.params.frameBudget.val 0 s s.params.frameBudget.pos (by omega)
  rw [← runFrame] at hends
  refine ⟨fun t ht => ?_, fun f hf => ?_, fun r hr => ?_⟩
  · rw [ht] at hends
    obtain ⟨n, acc, u, hrun, hlt, hstep, hmet⟩ := hends
    exact ⟨n, acc, u, hrun, by omega, hstep, by omega⟩
  · rw [hf] at hends
    obtain ⟨n, acc, u, hrun, hlt, hstep⟩ := hends
    exact ⟨n, acc, u, hrun, by omega, hstep⟩
  · rw [hr] at hends
    exact hends

end Sys2Proof.Machine

namespace Sys2Proof.Machine

/-! ### Parameters and the register file (`00_scope.md` R7, `10_state.md` R21) -/

/-- Settles O11: each default is read off `defaultParams` and its table. -/
theorem defaultParameters : Obligations.DefaultParameters := by
  unfold Obligations.DefaultParameters
  intro p cy
  exact ⟨rfl, rfl, rfl, rfl, rfl, rfl, rfl, by decide, by decide, by decide, by decide, by decide,
    by decide⟩

/-- Settles O18: a pair view is `wordOf` of its two registers, which `hiByte` and `loByte` undo, and the
register file's own laws say the rest. -/
theorem compositeViewsRoundTrip : Obligations.CompositeViewsRoundTrip := by
  unfold Obligations.CompositeViewsRoundTrip
  refine ⟨fun r v x => ⟨⟨wordOf_toNat _ _, wordOf_toNat _ _, wordOf_toNat _ _, wordOf_toNat _ _⟩,
    ⟨hiByte v, loByte v, hiByte_toNat v, loByte_toNat v, rfl, rfl, rfl, rfl, rfl, rfl, rfl⟩,
    ⟨wordOf_hiByte_loByte v, wordOf_hiByte_loByte v, wordOf_hiByte_loByte v, wordOf_hiByte_loByte v⟩,
    wordOf_toNat _ _, wordOf_toNat _ _, ⟨rfl, rfl, rfl, rfl, rfl, rfl, rfl, rfl, rfl⟩,
    ⟨rfl, rfl, rfl, rfl, rfl, rfl, rfl⟩, rfl, rfl, rfl, rfl, rfl, rfl, rfl⟩, fun r i j v => ?_⟩
  exact ⟨by rw [Registers.get_set, if_pos rfl], fun hne => by rw [Registers.get_set, if_neg hne],
    Registers.set_f r i v, Registers.set_sp r i v, Registers.set_pc r i v⟩

/-! ### Loads of registers and from memory (`41_loads.md`, `46_ext_loads_stack.md`) -/

/-- Settles O19: each of these meanings sets registers and the cost. -/
theorem registerLoads : Obligations.RegisterLoads := by
  unfold Obligations.RegisterLoads
  exact fun s dst src n p nn => ⟨rfl, rfl, rfl, rfl⟩

/-- A meaning that reads one byte and then sets registers. -/
theorem leavesRegs_of_read {s : State} {a : Word} {v : Byte} (h : read8 s a = .ok v) {k : Byte → Out}
    {r : Registers} {cost : Nat} (hk : LeavesRegs (k v) s r cost) : LeavesRegs (withByte s a k) s r cost :=
  (withByte_ok h k).trans hk

/-- Settles O20: a read that succeeds, then registers. -/
theorem memoryLoads : Obligations.MemoryLoads := by
  unfold Obligations.MemoryLoads
  intro s dst n nn v cy
  refine ⟨fun h => ⟨leavesRegs_of_read h rfl, leavesRegs_of_read h rfl, leavesRegs_of_read h rfl⟩,
    fun h => leavesRegs_of_read h rfl, fun h => leavesRegs_of_read h rfl,
    fun h => leavesRegs_of_read h rfl, fun h => ?_, fun h => ?_⟩
  · rw [← highPage_eq] at h
    exact leavesRegs_of_read h rfl
  · rw [← highPage_eq] at h
    exact leavesRegs_of_read h rfl

/-! ### Loads to memory (`41_loads.md`, `46_ext_loads_stack.md`) -/

/-- A write followed by the plain end of a meaning. -/
theorem storesTo_done (s : State) (a : Word) (v : Byte) (cost : Nat) :
    StoresTo (andThen (write8 a v s) (done cost)) s a v s.regs cost :=
  storesTo_of _ rfl fun _ ht => done_of_regs ht cost

/-- A write followed by a move of HL. -/
theorem storesTo_setHl (s : State) (a : Word) (v : Byte) (cost : Nat) (move : Word → Word) :
    StoresTo (andThen (write8 a v s) fun t => done cost (t.setHl (move t.hl))) s a v
      (s.regs.setPair .hl (move s.regs.hl)) cost := by
  refine storesTo_of _ rfl fun t ht => ?_
  simp only [done, State.setHl, State.setPair, State.hl, ht]

/-- Settles O21: each of these meanings is one write and its end. -/
theorem storingLoads : Obligations.StoringLoads := by
  unfold Obligations.StoringLoads
  intro s src n nn cy
  refine ⟨storesTo_done s _ _ _, storesTo_done s _ _ _, fun v h => ?_, storesTo_done s _ _ _,
    storesTo_done s _ _ _, storesTo_done s _ _ _, storesTo_setHl s _ _ _ (· + 1),
    storesTo_setHl s _ _ _ (· - 1), ?_, ?_⟩
  · have hread : exec .ldHlHl s = andThen (write8 s.hl v s) (done (s.cost .ldHlHl)) := withByte_ok h _
    rw [hread]
    exact storesTo_done s _ _ _
  · rw [← highPage_eq]
    exact storesTo_done s _ _ _
  · rw [← highPage_eq]
    exact storesTo_done s _ _ _

/-- `LD (nn),SP` is two writes, of the bytes of SP as they were, and the end. -/
theorem exec_ldNnSp (nn : Word) (s : State) :
    exec (.ldNnSp nn) s = andThen (write8 nn (loByte s.regs.sp) s) fun u =>
      andThen (write8 (nn + 1) (hiByte s.regs.sp) u) (done (s.cost (.ldNnSp nn))) := by
  simp only [exec, execLdNnSp]
  cases hw : write8 nn (loByte s.regs.sp) s with
  | next u =>
    have hregs := ((write8_ends _ _ _).of_next hw).2.regs
    simp only [andThen_next, hregs]
  | fault f => simp only [andThen_fault]
  | refused r => simp only [andThen]

/-- Settles O22: the low byte first, then the high byte, each through the write path. -/
theorem stackPointerStore : Obligations.StackPointerStore := by
  unfold Obligations.StackPointerStore
  intro s nn lo hi cy hlo hhi
  obtain rfl : lo = loByte s.regs.sp := BitVec.eq_of_toNat_eq (hlo.trans (loByte_toNat _).symm)
  obtain rfl : hi = hiByte s.regs.sp := BitVec.eq_of_toNat_eq (hhi.trans (hiByte_toNat _).symm)
  rw [exec_ldNnSp]
  refine ⟨fun u w hu hw => ?_, fun f hf => ?_, fun u f hu hf => ?_, fun h0 h1 => ⟨?_, ?_, fun b hb hb1 => ?_⟩⟩
  · rw [hu, andThen_next, hw]
    rfl
  · rw [hf, andThen_fault]
  · rw [hu, andThen_next, hf, andThen_fault]
  · rw [write8_store h0, andThen_next, write8_store h1]
    rfl
  · exact (storeByte_onlyStores s nn _).trans (storeByte_onlyStores _ (nn + 1) _)
  · rw [storeByte_read8 h1 _ hb1, storeByte_read8 h0 _ hb]

end Sys2Proof.Machine

namespace Sys2Proof.Machine

/-! ### Numbers and bytes (`00_scope.md` R10) -/

/-- An integer narrows to the byte of any natural number that it equals modulo 256. -/
theorem ofInt_eq_ofNat {x : Int} {n : Nat} (h : x % 256 = (n : Int) % 256) :
    BitVec.ofInt 8 x = BitVec.ofNat 8 n := by
  apply BitVec.eq_of_toNat_eq
  simp only [BitVec.toNat_ofInt, BitVec.toNat_ofNat]
  omega

theorem beq_zero_toNat (x : Byte) : (x == 0) = decide (x.toNat = 0) := by
  rw [Bool.eq_iff_iff]
  simp [← BitVec.toNat_inj]

theorem flagBit_toNat (b : Bool) : b.toNat = if b then 1 else 0 := by cases b <;> rfl

/-! ### Operations of A with the byte at HL (`42_add_sub.md`, `43_xor.md`, `47_ext_alu.md`) -/

section AtHl
variable {s : State} {v : Byte} (h : read8 s s.regs.hl = .ok v)
include h

theorem exec_addHl : exec .addHl s = storeA (s.cost .addHl) (add8 s.a v false) s := withByte_ok h _
theorem exec_adcHl : exec .adcHl s = storeA (s.cost .adcHl) (add8 s.a v s.regs.flagC) s := withByte_ok h _
theorem exec_subHl : exec .subHl s = storeA (s.cost .subHl) (sub8 s.a v false) s := withByte_ok h _
theorem exec_sbcHl : exec .sbcHl s = storeA (s.cost .sbcHl) (sub8 s.a v s.regs.flagC) s := withByte_ok h _
theorem exec_cpHl : exec .cpHl s = storeFlags (s.cost .cpHl) (sub8 s.a v false) s := withByte_ok h _
theorem exec_andHl : exec .andHl s = storeA (s.cost .andHl) (and8 s.a v) s := withByte_ok h _
theorem exec_orHl : exec .orHl s = storeA (s.cost .orHl) (or8 s.a v) s := withByte_ok h _
theorem exec_xorHl : exec .xorHl s = storeA (s.cost .xorHl) (xor8 s.a v) s := withByte_ok h _

end AtHl

/-! ### Addition and subtraction (`42_add_sub.md` R190 to R193) -/

/-- The sum and its flags as numbers, the carry-in folded into the operand, unreduced. -/
theorem add8_fields (a v : Byte) (carry : Bool) {operand total : Nat}
    (hoperand : operand = v.toNat + (if carry then 1 else 0)) (htotal : total = a.toNat + operand) :
    add8 a v carry
      = { value := BitVec.ofNat 8 total
          z := decide (total % 256 = 0)
          n := false
          h := decide (15 < a.toNat % 16 + operand % 16)
          c := decide (255 < total) } := by
  have hfold : v.toNat + carry.toNat = operand := by rw [flagBit_toNat, hoperand]
  simp only [add8, hfold, ← htotal, beq_zero_ofNat, gt_iff_lt]

/-- The difference and its flags as numbers, the borrow-in folded into the operand. -/
theorem sub8_fields (a v : Byte) (borrow : Bool) {operand : Nat}
    (hoperand : operand = v.toNat + (if borrow then 1 else 0)) :
    sub8 a v borrow
      = { value := BitVec.ofNat 8 (a.toNat + 512 - operand)
          z := decide ((a.toNat + 512 - operand) % 256 = 0)
          n := true
          h := decide (a.toNat % 16 < operand % 16)
          c := decide (a.toNat < operand) } := by
  have hfold : v.toNat + borrow.toNat = operand := by rw [flagBit_toNat, hoperand]
  have hle : operand ≤ 512 := by
    have := v.isLt
    have : (if borrow then 1 else 0) ≤ 1 := by split <;> decide
    omega
  have hvalue : BitVec.ofInt 8 ((a.toNat : Int) - operand) = BitVec.ofNat 8 (a.toNat + 512 - operand) :=
    ofInt_eq_ofNat (by omega)
  simp only [sub8, hfold, hvalue, beq_zero_ofNat]

/-- Settles O23: every operand form is `add8` of the same byte. -/
theorem addAndAddWithCarry : Obligations.AddAndAddWithCarry := by
  unfold Obligations.AddAndAddWithCarry
  intro s v cy sum
  have hadd : ∀ carry cost, sum (storeA cost (add8 s.a v carry) s) carry cost := by
    intro carry cost operand total hoperand htotal
    rw [add8_fields s.a v carry hoperand htotal]
    exact storeA_leaves s _ cost rfl rfl rfl rfl rfl
  refine ⟨?_, fun h => ⟨?_, ?_⟩, hadd false _, hadd _ _⟩
  · rintro src rfl
    exact ⟨hadd false _, hadd _ _⟩
  · rw [exec_addHl h]
    exact hadd false _
  · rw [exec_adcHl h]
    exact hadd _ _

/-- Settles O24: every operand form is `sub8` of the same byte, stored or not. -/
theorem subtractAndCompare : Obligations.SubtractAndCompare := by
  unfold Obligations.SubtractAndCompare
  intro s v cy flags difference compare
  have hsub : ∀ borrow cost, difference (storeA cost (sub8 s.a v borrow) s) borrow cost := by
    intro borrow cost operand hoperand
    rw [sub8_fields s.a v borrow hoperand]
    exact storeA_leaves s _ cost rfl rfl rfl rfl rfl
  have hcp : ∀ cost, compare (storeFlags cost (sub8 s.a v false) s) cost := by
    intro cost
    rw [sub8_fields s.a v false rfl]
    exact storeFlags_leaves s _ cost rfl rfl rfl rfl
  refine ⟨?_, fun h => ⟨?_, ?_, ?_⟩, hsub false _, hsub _ _, hcp _⟩
  · rintro src rfl
    exact ⟨hsub false _, hsub _ _, hcp _⟩
  · rw [exec_subHl h]
    exact hsub false _
  · rw [exec_sbcHl h]
    exact hsub _ _
  · rw [exec_cpHl h]
    exact hcp _

/-- Settles O25: every operand form is the bitwise operation of the same byte. -/
theorem bitwiseLogic : Obligations.BitwiseLogic := by
  unfold Obligations.BitwiseLogic
  intro s v cy logic
  have hand : ∀ cost, logic (storeA cost (and8 s.a v) s) (· && ·) true cost := fun cost =>
    ⟨s.a &&& v, fun k _ => BitVec.getLsbD_and, storeA_leaves s _ cost rfl (beq_zero_toNat _) rfl rfl rfl⟩
  have hor : ∀ cost, logic (storeA cost (or8 s.a v) s) (· || ·) false cost := fun cost =>
    ⟨s.a ||| v, fun k _ => BitVec.getLsbD_or, storeA_leaves s _ cost rfl (beq_zero_toNat _) rfl rfl rfl⟩
  have hxor : ∀ cost, logic (storeA cost (xor8 s.a v) s) Bool.xor false cost := fun cost =>
    ⟨s.a ^^^ v, fun k _ => BitVec.getLsbD_xor, storeA_leaves s _ cost rfl (beq_zero_toNat _) rfl rfl rfl⟩
  refine ⟨?_, fun h => ?_, hand _, hor _, hxor _⟩
  · rintro src rfl
    exact ⟨hand _, hor _, hxor _⟩
  · rw [exec_andHl h, exec_orHl h, exec_xorHl h]
    exact ⟨hand _, hor _, hxor _⟩

/-! ### Increments and decrements (`47_ext_alu.md` R260 to R263) -/

theorem incFlags_flagsAre (v f : Byte) :
    FlagsAre f (incFlags v f) (decide (v.toNat = 255)) false (decide (v.toNat % 16 = 15)) (f.getLsbD 4) := by
  refine (setFlags_flagsAre f _ _ _ _).cast ?_ rfl rfl rfl
  rw [Option.getD_some, beq_zero_toNat, decide_eq_decide]
  bv_omega

theorem decFlags_flagsAre (v f : Byte) :
    FlagsAre f (decFlags v f) (decide (v.toNat = 1)) true (decide (v.toNat % 16 = 0)) (f.getLsbD 4) := by
  refine (setFlags_flagsAre f _ _ _ _).cast ?_ rfl rfl rfl
  rw [Option.getD_some, beq_zero_toNat, decide_eq_decide]
  bv_omega

/-- Settles O26: the flags are those of the byte before, in the register form and in the memory form. -/
theorem incrementDecrementByte : Obligations.IncrementDecrementByte := by
  unfold Obligations.IncrementDecrementByte
  intro s dst v cy
  refine ⟨?_, fun h => ⟨storesFlags_of (incFlags v) (withByte_ok h _) (incFlags_flagsAre v _),
    storesFlags_of (decFlags v) (withByte_ok h _) (decFlags_flagsAre v _)⟩⟩
  rintro rfl
  exact ⟨⟨_, incFlags_flagsAre _ _, rfl⟩, ⟨_, decFlags_flagsAre _ _, rfl⟩⟩

/-! ### Words (`47_ext_alu.md` R264 to R267, `46_ext_loads_stack.md` R239) -/

theorem word_add_ofNat (x y : Word) : BitVec.ofNat 16 (x.toNat + y.toNat) = x + y :=
  BitVec.eq_of_toNat_eq (by rw [BitVec.toNat_ofNat, BitVec.toNat_add])

/-- Settles O27: word sums as numbers, and the flags of `addHlFlags`. -/
theorem wordArithmetic : Obligations.WordArithmetic := by
  unfold Obligations.WordArithmetic
  intro s p cy
  have hinc : BitVec.ofNat 16 ((s.regs.getPair p).toNat + 1) = s.regs.getPair p + 1 :=
    word_add_ofNat _ 1
  have hdec : BitVec.ofNat 16 ((s.regs.getPair p).toNat + 65535) = s.regs.getPair p - 1 := by
    bv_omega
  rw [hinc, hdec, word_add_ofNat]
  exact ⟨rfl, rfl, _, setFlags_flagsAre _ _ _ _ _, rfl⟩

/-- Settles O28: the target is SP plus the sign extension of the displacement. -/
theorem stackPointerOffset : Obligations.StackPointerOffset := by
  unfold Obligations.StackPointerOffset
  intro s e target cy h
  obtain rfl := eq_add_sext8 h
  exact ⟨_, setFlags_flagsAre _ _ _ _ _, rfl, rfl⟩

/-! ### Decimal adjust (`47_ext_alu.md` R268) -/

/-- `DAA` with its two corrections known and the adjusted accumulator as a number. -/
theorem daa8_eq {a f : Byte} {high low : Bool} {total : Nat} {correction : Int}
    (hhigh : (bitOf f 4 || (!bitOf f 6 && decide (0x99 < a.toNat))) = high)
    (hlow : (bitOf f 5 || (!bitOf f 6 && decide (9 < a.toNat % 16))) = low)
    (hcorrection : (if high then 0x60 else 0) + (if low then 0x06 else 0) = correction)
    (htotal : (if bitOf f 6 then (a.toNat : Int) - correction else a.toNat + correction) % 256
      = (total : Int) % 256) :
    daa8 a f = (BitVec.ofNat 8 total,
      setFlags f (some (decide (total % 256 = 0))) none (some false) (some high)) := by
  have hcast : decide ((a.toNat : Int) > 0x99) = decide (0x99 < a.toNat) := by
    rw [decide_eq_decide]
    omega
  simp only [daa8, hcast, gt_iff_lt, hhigh, hlow, hcorrection, ofInt_eq_ofNat htotal, beq_zero_ofNat]

theorem exec_daa_leaves {s : State} {value : Byte} {z high : Bool}
    (h : daa8 s.regs.a s.regs.f = (value, setFlags s.regs.f (some z) none (some false) (some high))) :
    LeavesA (exec .daa s) s value z (s.regs.f.getLsbD 6) false high (s.cost .daa) := by
  have hexec : exec .daa s = done (s.cost .daa)
      ((s.setA value).setF (setFlags s.regs.f (some z) none (some false) (some high))) := by
    simp only [exec, execDaa, State.a, h]
  exact ⟨_, setFlags_flagsAre _ _ _ _ _, hexec⟩

/-- Settles O29: both directions of the correction, with N kept. -/
theorem decimalAdjust : Obligations.DecimalAdjust := by
  unfold Obligations.DecimalAdjust
  intro s high low cy
  refine ⟨fun hn hhigh hlow total htotal => ?_, fun hn hhigh hlow total htotal => ?_⟩
  all_goals
    have hbit : bitOf s.regs.f 6 = _ := hn
    have hdaa := exec_daa_leaves (daa8_eq (a := s.regs.a) (f := s.regs.f) (high := high) (low := low)
      (total := total) (by rw [hbit, hhigh]; simp [bitOf]) (by rw [hbit, hlow]; simp [bitOf])
      rfl (by rw [hbit]; cases high <;> cases low <;> simp at htotal ⊢ <;> omega))
    rw [hn] at hdaa
    exact hdaa

end Sys2Proof.Machine

namespace Sys2Proof.Machine

/-! ### Bits and numbers (`00_scope.md` R10) -/

/-- Bit 0 is the parity. -/
theorem bitOf_zero (v : Byte) : bitOf v 0 = decide (v.toNat % 2 = 1) := Nat.testBit_zero v.toNat

/-- Bit 7 is the upper half. -/
theorem bitOf_seven (v : Byte) : bitOf v 7 = decide (128 ≤ v.toNat) :=
  (BitVec.msb_eq_getLsbD_last v).symm.trans (BitVec.msb_eq_decide v)

theorem bitOf_zero_toNat (v : Byte) : (bitOf v 0).toNat = v.toNat % 2 := by
  rw [bitOf_zero, flagBit_toNat]
  simp only [decide_eq_true_eq]
  split <;> omega

theorem bitOf_seven_toNat (v : Byte) : (bitOf v 7).toNat = v.toNat / 128 := by
  have := v.isLt
  rw [bitOf_seven, flagBit_toNat]
  simp only [decide_eq_true_eq]
  split <;> omega

/-- A bit that is clear, written as `b`, adds its weight or nothing. -/
theorem withBit_toNat {v : Byte} {i : Nat} (hi : i < 8) (hclear : bitOf v i = false) (b : Bool) :
    (withBit v i b).toNat = v.toNat + b.toNat * 2 ^ i := by
  cases b with
  | false =>
    have hsame : withBit v i false = v := byte_ext fun k _ => by
      rw [withBit_getLsbD _ _ _ _ hi]
      split
      · next hk => rw [hk, ← hclear, bitOf]
      · rfl
    simp [hsame]
  | true =>
    have hdisjoint : v &&& ((1 : Byte) <<< i) = 0#8 := byte_ext fun k _ => by
      by_cases hk : k = i
      · subst hk
        rw [BitVec.getLsbD_and, ← bitOf, hclear]
        simp
      · have : ((1 : Byte) <<< i).getLsbD k = false := by
          interval_cases i <;> interval_cases k <;> simp at hk ⊢
        rw [BitVec.getLsbD_and, this]
        simp
    have hweight : ((1 : Byte) <<< i).toNat = 2 ^ i := by interval_cases i <;> rfl
    rw [withBit, if_pos rfl, ← BitVec.add_eq_or_of_and_eq_zero _ _ hdisjoint,
      BitVec.toNat_add_of_and_eq_zero hdisjoint, hweight]
    simp

theorem shiftRight_toNat (v : Byte) : (v >>> 1).toNat = v.toNat / 2 := by
  simp [Nat.shiftRight_eq_div_pow]

theorem shiftLeft_toNat (v : Byte) : (v <<< 1).toNat = v.toNat * 2 % 256 := by
  simp [Nat.shiftLeft_eq]

/-- A right shift with `b` entering at bit 7, as a number. -/
theorem enterHigh_eq (v : Byte) (b : Bool) :
    withBit (v >>> 1) 7 b = BitVec.ofNat 8 (b.toNat * 128 + v.toNat / 2) := by
  have hclear : bitOf (v >>> 1) 7 = false := by simp [bitOf]
  have := v.isLt
  have := b.toNat_le
  apply BitVec.eq_of_toNat_eq
  rw [withBit_toNat (by decide) hclear, shiftRight_toNat, BitVec.toNat_ofNat]
  omega

/-- A left shift with `b` entering at bit 0, as a number. -/
theorem enterLow_eq (v : Byte) (b : Bool) :
    withBit (v <<< 1) 0 b = BitVec.ofNat 8 (v.toNat * 2 + b.toNat) := by
  have hclear : bitOf (v <<< 1) 0 = false := by simp [bitOf]
  have := b.toNat_le
  apply BitVec.eq_of_toNat_eq
  rw [withBit_toNat (by decide) hclear, shiftLeft_toNat, BitVec.toNat_ofNat]
  omega

/-! ### The shifts as numbers (`44_rotate_right.md`, `49_ext_cb.md` section 1) -/

theorem rotR_eq (v : Byte) (carry : Bool) :
    rotR v carry = ⟨BitVec.ofNat 8 (carry.toNat * 128 + v.toNat / 2), decide (v.toNat % 2 = 1)⟩ := by
  rw [rotR, enterHigh_eq, bitOf_zero]

theorem rotRC_eq (v : Byte) :
    rotRC v = ⟨BitVec.ofNat 8 (v.toNat % 2 * 128 + v.toNat / 2), decide (v.toNat % 2 = 1)⟩ := by
  rw [rotRC, enterHigh_eq, bitOf_zero_toNat, bitOf_zero]

theorem rotL_eq (v : Byte) (carry : Bool) :
    rotL v carry = ⟨BitVec.ofNat 8 (v.toNat * 2 + carry.toNat), decide (128 ≤ v.toNat)⟩ := by
  rw [rotL, enterLow_eq, bitOf_seven]

theorem rotLC_eq (v : Byte) :
    rotLC v = ⟨BitVec.ofNat 8 (v.toNat * 2 + v.toNat / 128), decide (128 ≤ v.toNat)⟩ := by
  rw [rotLC, enterLow_eq, bitOf_seven_toNat, bitOf_seven]

theorem shiftLA_eq (v : Byte) :
    shiftLA v = ⟨BitVec.ofNat 8 (v.toNat * 2), decide (128 ≤ v.toNat)⟩ := by
  have hvalue : v <<< 1 = BitVec.ofNat 8 (v.toNat * 2) :=
    BitVec.eq_of_toNat_eq (by rw [shiftLeft_toNat, BitVec.toNat_ofNat])
  rw [shiftLA, hvalue, bitOf_seven]

theorem shiftRA_eq (v : Byte) :
    shiftRA v = ⟨BitVec.ofNat 8 (v.toNat / 128 * 128 + v.toNat / 2), decide (v.toNat % 2 = 1)⟩ := by
  rw [shiftRA, enterHigh_eq, bitOf_seven_toNat, bitOf_zero]

theorem shiftRL_eq (v : Byte) :
    shiftRL v = ⟨BitVec.ofNat 8 (v.toNat / 2), decide (v.toNat % 2 = 1)⟩ := by
  have hvalue : v >>> 1 = BitVec.ofNat 8 (v.toNat / 2) := by
    have := v.isLt
    refine BitVec.eq_of_toNat_eq ?_
    rw [shiftRight_toNat, BitVec.toNat_ofNat]
    omega
  rw [shiftRL, hvalue, bitOf_zero]

theorem swap8_eq (v : Byte) :
    swap8 v = ⟨BitVec.ofNat 8 (v.toNat % 16 * 16 + v.toNat / 16), false⟩ := by
  have hhigh : (v <<< 4).toNat = (v.toNat % 16) <<< 4 := by
    simp only [BitVec.toNat_shiftLeft, Nat.shiftLeft_eq]
    omega
  have hlow : (v >>> 4).toNat = v.toNat / 16 := by simp [Nat.shiftRight_eq_div_pow]
  have hvalue : v <<< 4 ||| v >>> 4 = BitVec.ofNat 8 (v.toNat % 16 * 16 + v.toNat / 16) := by
    have := v.isLt
    apply BitVec.eq_of_toNat_eq
    rw [BitVec.toNat_or, hhigh, hlow, ← Nat.shiftLeft_add_eq_or_of_lt (by omega), BitVec.toNat_ofNat,
      Nat.shiftLeft_eq]
    omega
  rw [swap8, hvalue]

/-! ### Rotates of A (`44_rotate_right.md` R216, `47_ext_alu.md` R269 to R274) -/

theorem rotateA_leaves (s : State) (r : ShiftResult) (cost : Nat) :
    LeavesA (rotateA cost r s) s r.value false false false r.carry cost :=
  ⟨_, setFlags_flagsAre _ _ _ _ _, rfl⟩

theorem complement_eq (a : Byte) : a ^^^ 0xFF = BitVec.ofNat 8 (255 - a.toNat) := by
  rw [show (0xFF : Byte) = BitVec.allOnes 8 from rfl, BitVec.xor_allOnes]
  apply BitVec.eq_of_toNat_eq
  rw [BitVec.toNat_not, BitVec.toNat_ofNat]
  omega

/-- Settles O30: each rotate by its number, and the three operations on flags. -/
theorem accumulatorRotatesAndComplements : Obligations.AccumulatorRotatesAndComplements := by
  unfold Obligations.AccumulatorRotatesAndComplements
  intro s a cin cy ha hcin
  have hcarry : s.regs.flagC.toNat = cin := by rw [flagBit_toNat, hcin, Registers.flagC, bitOf]
  have hrotate : ∀ (r : ShiftResult) (value : Byte) (c : Bool) (cost : Nat), r = ⟨value, c⟩ →
      LeavesA (rotateA cost r s) s value false false false c cost := by
    rintro r value c cost rfl
    exact rotateA_leaves s _ cost
  subst ha
  refine ⟨hrotate _ _ _ _ ?_, hrotate _ _ _ _ (rotRC_eq _), hrotate _ _ _ _ ?_,
    hrotate _ _ _ _ (rotLC_eq _), ?_, ⟨_, setFlags_flagsAre _ _ _ _ _, rfl⟩,
    ⟨_, setFlags_flagsAre _ _ _ _ _, rfl⟩⟩
  · rw [← hcarry]
    exact rotR_eq _ _
  · rw [← hcarry]
    exact rotL_eq _ _
  · rw [← complement_eq]
    exact ⟨_, setFlags_flagsAre _ _ _ _ _, rfl⟩

/-! ### Shifts of a register and of the byte at HL (`49_ext_cb.md` R300) -/

theorem shiftFlags_flagsAre (f : Byte) (result : Nat) (c : Bool) :
    FlagsAre f (ShiftResult.flags ⟨BitVec.ofNat 8 result, c⟩ f) (decide (result % 256 = 0)) false false c := by
  refine (setFlags_flagsAre f _ _ _ _).cast ?_ rfl rfl rfl
  exact beq_zero_ofNat result

/-- The register form of a shift whose result is known. -/
theorem shiftReg_leaves {s : State} {op : Byte → ShiftResult} {r : Reg8} {byte : Byte} (hr : s.regs.get r = byte)
    {result : Nat} {c : Bool} (hop : op byte = ⟨BitVec.ofNat 8 result, c⟩) (cost : Nat) :
    LeavesReg (shiftReg cost op r s) s r (BitVec.ofNat 8 result) (decide (result % 256 = 0)) false false c
      cost := by
  have hexec : shiftReg cost op r s
      = done cost ((s.setReg r (BitVec.ofNat 8 result)).setF
          ((⟨BitVec.ofNat 8 result, c⟩ : ShiftResult).flags s.regs.f)) := by
    simp only [shiftReg, State.reg, hr, hop]
  exact ⟨_, shiftFlags_flagsAre _ result c, hexec⟩

/-- The memory form of a shift whose result is known. -/
theorem shiftMem_stores {s : State} {op : Byte → ShiftResult} {byte : Byte} (h : read8 s s.regs.hl = .ok byte)
    {result : Nat} {c : Bool} (hop : op byte = ⟨BitVec.ofNat 8 result, c⟩) (cost : Nat) :
    StoresFlags (shiftMem cost op s) s s.regs.hl (BitVec.ofNat 8 result) (decide (result % 256 = 0)) false
      false c cost := by
  have hexec : shiftMem cost op s = andThen (write8 s.regs.hl (op byte).value s)
      fun t => done cost (t.setF ((op byte).flags t.regs.f)) := withByte_ok h _
  rw [hop] at hexec
  exact storesFlags_of (ShiftResult.flags ⟨BitVec.ofNat 8 result, c⟩) hexec
    (shiftFlags_flagsAre _ result c)

/-- Settles O31: both forms of a shift by its number. -/
theorem rotatesAndShifts : Obligations.RotatesAndShifts := by
  unfold Obligations.RotatesAndShifts
  intro s r byte v cin cy hv hcin both
  have hcarry : s.regs.flagC.toNat = cin := by rw [flagBit_toNat, hcin, Registers.flagC, bitOf]
  have hforms : ∀ (op : Byte → ShiftResult) (reg mem : Instr) (costReg costMem : Config.Cost) (result : Nat)
      (c : Bool), exec reg s = shiftReg costReg.toNat op r s → exec mem s = shiftMem costMem.toNat op s →
      op byte = ⟨BitVec.ofNat 8 result, c⟩ → both reg mem costReg costMem result c := by
    intro op reg mem costReg costMem result c hreg hmem hop
    refine ⟨fun hr => ?_, fun h => ?_⟩
    · rw [hreg]
      exact shiftReg_leaves hr hop _
    · rw [hmem]
      exact shiftMem_stores h hop _
  subst hv
  refine ⟨hforms _ _ _ _ _ _ _ rfl rfl ?_, hforms _ _ _ _ _ _ _ rfl rfl (rotRC_eq _),
    hforms _ _ _ _ _ _ _ rfl rfl ?_, hforms _ _ _ _ _ _ _ rfl rfl (rotLC_eq _),
    hforms _ _ _ _ _ _ _ rfl rfl (shiftLA_eq _), hforms _ _ _ _ _ _ _ rfl rfl (shiftRA_eq _),
    hforms _ _ _ _ _ _ _ rfl rfl (swap8_eq _), hforms _ _ _ _ _ _ _ rfl rfl (shiftRL_eq _)⟩
  · rw [← hcarry]
    exact rotR_eq _ _
  · rw [← hcarry]
    exact rotL_eq _ _

/-! ### Bit operations (`45_bit_test.md`, `49_ext_cb.md` section 2) -/

/-- A byte read at HL and written back changed. -/
theorem modifyMem_stores {s : State} {op : Byte → Byte} {v w : Byte} (h : read8 s s.regs.hl = .ok v)
    (hop : op v = w) (cost : Nat) : StoresTo (modifyMem cost op s) s s.regs.hl w s.regs cost := by
  have hexec : modifyMem cost op s = andThen (write8 s.regs.hl (op v) s) (done cost) := withByte_ok h _
  rw [hexec, hop]
  exact storesTo_done s _ _ _

/-- Settles O32: a cleared or set byte is `withBit`, bit by bit. -/
theorem bitOperations : Obligations.BitOperations := by
  unfold Obligations.BitOperations
  intro s bit r v cleared set cy hbit hcleared hset
  obtain rfl : withBit v bit false = cleared := byte_ext fun k hk => by
    rw [withBit_getLsbD _ _ _ _ hbit, hcleared k hk]
    by_cases h : k = bit <;> simp [h]
  obtain rfl : withBit v bit true = set := byte_ext fun k hk => by
    rw [withBit_true_getLsbD _ hbit, hset k hk]
  refine ⟨?_, fun h => ⟨?_, modifyMem_stores h rfl _, modifyMem_stores h rfl _⟩⟩
  · rintro rfl
    exact ⟨⟨_, setFlags_flagsAre _ _ _ _ _, rfl⟩, rfl, rfl⟩
  · exact ⟨_, setFlags_flagsAre _ _ _ _ _, leavesRegs_of_read h rfl⟩

end Sys2Proof.Machine

namespace Sys2Proof.Machine

/-! ### Jumps (`48_ext_control.md` section 1) -/

section Conditional
variable {s : State} {cc : Cond}

theorem exec_jpCcNn_taken (h : s.regs.holds cc = true) (nn : Word) :
    exec (.jpCcNn cc nn) s = done (s.cost (.jpCcNn cc nn)) (s.setPc nn) := if_pos h

theorem exec_jpCcNn_notTaken (h : ¬ s.regs.holds cc = true) (nn : Word) :
    exec (.jpCcNn cc nn) s = done (s.costNotTaken (.jpCcNn cc nn)) s := if_neg h

theorem exec_jrCcE_taken (h : s.regs.holds cc = true) (e : Byte) :
    exec (.jrCcE cc e) s = done (s.cost (.jrCcE cc e)) (s.setPc (s.regs.pc + sext8 e)) := if_pos h

theorem exec_jrCcE_notTaken (h : ¬ s.regs.holds cc = true) (e : Byte) :
    exec (.jrCcE cc e) s = done (s.costNotTaken (.jrCcE cc e)) s := if_neg h

theorem exec_callCcNn_taken (h : s.regs.holds cc = true) (nn : Word) :
    exec (.callCcNn cc nn) s = callTo (s.cost (.callCcNn cc nn)) nn s := if_pos h

theorem exec_callCcNn_notTaken (h : ¬ s.regs.holds cc = true) (nn : Word) :
    exec (.callCcNn cc nn) s = done (s.costNotTaken (.callCcNn cc nn)) s := if_neg h

theorem exec_retCc_taken (h : s.regs.holds cc = true) :
    exec (.retCc cc) s = pop16 s fun v t => done (s.cost (.retCc cc)) (t.setPc v) := if_pos h

theorem exec_retCc_notTaken (h : ¬ s.regs.holds cc = true) :
    exec (.retCc cc) s = done (s.costNotTaken (.retCc cc)) s := if_neg h

end Conditional

/-- Settles O33: the relative target is the address after the instruction plus the sign extension. -/
theorem jumps : Obligations.Jumps := by
  unfold Obligations.Jumps
  intro s nn target e cc cy h
  obtain rfl := eq_add_sext8 h
  rw [condHolds_iff]
  refine ⟨rfl, rfl, rfl, fun hc => ?_, fun hc => ?_⟩
  · rw [exec_jpCcNn_taken hc, exec_jrCcE_taken hc]
    exact ⟨rfl, rfl⟩
  · rw [exec_jpCcNn_notTaken hc, exec_jrCcE_notTaken hc]
    exact ⟨rfl, rfl⟩

/-! ### Calls, returns and the stack (`60_exceptions.md` R346) -/

/-- A call pushes the address of the next instruction. -/
theorem callTo_pushesThen (s : State) (target : Word) (cost : Nat) :
    PushesThen (callTo cost target s) s s.regs.pc target cost := by
  refine pushesThen_of _ rfl fun t hregs _ => ?_
  simp only [done, State.setPc, hregs]

/-- Settles O34: taken, each is `callTo`. -/
theorem callsAndRestarts : Obligations.CallsAndRestarts := by
  unfold Obligations.CallsAndRestarts
  intro s nn cc t cy
  rw [condHolds_iff]
  refine ⟨callTo_pushesThen s _ _, fun _ => callTo_pushesThen s _ _, fun hc => ?_, fun hc => ?_⟩
  · rw [exec_callCcNn_taken hc]
    exact callTo_pushesThen s _ _
  · rw [exec_callCcNn_notTaken hc]
    rfl

theorem exec_ret (s : State) :
    exec .ret s = pop16 s fun v t => done (s.cost .ret) (t.setPc v) := rfl

theorem exec_reti (s : State) :
    exec .reti s = pop16 s fun v t => done (s.cost .reti) { t.setPc v with ime := true } := rfl

theorem exec_push (q : StackPair) (s : State) :
    exec (.push q) s = andThen (push16 (s.regs.getStackPair q) s) (done (s.cost (.push q))) := rfl

theorem exec_pop (q : StackPair) (s : State) :
    exec (.pop q) s = pop16 s fun v t => done (s.cost (.pop q)) (t.setStackPair q v) := rfl

/-- A word is its two bytes, given as numbers. -/
theorem eq_wordOf {w : Word} {hi lo : Byte} (h : w.toNat = hi.toNat * 256 + lo.toNat) : w = wordOf hi lo :=
  BitVec.eq_of_toNat_eq (h.trans (wordOf_toNat hi lo).symm)

/-- Settles O35: both bytes of the target are popped, low byte first. -/
theorem returns : Obligations.Returns := by
  unfold Obligations.Returns
  intro s cc lo hi target cy
  rw [condHolds_iff]
  refine ⟨fun hlo hhi htarget => ?_, fun hc => ?_⟩
  · obtain rfl := eq_wordOf htarget
    rw [exec_ret, exec_reti, pop16_next hlo hhi, pop16_next hlo hhi]
    refine ⟨rfl, rfl, fun hc => ?_⟩
    rw [exec_retCc_taken hc, pop16_next hlo hhi]
    rfl
  · rw [exec_retCc_notTaken hc]
    rfl

theorem exec_pop_next {s : State} {lo hi : Byte} (hlo : read8 s s.regs.sp = .ok lo)
    (hhi : read8 s (s.regs.sp + 1) = .ok hi) (q : StackPair) :
    exec (.pop q) s = .next { s with
      regs := { s.regs with sp := s.regs.sp + 2 }.setStackPair q (wordOf hi lo), lastCost := s.cost (.pop q) } := by
  rw [exec_pop, pop16_next hlo hhi]
  rfl

/-- Settles O36: a push leaves PC, a pop writes the pair after SP has grown. -/
theorem pushAndPop : Obligations.PushAndPop := by
  unfold Obligations.PushAndPop
  intro s q lo hi v cy
  refine ⟨pushesThen_of _ (exec_push q s) fun t hregs _ => ?_, fun hlo hhi hv => ?_⟩
  · simp only [done]
    rw [← hregs]
    rfl
  · obtain rfl := eq_wordOf hv
    exact exec_pop_next hlo hhi q

/-- The state after a `PUSH` to work RAM: two cells of `flat`, SP and the cost. -/
def State.pushed (s : State) (v : Word) (cost : Nat) : State :=
  { (s.setFlat (s.regs.sp - 1).toNat (hiByte v)).setFlat (s.regs.sp - 2).toNat (loByte v)
    with regs := { s.regs with sp := s.regs.sp - 2 }, lastCost := cost }

theorem read8_pushed (s : State) (v : Word) (cost : Nat) (b : Word) :
    read8 (s.pushed v cost) b
      = read8 ((s.setFlat (s.regs.sp - 1).toNat (hiByte v)).setFlat (s.regs.sp - 2).toNat (loByte v)) b := rfl

theorem read8_pushed_other (s : State) (v : Word) (cost : Nat) {b : Word} (h1 : b ≠ s.regs.sp - 1)
    (h2 : b ≠ s.regs.sp - 2) : read8 (s.pushed v cost) b = read8 s b := by
  rw [read8_pushed, read8_setFlat_ne _ fun h => h2 (BitVec.eq_of_toNat_eq h),
    read8_setFlat_ne _ fun h => h1 (BitVec.eq_of_toNat_eq h)]

section WorkRam
variable {s : State} (hlow : 0xC002 ≤ s.regs.sp.toNat) (hhigh : s.regs.sp.toNat ≤ 0xE000)
include hlow hhigh

theorem exec_push_workRam (q : StackPair) :
    exec (.push q) s = .next (s.pushed (s.regs.getStackPair q) (s.cost (.push q))) := by
  have h1 : (s.regs.sp - 1).toNat = s.regs.sp.toNat - 1 := by bv_omega
  have h2 : (s.regs.sp - 2).toNat = s.regs.sp.toNat - 2 := by bv_omega
  rw [exec_push, push16_next _ (by omega) (by omega), storeByte_once (.inl (by omega)),
    storeByte_once (.inl (by omega))]
  rfl

theorem read8_pushed_low (v : Word) (cost : Nat) :
    read8 (s.pushed v cost) (s.regs.sp - 2) = .ok (loByte v) := by
  have h2 : (s.regs.sp - 2).toNat = s.regs.sp.toNat - 2 := by bv_omega
  rw [read8_pushed]
  exact read8_setFlat_self _ (by omega) (by omega)

theorem read8_pushed_high (v : Word) (cost : Nat) :
    read8 (s.pushed v cost) (s.regs.sp - 1) = .ok (hiByte v) := by
  have h1 : (s.regs.sp - 1).toNat = s.regs.sp.toNat - 1 := by bv_omega
  have h2 : (s.regs.sp - 2).toNat = s.regs.sp.toNat - 2 := by bv_omega
  rw [read8_pushed, read8_setFlat_ne _ (by omega)]
  exact read8_setFlat_self _ (by omega) (by omega)

end WorkRam

@[simp] theorem Registers.setStackPair_getStackPair (r : Registers) (q : StackPair) :
    r.setStackPair q (r.getStackPair q) = r := by
  cases q <;> simp [Registers.setStackPair, Registers.getStackPair, Registers.bc, Registers.de,
    Registers.hl, Registers.af]

/-- Settles O37: the pop reads the two cells that the push wrote. -/
theorem popUndoesPush : Obligations.PopUndoesPush := by
  unfold Obligations.PopUndoesPush
  intro s q hlow hhigh
  have hsp : s.regs.sp - 2 + 1 = s.regs.sp - 1 := by bv_omega
  have hsp2 : s.regs.sp - 2 + 2 = s.regs.sp := by bv_omega
  have hhi := read8_pushed_high hlow hhigh (s.regs.getStackPair q) (s.cost (.push q))
  rw [← hsp] at hhi
  refine ⟨_, _, exec_push_workRam hlow hhigh q, exec_pop_next (read8_pushed_low hlow hhigh _ _) hhi q, ?_,
    fun b h1 h2 => read8_pushed_other s _ (s.cost (.push q)) h1 h2⟩
  show ({ s.regs with sp := s.regs.sp - 2 + 2 } : Registers).setStackPair q _ = s.regs
  rw [hsp2, wordOf_hiByte_loByte, Registers.setStackPair_getStackPair]

end Sys2Proof.Machine

namespace Sys2Proof.Machine

/-! ### The read path by region (`20_memory.md` R64 to R69) -/

section ReadRegion
variable {s : State} {a : Word}

theorem read8_romWindow (h : 0x4000 ≤ a.toNat) (h' : a.toNat ≤ 0x7FFF)
    (hin : romIndex s a < s.cartridgeRom.length) :
    read8 s a = .ok (s.cartridgeRom.byteAt (romIndex s a)) := by
  rw [read8, if_pos ⟨h, h'⟩, if_pos hin]

theorem read8_beyondImage (h : 0x4000 ≤ a.toNat) (h' : a.toNat ≤ 0x7FFF)
    (hout : s.cartridgeRom.length ≤ romIndex s a) : read8 s a = .error (romIndex s a) := by
  rw [read8, if_pos ⟨h, h'⟩, if_neg (Nat.not_lt.mpr hout)]

theorem read8_ramWindow (h : 0xA000 ≤ a.toNat) (h' : a.toNat ≤ 0xBFFF) :
    read8 s a = .ok (s.ramAt (ramIndex s a)) := by
  rw [read8, if_neg (by omega), if_pos ⟨h, h'⟩]

theorem read8_joypad (h : a.toNat = 0xFF00) : read8 s a = .ok (joypRead s) := by
  rw [read8, if_neg (by omega), if_neg (by omega), if_pos h]

end ReadRegion

/-- Settles O39: one lemma per region. -/
theorem readPathByRegion : Obligations.ReadPathByRegion := by
  unfold Obligations.ReadPathByRegion
  intro s a index
  refine ⟨?_, ?_, fun h => read8_flat (by omega) (by omega) (by omega), read8_joypad⟩
  · rintro h h' rfl
    exact ⟨read8_romWindow h h', read8_beyondImage h h'⟩
  · rintro h h' rfl
    exact read8_ramWindow h h'

section Joypad
variable {s : State}

theorem joypRead_directions (h4 : bitOf (s.flatAt 0xFF00) 4 = false) (h5 : bitOf (s.flatAt 0xFF00) 5 = true) :
    joypRead s = ~~~s.flatAt 0xFF00 &&& ((s.joypadState &&& 0x0F) ||| 0xF0) := by
  simp only [joypRead, h4, h5]
  rfl

theorem joypRead_buttons (h4 : bitOf (s.flatAt 0xFF00) 4 = true) (h5 : bitOf (s.flatAt 0xFF00) 5 = false) :
    joypRead s = ~~~s.flatAt 0xFF00 &&& ((s.joypadState >>> 4) ||| 0xF0) := by
  simp only [joypRead, h4, h5]
  rfl

end Joypad

/-- Settles O58: the inverted select byte and-ed with the keys of the selected group, bit by bit. -/
theorem joypadRead : Obligations.JoypadRead := by
  unfold Obligations.JoypadRead
  intro s v h
  obtain rfl : joypRead s = v := Except.ok.inj ((read8_joypad rfl).symm.trans h)
  refine ⟨fun h4 h5 k hk => ?_, fun h4 h5 k hk => ?_⟩
  · rw [joypRead_directions h4 h5]
    interval_cases k <;> simp
  · rw [joypRead_buttons h4 h5]
    interval_cases k <;> simp

/-! ### The write path by region (`20_memory.md` R70 to R79) -/

theorem storeByte_tac {a : Word} (h : a.toNat = 0xFF07) (v : Byte) (s : State) :
    storeByte s a v = tacWrite s v := by
  simp [storeByte, h]

theorem tacWrite_timerCounter (s : State) (v : Byte) :
    (tacWrite s v).timerCounter
      = if fieldOf v 0 2 = fieldOf (s.flatAt 0xFF07) 0 2 then s.timerCounter else timerPeriod v := by
  rw [tacWrite]
  split <;> rfl

/-- Only a write to TAC touches the timer counter. -/
theorem storeByte_timerCounter {s : State} {a : Word} (h : a.toNat ≠ 0xFF07) (v : Byte) :
    (storeByte s a v).timerCounter = s.timerCounter := by
  rw [storeByte, if_neg h]
  split
  · exact bankWrite_timerCounter s a v
  · repeat' split
    all_goals rfl

/-- At 0x8000 and above a write changes the two stores and the timer counter at most. -/
theorem storeByte_frame {s : State} {a : Word} (h : 0x8000 ≤ a.toNat) (v : Byte) :
    storeByte s a v = { s with
      flat := (storeByte s a v).flat, ramBanks := (storeByte s a v).ramBanks,
      timerCounter := (storeByte s a v).timerCounter } := by
  have honly := storeByte_onlyStores s a v
  obtain ⟨hrom, hram, henabled, hselect⟩ := storeByte_banks (s := s) h v
  rw [OnlyStores, hrom, hram, henabled, hselect] at honly
  exact honly

/-- Settles O41: every cell of both stores by `storeByte_flatAt` and `storeByte_ramAt`, and the counter by
the write to TAC. -/
theorem writePathByRegion : Obligations.WritePathByRegion := by
  unfold Obligations.WritePathByRegion
  intro s a v hlow hdma
  refine ⟨storeByte s a v, write8_store hdma v s, storeByte_frame hlow v, fun k => ?_, fun k => ?_, ?_⟩
  · rw [storeByte_ramAt]
    exact if_congr and_assoc rfl rfl
  · rw [storeByte_flatAt, if_neg (by omega)]
    grind
  · by_cases htac : a.toNat = 0xFF07
    · rw [storeByte_tac htac, tacWrite_timerCounter, fieldOf_lowTwo, fieldOf_lowTwo]
      by_cases hsame : v.toNat % 4 = (s.flatAt 0xFF07).toNat % 4
      · rw [if_pos hsame, if_neg (by omega)]
      · rw [if_neg hsame, if_pos ⟨htac, hsame⟩, ← fieldOf_lowTwo v]
        rfl
    · rw [storeByte_timerCounter htac, if_neg (by omega)]

/-! ### RAM enable and mode bit (`20_memory.md` R82, R83, R89, R90) -/

theorem lowNibble_eq_ten (v : Byte) : v &&& 0x0F = 0x0A ↔ v.toNat % 16 = 10 := by
  rw [← BitVec.toNat_inj, and_0x0F_toNat]
  rfl

theorem lowNibble_eq_zero (v : Byte) : v &&& 0x0F = 0x00 ↔ v.toNat % 16 = 0 := by
  rw [← BitVec.toNat_inj, and_0x0F_toNat]
  rfl

theorem and_0x0010_ne_zero (a : Word) : a &&& 0x0010 ≠ 0 ↔ a.toNat / 16 % 2 = 1 := by
  have hbit : (a &&& 0x0010).toNat = a.toNat / 16 % 2 * 16 := by
    rw [BitVec.toNat_and]
    exact (Nat.and_two_pow a.toNat 4).trans (congrArg (· * 16) (Nat.toNat_testBit a.toNat 4))
  rw [Ne, ← BitVec.toNat_inj, hbit, show (0 : Word).toNat = 0 from rfl]
  omega

/-- The RAM enable after a write of `v` to the enable range. -/
def ramEnableAfter (s : State) (v : Byte) : Bool :=
  if v.toNat % 16 = 10 then true else if v.toNat % 16 = 0 then false else s.ramEnabled

/-- The low nibble selects one of three branches; the third changes nothing. -/
theorem ramEnable_branches (s : State) (v : Byte) :
    (if v &&& 0x0F = 0x0A then { s with ramEnabled := true }
      else if v &&& 0x0F = 0x00 then { s with ramEnabled := false } else s)
      = { s with ramEnabled := ramEnableAfter s v } := by
  rw [ramEnableAfter, if_congr (lowNibble_eq_ten v) rfl (if_congr (lowNibble_eq_zero v) rfl rfl)]
  repeat' split
  all_goals rfl

theorem bankWrite_mbc1_ramEnable {s : State} {a : Word} (hm : s.bankingMode = .mbc1) (h : a.toNat < 0x2000)
    (v : Byte) : bankWrite s a v = { s with ramEnabled := ramEnableAfter s v } := by
  cases s
  cases hm
  exact (if_pos h).trans (ramEnable_branches _ v)

theorem bankWrite_mbc2_ramEnable {s : State} {a : Word} (hm : s.bankingMode = .mbc2) (h : a.toNat < 0x2000)
    (hbit : ¬ a.toNat / 16 % 2 = 1) (v : Byte) :
    bankWrite s a v = { s with ramEnabled := ramEnableAfter s v } := by
  cases s
  cases hm
  exact (if_pos h).trans ((if_neg ((and_0x0010_ne_zero a).not.mpr hbit)).trans (ramEnable_branches _ v))

theorem bankWrite_mbc2_noEnable {s : State} {a : Word} (hm : s.bankingMode = .mbc2) (h : a.toNat < 0x2000)
    (hbit : a.toNat / 16 % 2 = 1) (v : Byte) : bankWrite s a v = s := by
  simp only [bankWrite, hm, if_pos h]
  rw [if_pos ((and_0x0010_ne_zero a).mpr hbit)]

theorem bankWrite_mbc1_mode {s : State} {a : Word} (hm : s.bankingMode = .mbc1) (h : 0x6000 ≤ a.toNat)
    (v : Byte) :
    bankWrite s a v
      = if v.getLsbD 0 = s.params.modeBitRomValue then { s with romBankingSelect := true, currentRamBank := 0 }
        else { s with romBankingSelect := false } := by
  simp only [bankWrite, hm, bitOf]
  rw [if_neg (by omega), if_neg (by omega), if_neg (by omega)]

/-- Settles O45: each write by controller and range. -/
theorem ramEnableAndModeSelect : Obligations.RamEnableAndModeSelect := by
  unfold Obligations.RamEnableAndModeSelect
  intro s a v
  refine ⟨fun hm h => ⟨fun ⟨hm2, hbit⟩ => ?_, fun hon => ?_⟩, fun hm h h' => ⟨fun hv => ?_, fun hv => ?_⟩,
    fun hm h h' => ?_⟩
  · rw [write8_bank (by omega), bankWrite_mbc2_noEnable hm2 h hbit]
  · rw [write8_bank (by omega)]
    obtain hm1 | hm2 := hm
    · rw [bankWrite_mbc1_ramEnable hm1 h]
      rfl
    · have hbit : a.toNat / 16 % 2 = 0 := hon.resolve_left (by rw [hm2]; decide)
      rw [bankWrite_mbc2_ramEnable hm2 h (by omega)]
      rfl
  · rw [write8_bank (by omega), bankWrite_mbc1_mode hm h, if_pos hv]
  · rw [write8_bank (by omega), bankWrite_mbc1_mode hm h, if_neg hv]
  · rw [write8_bank (by omega), bankWrite_mbc2_ignored hm h]

/-! ### The DMA copy (`20_memory.md` R96, R97) -/

theorem write8_dma (page : Byte) (s : State) : write8 0xFF46 page s = dmaFrom page 0xA0 0 s := if_pos rfl

/-- Settles O47: the whole copy, or the copy up to the byte that cannot be read. -/
theorem dmaCopiesOnePage : Obligations.DmaCopiesOnePage := by
  unfold Obligations.DmaCopiesOnePage
  intro s page src m h
  rw [write8_dma]
  refine ⟨?_, fun hm index hbad => ?_⟩
  · rintro rfl
    obtain ⟨t, ht, hframe, hcells⟩ := dmaFrom_next page src 0xA0 0 s (by omega)
      fun j _ hj => h j (by omega)
    refine ⟨t, ht, hframe, fun k => (hcells k).trans (if_congr (by omega) rfl rfl)⟩
  · obtain ⟨t, ht, hframe, hcells⟩ := dmaFrom_fault page src index 0xA0 0 m s (by omega) hm
      (fun j _ hj => h j (by omega)) (by rwa [Nat.zero_add])
    refine ⟨{ t with fault := some (.romIndexOutOfRange index) }, ht, ?_,
      fun k => (hcells k).trans (if_congr (by omega) rfl rfl)⟩
    rw [hframe]

end Sys2Proof.Machine

namespace Sys2Proof.Machine

/-! ### Requests, dispatch and entry (`60_exceptions.md` section 3) -/

theorem Interrupt.index_lt (i : Interrupt) : i.index < 8 := by cases i <;> decide

/-- Settles O48: a request sets one bit of IF. -/
theorem requestSetsItsBit : Obligations.RequestSetsItsBit := by
  unfold Obligations.RequestSetsItsBit
  intro s i
  have hif : (requestInterrupt i s).flatAt 0xFF0F = withBit (s.flatAt 0xFF0F) i.index true := by
    rw [requestInterrupt_flatAt, if_pos rfl]
  refine ⟨rfl, fun k hk => ?_, fun j _ => ?_, fun hset => ?_, rfl⟩
  · rw [requestInterrupt_flatAt, if_neg hk]
  · rw [hif, withBit_true_getLsbD _ i.index_lt]
  · rw [hif]
    refine byte_ext fun j _ => ?_
    rw [withBit_getLsbD _ _ _ _ i.index_lt]
    split
    · next hj => rw [hj, hset]
    · rfl

theorem dispatchInterrupts_disabled {s : State} (h : s.ime = false) : dispatchInterrupts s = .next s := by
  rw [dispatchInterrupts, if_neg (by simp [h])]

/-- The scan decides what the dispatch does. -/
theorem dispatchInterrupts_enabled {s : State} (h : s.ime = true) {found : Option Interrupt}
    (hfind : interruptOrder.find? (interruptReady s) = found) :
    dispatchInterrupts s = found.elim (.next s) fun i => enterInterrupt i s := by
  rw [dispatchInterrupts, if_pos h, hfind]
  cases found <;> rfl

theorem interruptReady_iff (s : State) (i : Interrupt) :
    interruptReady s i = true
      ↔ (s.flatAt 0xFF0F).getLsbD i.index = true ∧ (s.flatAt 0xFFFF).getLsbD i.index = true :=
  Bool.and_eq_true_iff

/-- Settles O49: the scan finds the first ready source in the order of the indices. -/
theorem dispatchEntersLowestIndex : Obligations.DispatchEntersLowestIndex := by
  unfold Obligations.DispatchEntersLowestIndex
  intro s ready
  have hyes : ∀ i : Interrupt, ready i.index → interruptReady s i = true := fun i =>
    (interruptReady_iff s i).mpr
  have hno : ∀ i : Interrupt, ¬ ready i.index → interruptReady s i = false := fun i h =>
    Bool.eq_false_iff.mpr (mt (interruptReady_iff s i).mp h)
  refine ⟨dispatchInterrupts_disabled, fun hnone => ?_, fun hime => ⟨fun h0 => ?_, fun h0 h1 => ?_,
    fun h0 h1 h2 => ?_, fun h0 h1 h2 h3 => ?_, fun h0 h1 h2 h3 h4 => ?_⟩⟩
  · cases hime : s.ime with
    | false => exact dispatchInterrupts_disabled hime
    | true =>
      refine dispatchInterrupts_enabled hime (found := none) (List.find?_eq_none.mpr fun i _ => ?_)
      rw [hno i (hnone _ (by cases i <;> decide))]
      decide
  · refine dispatchInterrupts_enabled hime (found := some .vblank) ?_
    simp [interruptOrder, hyes .vblank h0]
  · refine dispatchInterrupts_enabled hime (found := some .stat) ?_
    simp [interruptOrder, hno .vblank h0, hyes .stat h1]
  · refine dispatchInterrupts_enabled hime (found := some .timer) ?_
    simp [interruptOrder, hno .vblank h0, hno .stat h1, hyes .timer h2]
  · refine dispatchInterrupts_enabled hime (found := some .serial) ?_
    simp [interruptOrder, hno .vblank h0, hno .stat h1, hno .timer h2, hyes .serial h3]
  · refine dispatchInterrupts_enabled hime (found := some .joypad) ?_
    simp [interruptOrder, hno .vblank h0, hno .stat h1, hno .timer h2, hno .serial h3, hyes .joypad h4]

/-- Entry acknowledges the request, pushes PC and goes to the vector, if there is one. -/
theorem enterInterrupt_pushesThen (i : Interrupt) (s : State) :
    PushesThen (enterInterrupt i s)
      ({ s with ime := false }.setFlat 0xFF0F (withBit (s.flatAt 0xFF0F) i.index false)) s.regs.pc
      (i.vector.getD s.regs.pc) s.lastCost := by
  refine pushesThen_of _ rfl fun t hregs hcost => ?_
  cases t
  cases hregs
  cases hcost
  cases i <;> rfl

/-- Settles O50: the sources with their indices and vectors, and the flags byte with one bit cleared. -/
theorem entrySavesPcAndJumps : Obligations.EntrySavesPcAndJumps := by
  unfold Obligations.EntrySavesPcAndJumps
  intro s flags i index pc hi hflags
  obtain ⟨rfl, rfl⟩ : i.index = index ∧ i.vector.getD s.regs.pc = pc := by
    simp only [List.mem_cons, Prod.mk.injEq, List.not_mem_nil, or_false] at hi
    rcases hi with ⟨rfl, rfl, rfl⟩ | ⟨rfl, rfl, rfl⟩ | ⟨rfl, rfl, rfl⟩ | ⟨rfl, rfl, rfl⟩ |
      ⟨rfl, rfl, rfl⟩ <;>
    exact ⟨rfl, rfl⟩
  obtain rfl : withBit (s.flatAt 0xFF0F) i.index false = flags := byte_ext fun j hj => by
    rw [withBit_getLsbD _ _ _ _ i.index_lt, hflags j hj]
    by_cases h : j = i.index <;> simp [h]
  exact enterInterrupt_pushesThen i s

/-! ### The divider (`60_exceptions.md` R355) -/

section Divider
variable {s : State} {cost : Nat}

theorem advanceDivider_counting (h : s.dividerCounter + cost < 255) :
    advanceDivider cost s = { s with dividerCounter := s.dividerCounter + cost } :=
  if_neg (Int.not_le.mpr h)

theorem advanceDivider_expired (h : 255 ≤ s.dividerCounter + cost) :
    advanceDivider cost s = { s.setFlat 0xFF04 (s.flatAt 0xFF04 + 1) with dividerCounter := 0 } := if_pos h

theorem advanceDivider_expired_flatAt (h : 255 ≤ s.dividerCounter + cost) (k : Nat) :
    (advanceDivider cost s).flatAt k = if k = 0xFF04 then s.flatAt 0xFF04 + 1 else s.flatAt k := by
  rw [advanceDivider_expired h]
  exact State.setFlat_flatAt s _ _ k

end Divider

/-- Settles O51: the divider counts, or restarts and increments DIV. -/
theorem dividerAdvance : Obligations.DividerAdvance := by
  unfold Obligations.DividerAdvance
  intro s cost
  refine ⟨advanceDivider_counting, fun h => ⟨?_, ?_, fun k hk => ?_⟩⟩
  · rw [advanceDivider_expired h]
    rfl
  · rw [advanceDivider_expired_flatAt h, if_pos rfl, BitVec.toNat_add]
    rfl
  · rw [advanceDivider_expired_flatAt h, if_neg hk]

/-! ### The key inputs (`60_exceptions.md` R366 to R368) -/

theorem withBit_false_getLsbD (x : Byte) {i : Nat} (hi : i < 8) (j : Nat) :
    (withBit x i false).getLsbD j = (x.getLsbD j && decide (j ≠ i)) := by
  rw [withBit_getLsbD _ _ _ _ hi]
  by_cases h : j = i <;> simp [h]

/-- Setting a bit that is set changes nothing. -/
theorem withBit_true_self {x : Byte} {i : Nat} (hi : i < 8) (h : x.getLsbD i = true) :
    withBit x i true = x := byte_ext fun j _ => by
  rw [withBit_getLsbD _ _ _ _ hi]
  split
  · next hj => rw [hj, h]
  · rfl

/-- The group of a key is selected by one bit of the stored select byte, active when 0. -/
theorem keyGroupSelected_eq (s : State) (key : Nat) :
    keyGroupSelected s key = !(s.flatAt 0xFF00).getLsbD (if key ≤ 3 then 4 else 5) := by
  rw [keyGroupSelected]
  split <;> rfl

/-- Settles O59: a press clears one bit and may request, a release sets one bit. -/
theorem keyInputs : Obligations.KeyInputs := by
  unfold Obligations.KeyInputs
  intro s key
  refine ⟨fun h => ⟨keyPressed_outOfRange h, keyReleased_outOfRange h⟩, keyPressed_again,
    fun h hup => ⟨_, keyPressed_down h hup, ?_, fun j _ => ?_, fun k hk => ?_, fun j _ => ?_⟩,
    fun h => ⟨withBit s.joypadState key true, fun j _ => withBit_true_getLsbD _ h j, keyReleased_next h,
      fun hup => ?_⟩⟩
  · split <;> rfl
  · rw [← withBit_false_getLsbD _ h]
    split <;> rfl
  · split
    · rw [requestInterrupt_flatAt, if_neg hk]
      rfl
    · rfl
  · rw [← keyGroupSelected_eq]
    cases hsel : keyGroupSelected s key with
    | true =>
      rw [if_pos rfl, requestInterrupt_flatAt, if_pos rfl, withBit_true_getLsbD _ (by decide), Bool.and_true]
      rfl
    | false =>
      rw [if_neg (by decide), Bool.and_false, Bool.or_false]
      rfl
  · rw [keyReleased_next h, withBit_true_self h hup]

end Sys2Proof.Machine

namespace Sys2Proof.Machine

/-! ### Reads beyond the image (`20_memory.md` R93, `60_exceptions.md` R331) -/

section ReadError
variable {s : State} {index : Nat}

theorem pop16_error_low (h : read8 s s.regs.sp = .error index) (k : Word → State → Out) :
    pop16 s k = raise (.romIndexOutOfRange index) s := withByte_error h _

theorem pop16_error_high {lo : Byte} (hlo : read8 s s.regs.sp = .ok lo)
    (h : read8 s (s.regs.sp + 1) = .error index) (k : Word → State → Out) :
    pop16 s k = raise (.romIndexOutOfRange index) (s.setSp (s.regs.sp + 1)) := by
  rw [pop16, withByte_ok hlo]
  exact withByte_error (s := s.setSp (s.regs.sp + 1)) h _

/-- The unconditional instructions that begin with a pop. -/
theorem exec_begins_with_pop (s : State) (q : StackPair) :
    ∀ i ∈ [Instr.pop q, .ret, .reti], ∃ k, exec i s = pop16 s k := by
  simp only [List.forall_mem_cons, List.not_mem_nil, false_implies, implies_true, and_true]
  exact ⟨⟨_, exec_pop q s⟩, ⟨_, exec_ret s⟩, ⟨_, exec_reti s⟩⟩

theorem fetch8_setPc_error {a : Word} (h : read8 s a = .error index) :
    fetch8 (s.setPc a) = .error (faultOf (.romIndexOutOfRange index) (s.setPc a)) :=
  fetch8_error (s := s.setPc a) h

theorem fetchInstr_error_opcode (h : read8 s s.regs.pc = .error index) :
    fetchInstr s = .error (faultOf (.romIndexOutOfRange index) s) := by
  simp only [fetchInstr, fetch8_error h]

theorem fetchInstr_error_second (h0 : read8 s s.regs.pc = .ok prefixByte)
    (h : read8 s (s.regs.pc + 1) = .error index) :
    fetchInstr s = .error (faultOf (.romIndexOutOfRange index) (s.setPc (s.regs.pc + 1))) := by
  simp only [fetchInstr, fetch8_ok h0, if_true, fetch8_setPc_error h]

theorem fetchOperands_error_first {a : Word} (h : read8 s a = .error index) (op : Byte) {length : Nat}
    (hlength : length = 2 ∨ length = 3) (head : Instr) :
    fetchOperands op length head (s.setPc a)
      = .error (faultOf (.romIndexOutOfRange index) (s.setPc a)) := by
  obtain rfl | rfl := hlength <;> simp only [fetchOperands, fetch8_setPc_error h]

theorem fetchOperands_error_second {a : Word} {n1 : Byte} (h1 : read8 s a = .ok n1)
    (h : read8 s (a + 1) = .error index) (op : Byte) (head : Instr) :
    fetchOperands op 3 head (s.setPc a)
      = .error (faultOf (.romIndexOutOfRange index) (s.setPc (a + 1))) := by
  simp only [fetchOperands, fetch8_setPc h1, fetch8_setPc_error h]

end ReadError

/-- An opcode byte that decodes with two zero bytes after it to an instruction that has a handler: its operand
bytes, of which there are as many as the decode used, are fetched next. -/
theorem fetchInstr_of_decode {s : State} {op : Byte} {i : Instr} {rest : List Byte} (hop : op ≠ prefixByte)
    (hread : read8 s s.regs.pc = .ok op) (hd : decode [op, 0, 0] = .ok (i, rest))
    (hh : hasHandler s.params.profile i = true) :
    ∃ head, head.length = 3 - rest.length ∧
      fetchInstr s = fetchOperands op head.length head (s.setPc (s.regs.pc + 1)) := by
  cases hplain : decodePlain op 0 0 with
  | none => exact absurd (hd.symm.trans (decode_unhandled hop hplain 0 0 [])) (by simp)
  | some head =>
    obtain ⟨j, hj, hbase⟩ := decode_plain hop hplain 0 0 []
    obtain ⟨rfl, rfl⟩ := Prod.mk.inj (Except.ok.inj (hd.symm.trans hj))
    rw [hasHandler_congr hbase] at hh
    have hlength := length_pos head
    refine ⟨head, ?_, by rw [fetchInstr_plain hread hop hplain, if_pos hh]⟩
    rw [List.length_drop, List.length_cons, List.length_singleton]
    omega

/-- Settles O40: the first access that cannot be read ends the instruction or the fetch. -/
theorem readBeyondImageStops : Obligations.ReadBeyondImageStops := by
  unfold Obligations.ReadBeyondImageStops
  intro s index stop
  refine ⟨fun h dst bit i hi => ?_, fun h => withByte_error h _, fun h => withByte_error h _,
    fun nn h => withByte_error h _, fun h q => ⟨fun i hi => ?_, fun cc hc => ?_⟩,
    fun lo hlo h q => ⟨fun i hi => ?_, fun cc hc => ?_⟩, fun hf => ?_⟩
  · fin_cases hi <;> exact withByte_error h _
  · obtain ⟨k, hk⟩ := exec_begins_with_pop s q i hi
    exact hk.trans (pop16_error_low h k)
  · rw [exec_retCc_taken ((condHolds_iff _ _).mp hc)]
    exact pop16_error_low h _
  · obtain ⟨k, hk⟩ := exec_begins_with_pop s q i hi
    exact hk.trans (pop16_error_high hlo h k)
  · rw [exec_retCc_taken ((condHolds_iff _ _).mp hc)]
    exact pop16_error_high hlo h _
  · intro fetching
    have hstart : fetching 0 = arm s := by
      show (arm s).setPc (s.regs.pc + 0#16) = arm s
      rw [BitVec.add_zero]
      rfl
    refine ⟨fun h => ?_, fun h0 h => ?_, fun op i rest hop hread hd hh => ?_⟩
    · rw [hstart]
      exact step_of_fetch_error hf (fetchInstr_error_opcode (s := arm s) h)
    · exact step_of_fetch_error hf (fetchInstr_error_second (s := arm s) h0 h)
    · obtain ⟨head, hlength, hfetch⟩ := fetchInstr_of_decode (s := arm s) hop hread hd hh
      obtain ⟨hpos, hle⟩ := length_pos head
      refine ⟨fun hrest h => ?_, fun n1 hrest h1 h => ?_⟩
      · exact step_of_fetch_error hf
          (hfetch.trans (fetchOperands_error_first (s := arm s) h op (by omega) head))
      · have hnext : s.regs.pc + 1 + 1 = s.regs.pc + 2 := by rw [BitVec.add_assoc]; rfl
        have hthree : head.length = 3 := by omega
        rw [← hnext] at h
        rw [hthree] at hfetch
        have hstop := hfetch.trans (fetchOperands_error_second (s := arm s) h1 h op head)
        rw [hnext] at hstop
        exact step_of_fetch_error hf hstop

end Sys2Proof.Machine

namespace Sys2Proof.Machine

/-! ### Memories with some cells filtered out, and initial values -/

/-- Two contents of unlisted cells that agree at an address read the same there. -/
theorem Memory.read_congr_initial {f g : Nat → Byte} {k : Nat} (h : f k = g k) (m : Memory) :
    Memory.read f m k = Memory.read g m k := by
  induction m with
  | nil => exact h
  | cons c rest ih =>
    obtain ⟨a, v⟩ := c
    simp only [Memory.read, ih]

/-- A filter on addresses leaves the cells it keeps and clears the others. -/
theorem Memory.read_filter {initial : Nat → Byte} (p : Nat → Bool) (m : Memory) (k : Nat) :
    Memory.read initial (m.filter fun c => p c.1) k
      = if p k then Memory.read initial m k else initial k := by
  induction m with
  | nil => simp
  | cons c rest ih =>
    obtain ⟨a, v⟩ := c
    by_cases hk : k = a
    · subst hk
      cases hp : p k <;> simp [hp, Memory.read, ih]
    · cases hp : p a <;> simp [hp, Memory.read, hk, ih]

/-- The cells kept are canonical for any contents that agree with the old ones where cells are kept. -/
theorem Memory.wfFrom_filter {f g : Nat → Byte} {p : Nat → Bool} (hfg : ∀ k, p k = true → f k = g k)
    {m : Memory} {lo : Nat} (h : Memory.wfFrom f lo m = true) :
    Memory.wfFrom g lo (m.filter fun c => p c.1) = true := by
  induction m generalizing lo with
  | nil => rfl
  | cons c rest ih =>
    obtain ⟨a, v⟩ := c
    simp only [Memory.wfFrom, Bool.and_eq_true, decide_eq_true_eq] at h
    obtain ⟨⟨hlo, hne⟩, hrest⟩ := h
    cases hp : p a with
    | false => simpa [List.filter_cons, hp] using Memory.wfFrom_mono (by omega) (ih hrest)
    | true => simp [hp, Memory.wfFrom, hlo, ← hfg a hp, hne, ih hrest]

theorem Memory.below_filter {p : Nat → Bool} {size : Nat} (hp : ∀ k, p k = true → k < size) (m : Memory) :
    Memory.below size (m.filter fun c => p c.1) = true := by
  simp only [Memory.below, List.all_eq_true, List.mem_filter, decide_eq_true_eq]
  exact fun c hc => hp c.1 hc.2

/-! ### The bootstrap overlay (`10_state.md` R58) -/

theorem overlay_read (m : Memory) (k : Nat) (bytes : List Byte) (a : Nat) :
    Memory.read flatInitial (overlay m k bytes) a
      = if h : k ≤ a ∧ a - k < bytes.length then bytes[a - k]'h.2 else Memory.read flatInitial m a := by
  induction bytes generalizing m k with
  | nil => simp [overlay]
  | cons v rest ih =>
    rw [overlay, ih, Memory.read_write]
    by_cases hk : a = k
    · subst hk
      simp
    · by_cases hlt : k + 1 ≤ a
      · have hsub : a - k = a - (k + 1) + 1 := by omega
        have hle : k ≤ a := by omega
        simp [hlt, hle, hk, hsub]
      · have hle : ¬ k ≤ a := by omega
        simp [hlt, hle, hk]

theorem overlay_wf {m : Memory} (h : Memory.wf flatInitial m = true) (k : Nat) (bytes : List Byte) :
    Memory.wf flatInitial (overlay m k bytes) = true := by
  induction bytes generalizing m k with
  | nil => exact h
  | cons v rest ih => exact ih (Memory.wf_write k v h) (k + 1)

theorem overlay_below {m : Memory} {size : Nat} (h : Memory.below size m = true) {k : Nat} {bytes : List Byte}
    (hsize : k + bytes.length ≤ size) : Memory.below size (overlay m k bytes) = true := by
  induction bytes generalizing m k with
  | nil => exact h
  | cons v rest ih =>
    rw [List.length_cons] at hsize
    exact ih (Memory.below_write v (by omega) h) (by omega)

/-- Every address of a list made 0x00. -/
theorem clear_read (l : List Nat) (m : Memory) (a : Nat) :
    Memory.read flatInitial (l.foldl (fun m k => m.write flatInitial k 0) m) a
      = if a ∈ l then 0 else Memory.read flatInitial m a := by
  induction l generalizing m with
  | nil => simp
  | cons k l ih =>
    rw [List.foldl_cons, ih, Memory.read_write]
    by_cases hl : a ∈ l <;> by_cases hk : a = k <;> simp [hl, hk]

theorem clear_wf (l : List Nat) {m : Memory} (h : Memory.wf flatInitial m = true) :
    Memory.wf flatInitial (l.foldl (fun m k => m.write flatInitial k 0) m) = true :=
  foldl_keeps (P := fun m => Memory.wf flatInitial m = true) _ l h fun _ k _ hm => Memory.wf_write k 0 hm

theorem clear_below {l : List Nat} {size : Nat} (hl : ∀ k ∈ l, k < size) {m : Memory}
    (h : Memory.below size m = true) :
    Memory.below size (l.foldl (fun m k => m.write flatInitial k 0) m) = true :=
  foldl_keeps (P := fun m => Memory.below size m = true) _ l h
    fun _ k hk hm => Memory.below_write 0 (hl k hk) hm

theorem mem_ioAddresses (a : Nat) : a ∈ ioAddresses ↔ (0xFF00 ≤ a ∧ a ≤ 0xFF7F) ∨ a = 0xFFFF := by
  rw [ioAddresses, List.mem_append, List.mem_range'_1, List.mem_singleton]
  omega

/-- Outside of the I/O bytes every cell of `flat` starts as 0x00 (`10_state.md` R55, R57). -/
theorem flatInitial_eq_zero {a : Nat} (h : a < 0xFF00 ∨ 0xFF7F < a) : flatInitial a = 0 := by
  unfold flatInitial
  grind

/-! ### Construction (`70_reset_and_hazards.md` R440) -/

/-- The cells of the image that `flat` holds a copy of. -/
def copied (img : Image) (a : Nat) : Bool := decide (a < 0x8000 ∧ a < img.length)

/-- The copy of the image in `flat` at power-on. -/
def romCopy (img : Image) : Memory := img.cells.filter fun c => copied img c.1

theorem romCopy_read (img : Image) (a : Nat) :
    Memory.read flatInitial (romCopy img) a
      = if a < 0x8000 ∧ a < img.length then img.byteAt a else flatInitial a := by
  rw [romCopy, Memory.read_filter, copied]
  simp only [decide_eq_true_eq]
  split
  · next h => exact Memory.read_congr_initial (flatInitial_eq_zero (.inl (by omega))) _
  · rfl

theorem romCopy_wf {img : Image} (h : Memory.wf zeroInitial img.cells = true) :
    Memory.wf flatInitial (romCopy img) = true := by
  refine Memory.wfFrom_filter (fun k hk => ?_) h
  obtain ⟨hlow, -⟩ := of_decide_eq_true hk
  exact (flatInitial_eq_zero (.inl (by omega))).symm

theorem romCopy_below (img : Image) : Memory.below flatSize (romCopy img) = true := by
  refine Memory.below_filter (fun k hk => ?_) _
  obtain ⟨hlow, -⟩ := of_decide_eq_true hk
  rw [flatSize]
  omega

theorem flatAtPowerOn_none (img : Image) : flatAtPowerOn img none = romCopy img := rfl

theorem flatAtPowerOn_some (img : Image) (bytes : List Byte) :
    flatAtPowerOn img (some bytes) = ioAddresses.foldl (fun m k => m.write flatInitial k 0)
      (overlay (romCopy img) 0 (bytes.take flatSize)) := rfl

theorem flatAtPowerOn_wf {img : Image} (h : Memory.wf zeroInitial img.cells = true)
    (boot : Option (List Byte)) : Memory.wf flatInitial (flatAtPowerOn img boot) = true := by
  cases boot with
  | none => exact romCopy_wf h
  | some bytes =>
    rw [flatAtPowerOn_some]
    exact clear_wf _ (overlay_wf (romCopy_wf h) _ _)

theorem flatAtPowerOn_below (img : Image) (boot : Option (List Byte)) :
    Memory.below flatSize (flatAtPowerOn img boot) = true := by
  cases boot with
  | none => exact romCopy_below img
  | some bytes =>
    have htake : 0 + (bytes.take flatSize).length ≤ flatSize := by
      rw [Nat.zero_add]
      exact List.length_take_le _ _
    rw [flatAtPowerOn_some]
    refine clear_below (fun k hk => ?_) (overlay_below (romCopy_below img) htake)
    have hio := (mem_ioAddresses k).mp hk
    rw [flatSize]
    omega

@[simp] theorem State.construct_flat (img : Image) (boot : Option (List Byte)) (params : Config.Params) :
    (State.construct img boot params).flat = flatAtPowerOn img boot := rfl

section Construct
variable (img : Image) (params : Config.Params)

theorem construct_none_flatAt (a : Nat) :
    (State.construct img none params).flatAt a
      = if a < 0x8000 ∧ a < img.length then img.byteAt a else flatInitial a := romCopy_read img a

theorem construct_some_flatAt (bytes : List Byte) {a : Nat} (ha : a < 0x10000) :
    (State.construct img (some bytes) params).flatAt a
      = if (0xFF00 ≤ a ∧ a ≤ 0xFF7F) ∨ a = 0xFFFF then 0x00
        else if h : a < bytes.length then bytes[a]
        else if a < 0x8000 ∧ a < img.length then img.byteAt a
        else 0x00 := by
  rw [State.flatAt, State.construct_flat, flatAtPowerOn_some, clear_read, overlay_read, romCopy_read]
  refine if_ctx_congr (mem_ioAddresses a) (fun _ => rfl) fun hio => ?_
  by_cases h : a < bytes.length
  · have hsize : a < flatSize := ha
    simp [h, hsize]
  · have htake : ¬ a < (bytes.take flatSize).length := by
      rw [List.length_take]
      omega
    simp only [Nat.zero_le, Nat.sub_zero, true_and, htake, h, dite_false]
    rw [flatInitial_eq_zero (by omega)]

/-- At 0xFF44, at 0xFF46 and in the restricted range the constructed machine holds 0x00, if the bootstrap
image ends below them. -/
theorem construct_flatAt_dead {boot : Option (List Byte)}
    (hboot : ∀ bytes, boot = some bytes → bytes.length ≤ 0xFEA0) {a : Nat}
    (ha : a = 0xFF44 ∨ a = 0xFF46 ∨ (0xFEA0 ≤ a ∧ a ≤ 0xFEFE)) :
    (State.construct img boot params).flatAt a = 0 := by
  cases boot with
  | none =>
    rw [construct_none_flatAt, if_neg (by omega)]
    obtain rfl | rfl | ha := ha
    · rfl
    · rfl
    · exact flatInitial_eq_zero (.inl (by omega))
  | some bytes =>
    have hlen := hboot bytes rfl
    rw [construct_some_flatAt img params bytes (by omega)]
    grind

/-- The constructed machine meets the invariant (R462). -/
theorem construct_inv {boot : Option (List Byte)} (himg : Memory.wf zeroInitial img.cells = true)
    (hboot : ∀ bytes, boot = some bytes → bytes.length ≤ 0xFEA0) : (State.construct img boot params).Inv where
  memories := ⟨flatAtPowerOn_wf himg boot, flatAtPowerOn_below img boot, himg, rfl, rfl, rfl, rfl⟩
  banks := ⟨Nat.le_refl 1, Nat.zero_le 3⟩
  counters := by
    have hline := construct_flatAt_dead img params hboot (.inl rfl)
    exact ⟨(by decide : (0 : Int) ≤ 0 ∧ (0 : Int) ≤ 254), (by decide : (1 : Int) ≤ 1024 ∧ (1024 : Int) ≤ 1024),
      (by decide : (1 : Int) ≤ 456 ∧ (456 : Int) ≤ 456), by rw [hline]; exact Nat.zero_le 153⟩
  dead := ⟨construct_flatAt_dead img params hboot (.inr (.inl rfl)),
    fun _ h h' => construct_flatAt_dead img params hboot (.inr (.inr ⟨h, h'⟩))⟩
  unarmed := rfl

end Construct

theorem kind_eq (img : Image) :
    img.kind = if img.length < 0x148 then .none
      else if (img.byteAt 0x147).toNat ∈ [1, 2, 3] then .mbc1
      else if (img.byteAt 0x147).toNat ∈ [5, 6] then .mbc2
      else .none := by
  unfold Image.kind
  split
  · rfl
  · grind

/-- Settles O12: the fields of the construction, every cell of its `flat`, and the invariant. -/
theorem constructionMeetsInv : Obligations.ConstructionMeetsInv := by
  unfold Obligations.ConstructionMeetsInv
  intro img boot params kind hkind t
  obtain rfl : img.kind = kind := (kind_eq img).trans hkind.symm
  refine ⟨rfl, ?_, ?_, construct_inv img params⟩
  · rintro rfl
    exact ⟨rfl, construct_none_flatAt img params⟩
  · rintro bytes rfl
    exact ⟨rfl, fun a ha => construct_some_flatAt img params bytes ha⟩

theorem reset_eq_construct : State.reset = State.construct Image.blank none defaultParams := rfl

/-- Settles O13: reset is the construction from the blank image. -/
theorem resetMeetsInv : Obligations.ResetMeetsInv := by
  unfold Obligations.ResetMeetsInv
  rw [reset_eq_construct]
  exact construct_inv Image.blank defaultParams rfl fun _ h => absurd h (by simp)

end Sys2Proof.Machine

namespace Sys2Proof.Machine

/-! ### STAT as a number (`61_ppu.md` R391) -/

theorem withMode_toNat (stat : Byte) (mode : Nat) :
    (withMode stat mode).toNat = stat.toNat / 4 * 4 + mode % 4 := by
  have hhigh : stat &&& (252 : Byte) = (stat >>> 2) <<< 2 := byte_ext fun k hk => by
    interval_cases k <;> simp
  have hshift : ((stat >>> 2) <<< 2).toNat = (stat.toNat / 4) <<< 2 := by
    have := stat.isLt
    simp only [BitVec.toNat_shiftLeft, BitVec.toNat_ushiftRight, Nat.shiftLeft_eq, Nat.shiftRight_eq_div_pow]
    omega
  have hlow : (BitVec.ofNat 8 (mode % 4)).toNat = mode % 4 := by
    rw [BitVec.toNat_ofNat]
    omega
  rw [withMode, BitVec.toNat_or, hhigh, hshift, hlow, ← Nat.shiftLeft_add_eq_or_of_lt (by omega),
    Nat.shiftLeft_eq]

/-- A byte with bit 2 written, as a number. -/
theorem withBit_two_toNat (x : Byte) (b : Bool) :
    (withBit x 2 b).toNat = x.toNat / 8 * 8 + (if b then 4 else 0) + x.toNat % 4 := by
  have hsplit : withBit x 2 b = x.extractLsb' 3 5 ++ (BitVec.ofBool b ++ x.extractLsb' 0 2) :=
    byte_ext fun k hk => by
      rw [withBit_getLsbD _ _ _ _ (by decide), BitVec.getLsbD_append, BitVec.getLsbD_append]
      interval_cases k <;> simp
  have hhigh : (x.extractLsb' 3 5).toNat = x.toNat / 8 := by
    have := x.isLt
    simp [BitVec.extractLsb'_toNat, Nat.shiftRight_eq_div_pow]
    omega
  have hlow : (x.extractLsb' 0 2).toNat = x.toNat % 4 := by simp [BitVec.extractLsb'_toNat]
  have hinner : (BitVec.ofBool b ++ x.extractLsb' 0 2).toNat = (if b then 4 else 0) + x.toNat % 4 := by
    rw [BitVec.toNat_append, ← Nat.shiftLeft_add_eq_or_of_lt (BitVec.isLt _), hlow]
    cases b <;> rfl
  rw [hsplit, BitVec.toNat_append, ← Nat.shiftLeft_add_eq_or_of_lt (BitVec.isLt _), hinner, hhigh,
    Nat.shiftLeft_eq]
  omega

theorem ppuMode_lt (ly : Nat) (counter : Int) : ppuMode ly counter < 4 := by
  unfold ppuMode
  split_ifs <;> decide

/-! ### The status update (`61_ppu.md` R392 to R396) -/

/-- The mode that the update writes. -/
def statMode (s : State) : Nat := ppuMode (s.flatAt 0xFF44).toNat s.scanlineCounter

/-- Whether the update finds LY equal to LYC. -/
def statCoincident (s : State) : Bool := s.flatAt 0xFF44 == s.flatAt 0xFF45

/-- Whether the update requests STAT: on entering an enabled mode, or on an enabled coincidence. -/
def statRequested (s : State) : Bool :=
  (modeInterruptEnabled (s.flatAt 0xFF41) (statMode s) &&
      decide (statMode s ≠ fieldOf (s.flatAt 0xFF41) 0 2)) ||
    (statCoincident s && bitOf (s.flatAt 0xFF41) 6)

/-- The STAT byte that the update stores. -/
def statByte (s : State) : Byte := withBit (withMode (s.flatAt 0xFF41) (statMode s)) 2 (statCoincident s)

/-- Requesting twice is requesting once. -/
theorem requestInterrupt_twice (i : Interrupt) (s : State) (k : Nat) :
    (requestInterrupt i (requestInterrupt i s)).flatAt k = (requestInterrupt i s).flatAt k := by
  simp only [requestInterrupt_flatAt]
  split
  · rw [if_pos trivial]
    refine withBit_true_self i.index_lt ?_
    rw [withBit_getLsbD _ _ _ _ i.index_lt, if_pos rfl]
  · rfl

theorem updateStatOn_eq (s : State) : updateStatOn s =
    (if (statCoincident s && bitOf (s.flatAt 0xFF41) 6) = true then
        requestInterrupt .stat (if (modeInterruptEnabled (s.flatAt 0xFF41) (statMode s) &&
          decide (statMode s ≠ fieldOf (s.flatAt 0xFF41) 0 2)) = true then requestInterrupt .stat s else s)
      else if (modeInterruptEnabled (s.flatAt 0xFF41) (statMode s) &&
          decide (statMode s ≠ fieldOf (s.flatAt 0xFF41) 0 2)) = true then requestInterrupt .stat s
        else s).setFlat 0xFF41 (statByte s) := rfl

/-- Every cell of `flat` after the status update. -/
theorem updateStatOn_flatAt (s : State) (k : Nat) :
    (updateStatOn s).flatAt k
      = if k = 0xFF41 then statByte s
        else (if statRequested s then requestInterrupt .stat s else s).flatAt k := by
  rw [updateStatOn_eq, State.setFlat_flatAt, statRequested]
  refine if_congr Iff.rfl rfl ?_
  cases statCoincident s && bitOf (s.flatAt 0xFF41) 6 with
  | false => rw [Bool.or_false, if_neg (by decide)]
  | true =>
    rw [Bool.or_true, if_pos rfl, if_pos rfl]
    split
    · exact requestInterrupt_twice .stat s k
    · rfl

theorem updateStatOn_frame (s : State) : updateStatOn s = { s with flat := (updateStatOn s).flat } := by
  rw [updateStatOn_eq]
  repeat' split
  all_goals rfl

section Graphics
variable {s : State} {cost : Nat}

theorem advanceGraphics_lcdOff (h : bitOf (s.flatAt 0xFF40) 7 = false) : advanceGraphics cost s = lcdOff s := by
  rw [advanceGraphics, if_neg (by simp [h])]

theorem updateStatOn_scanlineCounter (s : State) : (updateStatOn s).scanlineCounter = s.scanlineCounter := by
  rw [updateStatOn_frame]

theorem advanceGraphics_counting (h : bitOf (s.flatAt 0xFF40) 7 = true) (hleft : 0 < s.scanlineCounter - cost) :
    advanceGraphics cost s = { updateStatOn s with scanlineCounter := s.scanlineCounter - cost } := by
  simp only [advanceGraphics, h, if_true, updateStatOn_scanlineCounter, if_neg (Int.not_le.mpr hleft)]

theorem advanceGraphics_lineOver (h : bitOf (s.flatAt 0xFF40) 7 = true) (hout : s.scanlineCounter - cost ≤ 0) :
    advanceGraphics cost s = advanceLine (updateStatOn s) := by
  simp only [advanceGraphics, h, if_true, updateStatOn_scanlineCounter, if_pos hout, advanceLine_scanline]

end Graphics

theorem lcdOff_flatAt (s : State) (k : Nat) :
    (lcdOff s).flatAt k
      = if k = 0xFF41 then withMode (s.flatAt 0xFF41) 1 else if k = 0xFF44 then 0 else s.flatAt k := by
  have h : (lcdOff s).flatAt k
      = ((s.setFlat 0xFF44 0).setFlat 0xFF41 (withMode (s.flatAt 0xFF41) 1)).flatAt k := rfl
  rw [h, State.setFlat_flatAt, State.setFlat_flatAt]

/-- Settles O53: with the LCD off three values are forced; with it on the update writes STAT and IF, and the
cost is taken off the counter. -/
theorem statFollowsLineAndCounter : Obligations.StatFollowsLineAndCounter := by
  unfold Obligations.StatFollowsLineAndCounter
  refine ⟨fun s cost hoff => ?_, fun s cost mode coincident requested hon hleft hmode hcoincident hrequested => ?_⟩
  · rw [advanceGraphics_lcdOff hoff]
    refine ⟨rfl, ?_, ?_, fun k h1 h2 => ?_⟩
    · rw [lcdOff_flatAt, if_neg (by decide), if_pos rfl]
    · rw [lcdOff_flatAt, if_pos rfl, withMode_toNat]
    · rw [lcdOff_flatAt, if_neg h1, if_neg h2]
  · obtain rfl : statMode s = mode := hmode.symm
    obtain rfl : statCoincident s = coincident := hcoincident.symm
    have hreq : statRequested s = requested := by
      rw [hrequested, Bool.and_comm (decide _), ← fieldOf_lowTwo]
      rfl
    rw [advanceGraphics_counting hon hleft]
    have hcells : ∀ k, ({ updateStatOn s with scanlineCounter := s.scanlineCounter - cost } : State).flatAt k
        = if k = 0xFF41 then statByte s
          else (if statRequested s then requestInterrupt .stat s else s).flatAt k := updateStatOn_flatAt s
    refine ⟨?_, ?_, fun j _ => ?_, fun k h1 h2 => ?_⟩
    · dsimp only
      rw [updateStatOn_frame]
    · have := ppuMode_lt (s.flatAt 0xFF44).toNat s.scanlineCounter
      rw [← statMode] at this
      rw [hcells, if_pos rfl, statByte, withBit_two_toNat, withMode_toNat]
      omega
    · rw [hcells, if_neg (by decide), hreq]
      cases requested with
      | true =>
        rw [if_pos rfl, requestInterrupt_flatAt, if_pos rfl, withBit_true_getLsbD _ (by decide), Bool.and_true]
        rfl
      | false => rw [if_neg (by decide), Bool.and_false, Bool.or_false]
    · rw [hcells, if_neg h1]
      split
      · rw [requestInterrupt_flatAt, if_neg h2]
      · rfl

end Sys2Proof.Machine

namespace Sys2Proof.Machine

/-! ### The line advance (`61_ppu.md` R400 to R402) -/

/-- `s` on the line after its own, with the counter restarted. -/
def lineStart (s : State) : State :=
  { s.setFlat 0xFF44 (BitVec.ofNat 8 ((s.flatAt 0xFF44).toNat + 1)) with scanlineCounter := 456 }

/-- `s` after the wrap to line 0, with the counter restarted. -/
def lineWrap (s : State) : State := (lineStart s).setFlat 0xFF44 0

theorem lineStart_flatAt (s : State) (k : Nat) : (lineStart s).flatAt k
    = if k = 0xFF44 then BitVec.ofNat 8 ((s.flatAt 0xFF44).toNat + 1) else s.flatAt k :=
  State.setFlat_flatAt s _ _ k

theorem lineWrap_flatAt (s : State) (k : Nat) :
    (lineWrap s).flatAt k = if k = 0xFF44 then 0 else s.flatAt k := by
  rw [lineWrap, State.setFlat_flatAt, lineStart_flatAt]
  split_ifs <;> rfl

theorem lineStart_drawsAlike (s : State) : DrawsAlike s (lineStart s) :=
  ⟨fun k hk _ => by rw [lineStart_flatAt, if_neg hk], rfl⟩

theorem lineWrap_drawsAlike (s : State) : DrawsAlike s (lineWrap s) :=
  ⟨fun k hk _ => by rw [lineWrap_flatAt, if_neg hk], rfl⟩

section LineAdvance
variable {s : State}

theorem advanceLine_visible (h : (s.flatAt 0xFF44).toNat < 143) :
    advanceLine s = renderLine ((s.flatAt 0xFF44).toNat + 1) (lineStart s) := by
  rw [advanceLine, if_neg (by omega), if_neg (by omega), if_pos (by omega), lineStart]

theorem advanceLine_vblank (h : (s.flatAt 0xFF44).toNat = 143) :
    advanceLine s = requestInterrupt .vblank (lineStart s) := by
  rw [advanceLine, if_pos (by omega), lineStart]

theorem advanceLine_blank (h : 143 < (s.flatAt 0xFF44).toNat) (h' : (s.flatAt 0xFF44).toNat < 153) :
    advanceLine s = lineStart s := by
  rw [advanceLine, if_neg (by omega), if_neg (by omega), if_neg (by omega), lineStart]

theorem advanceLine_wrap (h : (s.flatAt 0xFF44).toNat = 153) :
    advanceLine s = if s.params.renderLine0OnWrap then renderLine 0 (lineWrap s) else lineWrap s := by
  rw [advanceLine, if_neg (by omega), if_pos (by omega)]
  rfl

/-- Every cell of `flat` after a line advance: only LY and, on entering line 144, IF move. -/
theorem advanceLine_flatAt (h : (s.flatAt 0xFF44).toNat ≤ 153) (k : Nat) :
    (advanceLine s).flatAt k =
      (if (s.flatAt 0xFF44).toNat = 153 then lineWrap s
        else if (s.flatAt 0xFF44).toNat = 143 then requestInterrupt .vblank (lineStart s)
        else lineStart s).flatAt k := by
  by_cases hw : (s.flatAt 0xFF44).toNat = 153
  · rw [advanceLine_wrap hw, if_pos hw]
    split <;> rfl
  by_cases hv : (s.flatAt 0xFF44).toNat = 143
  · rw [advanceLine_vblank hv, if_neg hw, if_pos hv]
  rw [if_neg hw, if_neg hv]
  by_cases hd : (s.flatAt 0xFF44).toNat < 143
  · rw [advanceLine_visible hd]
    rfl
  · rw [advanceLine_blank (by omega) (by omega)]

theorem advanceLine_line (h : (s.flatAt 0xFF44).toNat ≤ 153) :
    ((advanceLine s).flatAt 0xFF44).toNat
      = if (s.flatAt 0xFF44).toNat = 153 then 0 else (s.flatAt 0xFF44).toNat + 1 := by
  rw [advanceLine_flatAt h]
  split
  · rw [lineWrap_flatAt, if_pos rfl]
    rfl
  · split
    · rw [requestInterrupt_flatAt, if_neg (by decide), lineStart_flatAt, if_pos rfl, lineByte_toNat h]
    · rw [lineStart_flatAt, if_pos rfl, lineByte_toNat h]

theorem advanceLine_requests (h : (s.flatAt 0xFF44).toNat ≤ 153) (j : Nat) :
    ((advanceLine s).flatAt 0xFF0F).getLsbD j = ((s.flatAt 0xFF0F).getLsbD j ||
      (decide (j = 0) && decide ((s.flatAt 0xFF44).toNat = 143))) := by
  rw [advanceLine_flatAt h]
  split
  case isTrue hw =>
    rw [lineWrap_flatAt, if_neg (by decide), decide_eq_false (p := _ = 143) (by omega), Bool.and_false,
      Bool.or_false]
  case isFalse =>
    split
    case isTrue hv =>
      rw [requestInterrupt_flatAt, if_pos rfl, withBit_true_getLsbD _ (Interrupt.index_lt _),
        lineStart_flatAt, if_neg (by decide), decide_eq_true hv, Bool.and_true]
      rfl
    case isFalse hv =>
      rw [lineStart_flatAt, if_neg (by decide), decide_eq_false hv, Bool.and_false, Bool.or_false]

theorem advanceLine_otherCells (h : (s.flatAt 0xFF44).toNat ≤ 153) {k : Nat} (hly : k ≠ 0xFF44)
    (hif : k ≠ 0xFF0F) : (advanceLine s).flatAt k = s.flatAt k := by
  rw [advanceLine_flatAt h]
  split_ifs
  · rw [lineWrap_flatAt, if_neg hly]
  · rw [requestInterrupt_flatAt, if_neg hif, lineStart_flatAt, if_neg hly]
  · rw [lineStart_flatAt, if_neg hly]

/-- The framebuffer after a line advance: the new line is drawn as `s` draws it, as LY and IF play no
part in drawing. -/
theorem advanceLine_screen (h : (s.flatAt 0xFF44).toNat ≤ 153) :
    (advanceLine s).screen
      = if (s.flatAt 0xFF44).toNat < 143 then (renderLine ((s.flatAt 0xFF44).toNat + 1) s).screen
        else if (s.flatAt 0xFF44).toNat = 153 ∧ s.params.renderLine0OnWrap = true then (renderLine 0 s).screen
        else s.screen := by
  by_cases hd : (s.flatAt 0xFF44).toNat < 143
  · rw [advanceLine_visible hd, if_pos hd, (lineStart_drawsAlike s).renderLine rfl (by omega)]
  rw [if_neg hd]
  by_cases hw : (s.flatAt 0xFF44).toNat = 153
  · rw [advanceLine_wrap hw]
    cases hp : s.params.renderLine0OnWrap with
    | true => rw [if_pos rfl, if_pos ⟨hw, rfl⟩, (lineWrap_drawsAlike s).renderLine rfl (by decide)]
    | false =>
      rw [if_neg Bool.false_ne_true, if_neg fun hc => Bool.false_ne_true hc.2]
      rfl
  rw [if_neg fun hc => hw hc.1]
  by_cases hv : (s.flatAt 0xFF44).toNat = 143
  · rw [advanceLine_vblank hv]
    rfl
  · rw [advanceLine_blank (by omega) (by omega)]
    rfl

theorem advanceLine_frame (s : State) : advanceLine s
    = { s with flat := (advanceLine s).flat, scanlineCounter := 456, screen := (advanceLine s).screen } := by
  unfold advanceLine
  simp only
  repeat' split
  all_goals rfl

end LineAdvance

/-- Settles O54: the four cases of the line advance (visible, entering V-blank, in V-blank, wrap), each with
its cells and its framebuffer. -/
theorem lineAdvance : Obligations.LineAdvance := by
  unfold Obligations.LineAdvance
  refine ⟨fun s cost hon hout => ⟨advanceGraphics_lineOver hon hout, updateStatOn_scanlineCounter s⟩,
    fun s ly hly hrange => ?_⟩
  subst hly
  exact ⟨advanceLine_frame s, advanceLine_line hrange, fun j _ => advanceLine_requests hrange j,
    fun k hly hif => advanceLine_otherCells hrange hly hif, advanceLine_screen hrange⟩

/-! ### Which pixels a line touches (`61_ppu.md` section 3) -/

/-- Drawing pixels of line `ly` only leaves the pixels of the other lines. -/
theorem drawTiles_otherRow (s : State) {ly : Nat} (m : Memory) {x y c : Nat} (hly : ly < 144) (hy : y < 144)
    (hc : c < 3) (hrow : y ≠ ly) :
    (drawTiles s ly m).read zeroInitial ((x * 144 + y) * 3 + c)
      = m.read zeroInitial ((x * 144 + y) * 3 + c) :=
  foldl_keeps (P := fun m' : Memory => m'.read zeroInitial ((x * 144 + y) * 3 + c)
      = m.read zeroInitial ((x * 144 + y) * 3 + c)) _ _ rfl fun m' _ _ hm' =>
    (drawPixel_other m' _ hly hy (fun h => hrow h.2) hc).trans hm'

theorem drawSpritePixel_otherRow (s : State) {ly : Nat} (n r k : Nat) (m : Memory) {x y c : Nat}
    (hly : ly < 144) (hy : y < 144) (hc : c < 3) (hrow : y ≠ ly) :
    (drawSpritePixel s ly n r m k).read zeroInitial ((x * 144 + y) * 3 + c)
      = m.read zeroInitial ((x * 144 + y) * 3 + c) := by
  simp only [drawSpritePixel]
  split
  · rfl
  · split
    · exact drawPixel_other m _ hly hy (fun h => hrow h.2) hc
    · rfl

theorem drawSprite_otherRow (s : State) {ly : Nat} (n : Nat) (m : Memory) {x y c : Nat}
    (hly : ly < 144) (hy : y < 144) (hc : c < 3) (hrow : y ≠ ly) :
    (drawSprite s ly m n).read zeroInitial ((x * 144 + y) * 3 + c)
      = m.read zeroInitial ((x * 144 + y) * 3 + c) := by
  unfold drawSprite
  split
  · exact foldl_keeps (P := fun m' : Memory => m'.read zeroInitial ((x * 144 + y) * 3 + c)
        = m.read zeroInitial ((x * 144 + y) * 3 + c)) _ _ rfl fun m' k _ hm' =>
      (drawSpritePixel_otherRow s n _ k m' hly hy hc hrow).trans hm'
  · rfl

theorem drawSprites_otherRow (s : State) {ly : Nat} (m : Memory) {x y c : Nat}
    (hly : ly < 144) (hy : y < 144) (hc : c < 3) (hrow : y ≠ ly) :
    (drawSprites s ly m).read zeroInitial ((x * 144 + y) * 3 + c)
      = m.read zeroInitial ((x * 144 + y) * 3 + c) :=
  foldl_keeps (P := fun m' : Memory => m'.read zeroInitial ((x * 144 + y) * 3 + c)
      = m.read zeroInitial ((x * 144 + y) * 3 + c)) _ _ rfl fun m' n _ hm' =>
    (drawSprite_otherRow s n m' hly hy hc hrow).trans hm'

/-- The two passes of a line, each behind its bit of LCDC. -/
theorem renderLine_screen (s : State) (ly : Nat) : (renderLine ly s).screen
    = if (s.flatAt 0xFF40).getLsbD 1 then
        drawSprites s ly (if (s.flatAt 0xFF40).getLsbD 0 then drawTiles s ly s.screen else s.screen)
      else if (s.flatAt 0xFF40).getLsbD 0 then drawTiles s ly s.screen else s.screen := rfl

theorem renderLine_frame (s : State) (ly : Nat) :
    renderLine ly s = { s with screen := (renderLine ly s).screen } := rfl

/-- Settles O55: both passes draw pixels of line `ly` alone, and neither runs with its layer off. -/
theorem renderLineTouchesItsRowOnly : Obligations.RenderLineTouchesItsRowOnly := by
  unfold Obligations.RenderLineTouchesItsRowOnly
  refine fun s ly hly => ⟨renderLine_frame s ly, fun x y c _ hy hc hrow => ?_, fun htiles hsprites => ?_⟩
  · have hpass : (if (s.flatAt 0xFF40).getLsbD 0 then drawTiles s ly s.screen else s.screen).read zeroInitial
        ((x * 144 + y) * 3 + c) = s.screenAt x y c := by
      split
      · exact drawTiles_otherRow s s.screen hly hy hc hrow
      · rfl
    rw [State.screenAt, renderLine_screen]
    split
    · exact (drawSprites_otherRow s _ hly hy hc hrow).trans hpass
    · exact hpass
  · rw [renderLine_frame, renderLine_screen, hsprites, htiles]
    rfl

end Sys2Proof.Machine

namespace Sys2Proof.Machine

/-! ### The background pass (`61_ppu.md` R411 to R419) -/

/-- The window covers a pixel: it is enabled, and starts at or before the line and the column. -/
theorem inWindow_iff (s : State) (px ly : Nat) :
    inWindow s px ly = true ↔ (s.flatAt 0xFF40).getLsbD 5 = true ∧ (s.flatAt 0xFF4A).toNat ≤ ly ∧
      (s.flatAt 0xFF4B).toNat ≤ px + 7 := by
  have hcolumn : (px : Int) ≥ (s.flatAt 0xFF4B).toNat - 7 ↔ (s.flatAt 0xFF4B).toNat ≤ px + 7 := by omega
  rw [inWindow, Bool.and_eq_true, Bool.and_eq_true, decide_eq_true_iff, decide_eq_true_iff, hcolumn, and_assoc]
  rfl

/-- The colour index of a cell of a tile map, with the address of its tile written out. -/
theorem mapIndex_eq (s : State) {map x y tile base : Nat}
    (htile : tile = (s.flatAt (map + y / 8 * 32 + x / 8)).toNat)
    (hbase : base = (if (s.flatAt 0xFF40).getLsbD 4 then 0x8000 + tile * 16
      else if tile < 128 then 0x9000 + tile * 16 else 0x8000 + tile * 16)) :
    mapIndex s map x y = 2 * ((s.flatAt (base + 2 * (y % 8) + 1)).getLsbD (7 - x % 8)).toNat
      + ((s.flatAt (base + 2 * (y % 8))).getLsbD (7 - x % 8)).toNat := by
  subst htile
  rw [hbase, mapIndex, tileAddress_eq]
  rfl

/-- The column and line of a pixel in its map, and the map: the window's where it covers the pixel, the
scrolled background's elsewhere. -/
theorem tilePixelIndex_eq (s : State) {px ly x y map : Nat}
    (hwindow : inWindow s px ly = true →
      y + (s.flatAt 0xFF4A).toNat = ly ∧ x + (s.flatAt 0xFF4B).toNat = px + 7 ∧
      map = (if (s.flatAt 0xFF40).getLsbD 6 then 0x9C00 else 0x9800))
    (hbackground : ¬ inWindow s px ly = true →
      y = ((s.flatAt 0xFF42).toNat + ly) % 256 ∧ x = ((s.flatAt 0xFF43).toNat + px) % 256 ∧
      map = (if (s.flatAt 0xFF40).getLsbD 3 then 0x9C00 else 0x9800)) :
    tilePixelIndex s px ly = mapIndex s map x y := by
  rw [tilePixelIndex]
  split
  case isTrue hin =>
    obtain ⟨hy, hx, rfl⟩ := hwindow hin
    have hcolumn : ((px : Int) - ((s.flatAt 0xFF4B).toNat - 7)).toNat = x := by omega
    have hline : ly - (s.flatAt 0xFF4A).toNat = y := by omega
    rw [hcolumn, hline]
    rfl
  case isFalse hout =>
    obtain ⟨rfl, rfl, rfl⟩ := hbackground hout
    rfl

/-- Settles O56: the pixel that the background pass draws, through the map, the tile and the palette. -/
theorem backgroundPixel : Obligations.BackgroundPixel := by
  unfold Obligations.BackgroundPixel
  intro s ly px x y map tile base index shade hly hpx htiles hsprites hwindow hbackground htile hbase hindex hshade
  have hpass : (renderLine ly s).screen = drawTiles s ly s.screen := by
    rw [renderLine_screen, hsprites, htiles]
    rfl
  rw [← inWindow_iff] at hwindow hbackground
  have hcolour : shade = paletteShade (s.flatAt 0xFF47) (tilePixelIndex s px ly) := by
    rw [tilePixelIndex_eq s hwindow hbackground, mapIndex_eq s htile hbase, ← hindex, paletteShade_eq, hshade]
  calc (⟨(renderLine ly s).screenAt px ly 0, (renderLine ly s).screenAt px ly 1,
          (renderLine ly s).screenAt px ly 2⟩ : Config.Rgb)
      = pixelAt (renderLine ly s).screen px ly := rfl
    _ = shadeRgb s shade := by rw [hpass, drawTiles_pixel s hly hpx, ← hcolour]

/-! ### The sprite pass (`61_ppu.md` R421 to R424) -/

/-- The row that line `ly` shows of a sprite, as a signed number. -/
theorem spriteRow_eq_some_iff (s : State) (n ly r : Nat) :
    spriteRow s n ly = some r ↔
      ((oamByte s n 0).toNat - 16 : Int) ≤ ly ∧ (ly : Int) < (oamByte s n 0).toNat - 16 + spriteHeight s ∧
      (r : Int) = if bitOf (oamByte s n 3) 6 then
          (spriteHeight s : Int) - 1 - ((ly : Int) - ((oamByte s n 0).toNat - 16))
        else (ly : Int) - ((oamByte s n 0).toNat - 16) := by
  rw [spriteRow]
  dsimp only
  split
  case isTrue hon =>
    rw [Option.some.injEq, and_iff_right hon.1, and_iff_right hon.2]
    obtain ⟨htop, hbottom⟩ := hon
    by_cases hflip : bitOf (oamByte s n 3) 6 = true
    · rw [if_pos hflip, if_pos hflip]
      omega
    · rw [if_neg hflip, if_neg hflip]
      omega
  case isFalse hoff =>
    exact ⟨fun h => (Option.some_ne_none r h.symm).elim, fun ⟨h1, h2, _⟩ => (hoff ⟨h1, h2⟩).elim⟩

theorem spriteHeight_cast (s : State) :
    (spriteHeight s : Int) = if (s.flatAt 0xFF40).getLsbD 2 then 16 else 8 := by
  rw [spriteHeight]
  exact Nat.cast_ite _ _ _

theorem spriteShade_eq (s : State) (n r k : Nat) : spriteShade s n r k
    = (if (s.flatAt (0xFE00 + 4 * n + 3)).getLsbD 4 then s.flatAt 0xFF49 else s.flatAt 0xFF48).toNat
        / 4 ^ (2 * ((s.flatAt (0x8000 + (s.flatAt (0xFE00 + 4 * n + 2)).toNat * 16 + 2 * r + 1)).getLsbD
                (if (s.flatAt (0xFE00 + 4 * n + 3)).getLsbD 5 then k else 7 - k)).toNat
            + ((s.flatAt (0x8000 + (s.flatAt (0xFE00 + 4 * n + 2)).toNat * 16 + 2 * r)).getLsbD
                (if (s.flatAt (0xFE00 + 4 * n + 3)).getLsbD 5 then k else 7 - k)).toNat) % 4 :=
  paletteShade_eq _ _

/-- A sprite shows a shade at a column when a column of its row lies there and has that shade. -/
theorem spriteShows_iff (s : State) (ly n x shade : Nat) :
    SpriteShows s ly n x shade ↔ ∃ r k : Nat, spriteRow s n ly = some r ∧ k < 8 ∧
      (x : Int) = (oamByte s n 1).toNat - 8 + k ∧ shade = spriteShade s n r k := by
  refine exists_congr fun r => exists_congr fun k => ?_
  rw [spriteRow_eq_some_iff, spriteShade_eq, spriteHeight_cast]
  constructor
  · exact fun ⟨hk, hx, htop, hbottom, hr, hshade⟩ => ⟨⟨htop, hbottom, hr⟩, hk, hx, hshade⟩
  · exact fun ⟨⟨htop, hbottom, hr⟩, hk, hx, hshade⟩ => ⟨hk, hx, htop, hbottom, hr, hshade⟩

section Fold
variable {α γ : Type} (f : α → Nat → α) (obs : α → γ)

/-- A fold whose steps all keep an observation keeps it. -/
theorem foldl_range_unchanged (N : Nat) (m : α) (h : ∀ m i, i < N → obs (f m i) = obs m) :
    obs ((List.range N).foldl f m) = obs m :=
  foldl_keeps (P := fun m' => obs m' = obs m) f _ rfl fun m' i hi hm' =>
    (h m' i (List.mem_range.mp hi)).trans hm'

/-- A fold that observes the value given by its step `i`, when every later step keeps the observation. -/
theorem foldl_range_last {N i : Nat} (hi : i < N) (m : α) {v : γ} (hset : ∀ m, obs (f m i) = v)
    (hkeep : ∀ m j, i < j → j < N → obs (f m j) = obs m) : obs ((List.range N).foldl f m) = v := by
  induction N with
  | zero => omega
  | succ N ih =>
    rw [List.range_succ, List.foldl_append, List.foldl_cons, List.foldl_nil]
    rcases Nat.lt_succ_iff_lt_or_eq.mp hi with hlt | rfl
    · rw [hkeep _ N hlt (by omega)]
      exact ih hlt fun m j h1 h2 => hkeep m j h1 (by omega)
    · exact hset _

end Fold

section SpritePass
variable (s : State) {ly x : Nat}

/-- A column of a sprite that lies elsewhere, or is of shade 0, leaves the pixel. -/
theorem drawSpritePixel_keeps (m : Memory) (n r k : Nat) (hly : ly < 144)
    (h : (x : Int) = (oamByte s n 1).toNat - 8 + k → spriteShade s n r k = 0) :
    pixelAt (drawSpritePixel s ly n r m k) x ly = pixelAt m x ly := by
  simp only [drawSpritePixel]
  split
  · rfl
  case isFalse hshade =>
    split
    · exact pixelAt_other m _ hly hly fun hc => hshade (h (by omega))
    · rfl

/-- A column of a sprite of another shade gives the pixel its colour. -/
theorem drawSpritePixel_draws (m : Memory) (n r k : Nat) (hx : x < 160)
    (hcolumn : (x : Int) = (oamByte s n 1).toNat - 8 + k) (hshade : spriteShade s n r k ≠ 0) :
    pixelAt (drawSpritePixel s ly n r m k) x ly = shadeRgb s (spriteShade s n r k) := by
  simp only [drawSpritePixel]
  rw [if_neg hshade, if_pos (by omega), ← hcolumn]
  exact drawPixel_self _ _ _ _

/-- A sprite that shows at most shade 0 at a pixel leaves it. -/
theorem drawSprite_keeps (m : Memory) (n : Nat) (hly : ly < 144)
    (h : ∀ shade, SpriteShows s ly n x shade → shade = 0) :
    pixelAt (drawSprite s ly m n) x ly = pixelAt m x ly := by
  rw [drawSprite]
  split
  case h_1 r hr =>
    refine foldl_range_unchanged _ (fun m' => pixelAt m' x ly) 8 m fun m' k hk => ?_
    exact drawSpritePixel_keeps s m' n r k hly fun hcolumn =>
      h _ ((spriteShows_iff s ly n x _).mpr ⟨r, k, hr, hk, hcolumn, rfl⟩)
  · rfl

/-- A sprite that shows another shade at a pixel gives it the colour: the later columns lie elsewhere. -/
theorem drawSprite_draws (m : Memory) {n shade : Nat} (hly : ly < 144) (hx : x < 160)
    (h : SpriteShows s ly n x shade) (hshade : shade ≠ 0) :
    pixelAt (drawSprite s ly m n) x ly = shadeRgb s shade := by
  obtain ⟨r, k, hr, hk, hcolumn, rfl⟩ := (spriteShows_iff s ly n x shade).mp h
  rw [drawSprite, hr]
  refine foldl_range_last _ (fun m' => pixelAt m' x ly) hk m
    (fun m' => drawSpritePixel_draws s m' n r k hx hcolumn hshade) fun m' j hj _ => ?_
  exact drawSpritePixel_keeps s m' n r j hly fun hcolumn' => by omega

/-- A pixel that no sprite shows a shade other than 0 at is left. -/
theorem drawSprites_keeps (m : Memory) (hly : ly < 144)
    (h : ∀ n shade, n < 40 → SpriteShows s ly n x shade → shade = 0) :
    pixelAt (drawSprites s ly m) x ly = pixelAt m x ly :=
  foldl_range_unchanged _ (fun m' => pixelAt m' x ly) 40 m fun m' n hn =>
    drawSprite_keeps s m' n hly fun shade => h n shade hn

/-- The last sprite that shows a shade other than 0 at a pixel gives it the colour. -/
theorem drawSprites_draws (m : Memory) {n shade : Nat} (hly : ly < 144) (hx : x < 160) (hn : n < 40)
    (hshows : SpriteShows s ly n x shade) (hshade : shade ≠ 0)
    (hlast : ∀ n' shade', n < n' → n' < 40 → SpriteShows s ly n' x shade' → shade' = 0) :
    pixelAt (drawSprites s ly m) x ly = shadeRgb s shade :=
  foldl_range_last _ (fun m' => pixelAt m' x ly) hn m
    (fun m' => drawSprite_draws s m' hly hx hshows hshade) fun m' n' h1 h2 =>
      drawSprite_keeps s m' n' hly fun shade' => hlast n' shade' h1 h2

end SpritePass

/-- The bytes of equal pixels are equal. -/
theorem read_of_pixelAt {m m' : Memory} {x y : Nat} (h : pixelAt m x y = pixelAt m' x y) {c : Nat} (hc : c < 3) :
    m.read zeroInitial ((x * 144 + y) * 3 + c) = m'.read zeroInitial ((x * 144 + y) * 3 + c) := by
  obtain ⟨h0, h1, h2⟩ := Config.Rgb.mk.inj h
  interval_cases c
  · exact h0
  · exact h1
  · exact h2

/-- Settles O57: the fold over the sprites keeps a pixel that none shows, and its last opaque one wins. -/
theorem spritePixel : Obligations.SpritePixel := by
  unfold Obligations.SpritePixel
  refine ⟨renderLine_screen, fun s m ly x hly hx => ⟨fun hnone c hc => ?_, fun n shade hn hshows hshade hlast => ?_⟩⟩
  · exact read_of_pixelAt (drawSprites_keeps s m hly hnone) hc
  · exact drawSprites_draws s m hly hx hn hshows hshade hlast

end Sys2Proof.Machine
